-- ==== Sys2Proof/Word.lean ====
section
/-! DEFINITION. The word types of fixed width: bits, bit strings, bytes and symbols (`spec/00_scope.md`
rules R5, R7). The types whose width is a parameter of the build (a weight, a command word) are in
`Sys2Proof/Config.lean`. Only abbreviations stand here. -/

namespace Sys2Proof

/-- A bit string in stream order, first bit at the head; `true` is the bit 1 (R7). -/
abbrev Bits := List Bool

/-- One uncompressed symbol: `SYM_W = 8` bits (R5, R60). -/
abbrev Byte := BitVec 8

/-- The `sym` field of a leaf: `LEAF_W = 9` bits, `0..511` (R5, R13). -/
abbrev Sym := BitVec 9

end Sys2Proof
end

