-- ==== Sys2Proof/Config.lean ====
section
/-! DEFINITION. What the hardware fixes when it is built (`spec/10_state.md` rule R24): the parameters
the source fixes (`spec/00_scope.md` rule R5) as constants, those it leaves to the implementation (R6) as
`Params`, the argument of every type and meaning of the model, with this hardware's values as its
defaults; and the one free value of the model. The last parameter of R6, `TIE_BREAK`, is an order on the
builder's elements and so an argument of the builder (`Sys2Proof/Machine/TreeBuilder.lean`). -/

namespace Sys2Proof

namespace Config

/-- `ALPH = 256`, the number of literal symbols (R5). -/
abbrev alph : Nat := 256

/-- `TERM = 256`, the terminator symbol (R5). -/
abbrev term : Nat := 256

/-- `NSYM = 257`, the number of symbols and of entries of each table (R5). -/
abbrev nsym : Nat := 257

/-- `MAGIC = 0xFACE8201`, a field of 32 bits (R5, R56). -/
abbrev magic : Nat := 0xFACE8201

/-- `MAGIC_W = 32` (R5). -/
abbrev magicW : Nat := 32

/-- `LEAF_W = 9` (R5). -/
abbrev leafW : Nat := 9

/-- `SYM_W = 8` (R5). -/
abbrev symW : Nat := 8

/-- `MAX_LEAVES = 257`, the most leaves of a tree the builder makes (R5). -/
abbrev maxLeaves : Nat := 257

/-- `MAX_DEPTH = 256`, the deepest leaf of a tree the builder makes (R5). -/
abbrev maxDepth : Nat := 256

end Config

/-- The parameters of R6, each with the value this hardware takes as its default. -/
structure Params where
  /-- `WEIGHT_W`: the width in bits of a weight (decision D4). -/
  weightW : Nat := 32
  /-- `MAX_INPUT_BYTES = 2^WEIGHT_W − 2`: the longest input of a COUNT or a COMPRESS (R71). -/
  maxInputBytes : Nat := 2 ^ weightW - 2
  /-- `NODE_CAP = 2·MAX_LEAVES − 1`: the most nodes a tree held in the block may have (decision D5). -/
  nodeCap : Nat := 513
  /-- `CODE_MAX_LEN = MAX_DEPTH`: the longest code, in bits (R12). -/
  codeMaxLen : Nat := 256
  /-- `CMD_W`: the width of a command opcode (decision D2). -/
  cmdW : Nat := 4
  deriving DecidableEq, Repr

/-- This hardware. -/
abbrev hardware : Params := {}

/-- An unsigned weight of `WEIGHT_W` bits (R6, R11). -/
abbrev Weight (P : Params := hardware) := BitVec P.weightW

/-- A command word: `CMD_W` bits, no operand (R50). -/
abbrev Opcode (P : Params := hardware) := BitVec P.cmdW

/-- FREE VALUE (assumption log 3). The weight BUILD gives a merged node when the exact sum of the two
weights does not fit `WEIGHT_W` bits. The spec states no result there: it excludes the case by the
input bound (R71, R82), and no run from reset meets it. Arguments: the two weights and the `seq` of
the new node. -/
opaque Config.overflowSum {P : Params} : Weight P → Weight P → Nat → Weight P

end Sys2Proof
end

