-- ==== Sys2Proof/Syntax.lean ====
section
/-! DEFINITION. The rows of `spec/opcode_table.json` as one inductive, and the tree that the records of
the tree header describe (`spec/10_state.md` rule R13, `spec/30_encoding.md` rules R50 to R60). -/

namespace Sys2Proof

/-- A strict binary tree (R13): a leaf holds a symbol and a weight, an internal node two children and
a weight. An internal node has no symbol field (decision D9). -/
inductive PrefixTree (P : Params := hardware) where
  | leaf (sym : Sym) (w : Weight P)
  | node (left right : PrefixTree P) (w : Weight P)
  deriving DecidableEq, Repr, Inhabited

/-- One constructor per row of the opcode table: the fifteen commands and the reserved opcode of R50
and R51, then the five stream records of R54, which the table lists beside them ("stream record, not a
command"). No command has an operand (R50); a record carries its field. -/
inductive Instr where
  | nop
  | count
  | build
  | gencodes
  | wrmagic
  | wrtree
  | rewind
  | encode
  | rdmagic
  | rdtree
  | decode
  | close
  | compress
  | decompress
  | clear
  | reservedF
  | streamMagic
  | streamNodeInternal
  | streamNodeLeaf (s : Sym)
  | streamCodeword (p : Bits)
  | streamByte (b : Byte)
  deriving DecidableEq, Repr

end Sys2Proof
end

