-- ==== Sys2Proof/WellFormed.lean ====
section
/-! DEFINITION. Which instructions are well formed. A command has no field; of the stream records only
the code word has a bound that its type does not already say. -/

namespace Sys2Proof

/-- A code word has `0..CODE_MAX_LEN` bits (R54 (d), R59); every other field is as wide as its type.
A leaf record with a symbol `257..511` is reserved but accepted (R61 (d)), so it is well formed. -/
def wellFormed (i : Instr) (P : Params := hardware) : Bool :=
  match i with
  | .nop | .count | .build | .gencodes | .wrmagic | .wrtree | .rewind | .encode => true
  | .rdmagic | .rdtree | .decode | .close | .compress | .decompress | .clear | .reservedF => true
  | .streamMagic | .streamNodeInternal | .streamNodeLeaf _ | .streamByte _ => true
  | .streamCodeword p => decide (p.length ≤ P.codeMaxLen)

end Sys2Proof
end

