-- ==== Sys2Proof/Decode.lean ====
section
/-! DEFINITION. Numbers and bit strings (R7, R37), the decoder of command words and stream records, and
the encoder, both written from `spec/30_encoding.md` and `spec/opcode_table.json`. The stream formats
overlap as bit strings (a bit `0` is a node record, a code bit or part of a byte), so a record is read
at a PLACE: the part of a stream, or the command port, it stands in. -/

namespace Sys2Proof

/-- The low `n` bits of `v` as a field of `n` bits, most significant bit first (R7, R33). -/
def bitsOf : Nat → Nat → Bits
  | 0, _ => []
  | n + 1, v => v.testBit n :: bitsOf n v

/-- The unsigned number a field holds, first bit most significant (R7, R31). -/
def natOf (p : Bits) : Nat :=
  p.foldl (fun v b => 2 * v + b.toNat) 0

/-- Where a record is read: the command port (R50), the start of a compressed file (R56), the tree
header (R57), the payload of a file whose tree is `t` (R59, R63), or an uncompressed stream (R60). -/
inductive Place (P : Params := hardware) where
  | command
  | magic
  | node
  | code (t : PrefixTree P)
  | symbol
  deriving DecidableEq, Repr

/-- Why a word or a record is rejected. -/
inductive DecodeError where
  /-- Fewer bits than the record needs. -/
  | exhausted
  /-- The first 32 bits of a file are not the magic word (R61 (a)). -/
  | notMagic (v : Nat)
  /-- No row of the opcode table has a word of this width and value. -/
  | noSuchWord
  deriving DecidableEq, Repr

/-- The opcode map of R50; `0xF` is the reserved opcode (R51). On a build with more than 4 opcode bits the
words above `0xF` are in no row of the map; they are read as reserved too (assumption log 7). -/
def decodeCommand {n : Nat} (op : BitVec n) : Instr :=
  match op.toNat with
  | 0x0 => .nop
  | 0x1 => .count
  | 0x2 => .build
  | 0x3 => .gencodes
  | 0x4 => .wrmagic
  | 0x5 => .wrtree
  | 0x6 => .rewind
  | 0x7 => .encode
  | 0x8 => .rdmagic
  | 0x9 => .rdtree
  | 0xA => .decode
  | 0xB => .close
  | 0xC => .compress
  | 0xD => .decompress
  | 0xE => .clear
  | _ => .reservedF

/-- The code word that starts a payload, and the bits after it: the walk from the root that ends at a
leaf (R63). It has length 0 when the root is a leaf. -/
def walkCode {P : Params} : PrefixTree P → Bits → Option (Bits × Bits)
  | .leaf _ _, bs => some ([], bs)
  | .node _ _ _, [] => none
  | .node l _ _, false :: bs => (walkCode l bs).map fun px => (false :: px.1, px.2)
  | .node _ r _, true :: bs => (walkCode r bs).map fun px => (true :: px.1, px.2)

/-- A field of `n` bits at the head of `bs`, as a number, and the bits after it (R31). -/
def takeField (n : Nat) (bs : Bits) : Except DecodeError (Nat × Bits) :=
  if bs.length < n then .error .exhausted else .ok (natOf (bs.take n), bs.drop n)

/-- The decoder: the record that stands first in `bs` at a place, and the bits after it. -/
def decodeIn {P : Params} : Place P → Bits → Except DecodeError (Instr × Bits)
  | .command, bs =>
    (takeField P.cmdW bs).map fun (v, rest) =>
      (decodeCommand (BitVec.ofNat P.cmdW v), rest)
  | .magic, bs =>
    match takeField Config.magicW bs with
    | .error e => .error e
    | .ok (v, rest) => if v = Config.magic then .ok (.streamMagic, rest) else .error (.notMagic v)
  | .node, [] => .error .exhausted
  | .node, false :: bs => .ok (.streamNodeInternal, bs)
  | .node, true :: bs =>
    (takeField Config.leafW bs).map fun (v, rest) => (.streamNodeLeaf (BitVec.ofNat 9 v), rest)
  | .code t, bs =>
    match walkCode t bs with
    | none => .error .exhausted
    | some (p, rest) => .ok (.streamCodeword p, rest)
  | .symbol, bs =>
    (takeField Config.symW bs).map fun (v, rest) => (.streamByte (BitVec.ofNat 8 v), rest)

/-- The decoder on a word of `nbits` bits (whole bytes) numbered as the opcode table numbers it: bit 0
least significant. One byte below `2^CMD_W` is a command word in its low `CMD_W` bits; the other widths and
values each belong to one record of R54, and a record of no bits is the empty code word (R59). -/
def decodeWord (nbits w : Nat) (P : Params := hardware) : Except DecodeError Instr :=
  if nbits = 0 then (decodeIn (P := P) (.code (.leaf 0 0)) []).map Prod.fst
  else if nbits = 8 ∧ w < 2 ^ P.cmdW then (decodeIn (P := P) .command (bitsOf P.cmdW w)).map Prod.fst
  else if nbits = 8 ∧ w < 256 then (decodeIn (P := P) .symbol (bitsOf 8 w)).map Prod.fst
  else if nbits = 16 ∧ 512 ≤ w ∧ w < 1024 then (decodeIn (P := P) .node (bitsOf 10 w)).map Prod.fst
  else if nbits = 32 ∧ w = Config.magic then (decodeIn (P := P) .magic (bitsOf 32 w)).map Prod.fst
  else .error .noSuchWord

/-- The instruction the decoder reads from a table word, `none` where it refuses. -/
def decodeTableWord (nbits w : Nat) : Option Instr :=
  match decodeWord nbits w with
  | .ok i => some i
  | .error _ => none

/-- The encoder: the bits of an instruction in the order they stand on the port or in the stream,
first bit most significant (R50, R54 to R60). -/
def encode (i : Instr) (P : Params := hardware) : Bits :=
  match i with
  | .nop => bitsOf P.cmdW 0x0
  | .count => bitsOf P.cmdW 0x1
  | .build => bitsOf P.cmdW 0x2
  | .gencodes => bitsOf P.cmdW 0x3
  | .wrmagic => bitsOf P.cmdW 0x4
  | .wrtree => bitsOf P.cmdW 0x5
  | .rewind => bitsOf P.cmdW 0x6
  | .encode => bitsOf P.cmdW 0x7
  | .rdmagic => bitsOf P.cmdW 0x8
  | .rdtree => bitsOf P.cmdW 0x9
  | .decode => bitsOf P.cmdW 0xA
  | .close => bitsOf P.cmdW 0xB
  | .compress => bitsOf P.cmdW 0xC
  | .decompress => bitsOf P.cmdW 0xD
  | .clear => bitsOf P.cmdW 0xE
  | .reservedF => bitsOf P.cmdW 0xF
  | .streamMagic => bitsOf 32 Config.magic
  | .streamNodeInternal => [false]
  | .streamNodeLeaf s => true :: bitsOf 9 s.toNat
  | .streamCodeword p => p
  | .streamByte b => bitsOf 8 b.toNat

end Sys2Proof
end

