-- ==== Sys2Proof/Machine/State.lean ====
section
/-! DEFINITION. The state of the block, of its bit source and bit sink, and of its host's pending steps
(`spec/10_state.md`), the reasons a step stops, and the state right after reset. -/

namespace Sys2Proof.Machine

/-- The bit source `IN` (R22): the bits the host attached and the cursor, `0 ≤ pos ≤ |bits|`. -/
structure Source where
  bits : Bits
  pos : Nat
  deriving DecidableEq, Repr

/-- The bit sink `OUT` (R23): the bits written so far and the level of its `closed` wire. -/
structure Sink where
  bits : Bits
  closed : Bool
  deriving DecidableEq, Repr

/-- The weight table `WT` (R11), indexed by symbol `0..256`. -/
abbrev WeightTable (P : Params := hardware) := Vector (Weight P) 257

/-- The code table `CT` (R12), indexed by symbol `0..256`: no code, or a bit string. -/
abbrev CodeTable := Vector (Option Bits) 257

/-- One step of the host (R26). -/
inductive HostStep (P : Params := hardware) where
  /-- Issue a command word (R50). -/
  | issue (op : Opcode P)
  /-- MODEL'S OWN (assumption log 6): hold out at the command port a word that is not a command word.
  The port has `CMD_W = 4` wires, so the hardware has no such step. -/
  | offer (nbits w : Nat)
  /-- Read one item of the inspection port (R18). -/
  | inspect (space index : Nat)
  /-- Read `out_bits`. -/
  | readOut
  /-- Attach a source positioned at its start. -/
  | attachSource (bits : Bits)
  /-- Attach a fresh, open, empty sink. -/
  | attachSink
  /-- Drive the reset input (R150). -/
  | reset
  deriving DecidableEq, Repr

/-- What a read gave the host (R18, R26), each item in its own width. -/
inductive Reply (P : Params := hardware) where
  | register8 (v : BitVec 8)
  | register32 (v : BitVec 32)
  | weight (v : Weight P)
  | code (present : BitVec 1) (len : BitVec 9) (bits : BitVec P.codeMaxLen)
  | undefinedItem (v : Nat)
  | outBits (bits : Bits)
  deriving DecidableEq, Repr

/-- The state. `wt` to `info` is the block (R10 (a)); `src` and `snk` are the collaborators (R10 (c));
`host` and `reply` are the host's side of the ports (R26). `STATUS` is a view of `busy`, `done`,
`fault`, `tree` and `snk` (`statusByte`, R15). State that lives only inside one command (R21) is local
to the command's meaning, since a command is one step (R26). The argument is the build (R6, R24). -/
structure State (P : Params := hardware) where
  /-- `WT` (R11). -/
  wt : WeightTable P
  /-- `CT` (R12). -/
  ct : CodeTable
  /-- `TREE` (R13). -/
  tree : Option (PrefixTree P)
  /-- `STATUS.BUSY` (R15). -/
  busy : Bool
  /-- `STATUS.DONE` (R15, R125). -/
  done : Bool
  /-- `STATUS.FAULT` (R15, R135). -/
  fault : Bool
  /-- `CAUSE`: `CODE` in bits 3:0, `SUB` in bits 7:4 (R16). -/
  cause : BitVec 8
  /-- `INFO` (R17). -/
  info : BitVec 32
  /-- `IN` (R22). -/
  src : Source
  /-- `OUT` (R23). -/
  snk : Sink
  /-- The host's pending steps, the next one first (R26). MODEL'S OWN. -/
  host : List (HostStep P)
  /-- What the host's last read returned (R18). MODEL'S OWN. -/
  reply : Option (Reply P)
  deriving DecidableEq, Repr

/-- Why the machine stops with a fault. The seven faults of the block (R130) are NOT here: each is
latched in `STATUS`, `CAUSE` and `INFO` by a next state (R134). -/
inductive Fault where
  /-- Raised by `step` alone, for an offered word that no row of the opcode table matches: it is
  neither a command word nor a stream record. Safe: the hardware's port cannot carry such a word. -/
  | noSuchWord
  deriving DecidableEq, Repr

/-- Why an instruction or a step is given no meaning. -/
inductive Refusal where
  /-- Raised by an arm of `exec` whose instruction has no meaning yet. Safe. -/
  | notModelled (mnemonic : String)
  /-- Raised by COUNT and by COMPRESS for a source of more than `MAX_INPUT_BYTES` whole bytes from the
  cursor: "a model refuses such a launch" (R71, U10). Safe. -/
  | inputTooLong
  /-- Raised by the five stream records of the opcode table: a record is data in a stream, "not a
  command", and the command port cannot carry it (R50, R54). Safe. -/
  | streamRecordIsNoCommand
  /-- Raised by `step` while `STATUS.BUSY = 1`: a command is one atomic step (R26), no run shows the
  block in the middle of one, and a reset there is given no meaning (R152, U11). Safe. -/
  | commandRunning
  deriving DecidableEq, Repr

/-- The state right after reset (R25, R150), with the collaborators as assumption log 1 says: an empty
source at its start and a fresh, open, empty sink. No host step is pending. -/
def State.reset : State where
  wt := Vector.replicate 257 0
  ct := Vector.replicate 257 none
  tree := none
  busy := false
  done := false
  fault := false
  cause := 0
  info := 0
  src := { bits := [], pos := 0 }
  snk := { bits := [], closed := false }
  host := []
  reply := none

end Sys2Proof.Machine
end

