-- ==== Sys2Proof/Machine/Operands.lean ====
section
/-! DEFINITION. What a command works on. No command names an operand (R50): the operands are the bit
source, the bit sink and the two tables, reached only through the operations of this file
(`spec/20_memory.md` rules R31 to R35, `spec/10_state.md` rules R11, R12). -/

namespace Sys2Proof.Machine

variable {P : Params}

/-- The bits from the cursor on. -/
def Source.rest (src : Source) : Bits := src.bits.drop src.pos

/-- How many bits remain: `|in_bits| − in_pos`. -/
def Source.left (src : Source) : Nat := src.bits.length - src.pos

/-- `IN.readBits(n)` (R31): the next `n` bits as a number and the source with its cursor moved past
them, or `none` for `EXHAUSTED`, which moves nothing. -/
def Source.readBits (src : Source) (n : Nat) : Option (Nat × Source) :=
  if src.left < n then none
  else some (natOf (src.rest.take n), { src with pos := src.pos + n })

/-- `IN.rewind()` (R32). -/
def Source.rewind (src : Source) : Source := { src with pos := 0 }

/-- `OUT.writeString(p)` (R8): the bits of `p` in order. -/
def Sink.writeString (snk : Sink) (p : Bits) : Sink := { snk with bits := snk.bits ++ p }

/-- `OUT.writeBits(n, v)` (R33): the low `n` bits of `v`, most significant first. -/
def Sink.writeBits (snk : Sink) (n v : Nat) : Sink := snk.writeString (bitsOf n v)

/-- `OUT.close()` (R35). -/
def Sink.close (snk : Sink) : Sink := { snk with closed := true }

/-- Every weight 0. -/
def noWeights : WeightTable P := Vector.replicate 257 0

/-- Every entry `none`. -/
def noCodes : CodeTable := Vector.replicate 257 none

/-- `WT[r] <- WT[r] + 1` for a byte `r` read from the source (R70). -/
def bumpWeight (wt : WeightTable P) (r : Nat) : WeightTable P :=
  if h : r < 257 then wt.set r (wt[r] + 1) h else wt

/-- `CT[s]`; a symbol above 256 has no entry (R12). -/
def codeOf (ct : CodeTable) (s : Nat) : Option Bits :=
  if h : s < 257 then ct[s] else none

/-- `if s ≤ 256: CT[s] <- p` (R85, R88). -/
def recordCode (ct : CodeTable) (s : Nat) (p : Bits) : CodeTable :=
  if h : s < 257 then ct.set s (some p) h else ct

end Sys2Proof.Machine
end

