-- ==== Sys2Proof/Machine/Flags.lean ====
section
/-! DEFINITION. The control registers: the `STATUS` byte as a view, the fault codes and the layout of
`CAUSE`, and the writes of `BUSY` and `DONE` around a command (`spec/10_state.md` rules R15 to R17, R19,
`spec/46_sequencer_and_system.md` rule R125, `spec/60_exceptions.md` rule R130). No command writes a flag
as a side effect of arithmetic (R19). -/

namespace Sys2Proof.Machine

variable {P : Params}

/-- `STATUS.TREE_VALID`: a view of `TREE` (R15). -/
def treeValid (s : State P) : Bool := s.tree.isSome

/-- `STATUS.CLOSED`: the level of the sink's `closed` wire (R15). -/
def sinkClosed (s : State P) : Bool := s.snk.closed

/-- `STATUS`: bits 4 to 0 are `CLOSED`, `TREE_VALID`, `FAULT`, `DONE`, `BUSY`; bits 7:5 read 0 (R15). -/
def statusByte (s : State P) : BitVec 8 :=
  BitVec.ofNat 8 (s.busy.toNat + 2 * s.done.toNat + 4 * s.fault.toNat
    + 8 * (treeValid s).toNat + 16 * (sinkClosed s).toNat)

/-- The level output `done` (R139). -/
def doneLine (s : State P) : Bool := s.done

/-- The level output `fault` (R139). -/
def faultLine (s : State P) : Bool := s.fault

/-- The command handshake's `ready`: low while the block is busy (R156). -/
def readyLine (s : State P) : Bool := !s.busy

/-- The block's faults (R130). -/
inductive FaultName where
  | illegalHeader
  | truncatedHeader
  | truncatedStream
  | emptyAlphabet
  | missingCode
  | treeOverflow
  | illegalCommand
  deriving DecidableEq, Repr

/-- `CAUSE.CODE` of a fault (R130). -/
def faultCode : FaultName → Nat
  | .illegalHeader => 1
  | .truncatedHeader => 2
  | .truncatedStream => 3
  | .emptyAlphabet => 4
  | .missingCode => 5
  | .treeOverflow => 6
  | .illegalCommand => 7

/-- The argument of `raise X(sub, info)` (R8). -/
structure Raise where
  name : FaultName
  sub : Nat
  info : Nat
  deriving DecidableEq, Repr

/-- `CAUSE` for a raise: `SUB` in bits 7:4, `CODE` in bits 3:0 (R16). -/
def Raise.cause (r : Raise) : BitVec 8 := BitVec.ofNat 8 (16 * r.sub + faultCode r.name)

/-- Acceptance: `DONE` is cleared (R113) and `BUSY` is 1 while the command runs (R15). -/
def State.begin (s : State P) : State P := { s with busy := true, done := false }

/-- The end of a command without a raise: `DONE` is set (R113, R125) and `BUSY` falls. -/
def State.finish (s : State P) : State P := { s with busy := false, done := true }

end Sys2Proof.Machine
end

