-- ==== Sys2Proof/Machine/Ops.lean ====
section
/-! DEFINITION. The shared operations: taking a fault, the reset of the block, accepting a command,
running pseudocode up to its end or its raise, the checks every command shares, and the host's own
steps (`spec/46_sequencer_and_system.md` rules R113 and R121, `spec/60_exceptions.md` rules R134 to R138,
`spec/10_state.md` rules R18, R25, R26). -/

namespace Sys2Proof.Machine

variable {P : Params}

/-- What `raise X(sub, info)` does to the state (R134): `FAULT` set, `DONE` stays 0, `CAUSE` and `INFO`
written, the block idle. `CAUSE` and `INFO` are written only when `FAULT` was 0 (R16, R17). Nothing else
is saved and control goes nowhere. -/
def takeFault (r : Raise) (s : State P) : State P :=
  { s with
    busy := false
    fault := true
    cause := if s.fault then s.cause else r.cause
    info := if s.fault then s.info else BitVec.ofNat 32 r.info }

/-- The reset of the block (R25, R150): every piece of state inside it, and nothing outside it (R151).
CLEAR, the one way back from a latched fault besides the reset input, is the same write (R118, R138). -/
def clearBlock (s : State P) : State P :=
  { s with
    wt := noWeights
    ct := noCodes
    tree := none
    busy := false
    done := false
    fault := false
    cause := 0
    info := 0 }

/-- How far a command's pseudocode ran: to its end, up to a raise (with every write made before it,
R137), or into a case the spec gives no meaning. -/
inductive Ran (P : Params := hardware) where
  | ended (s : State P)
  | raised (s : State P) (r : Raise)
  | refused (why : Refusal)
  deriving DecidableEq, Repr

/-- The next statement of a sequence: a raise ends the list (R20 (b), R134). -/
def Ran.andThen (x : Ran P) (next : State P → Ran P) : Ran P :=
  match x with
  | .ended s => next s
  | .raised s r => .raised s r
  | .refused why => .refused why

/-- `OUT.close()` on the state. -/
def closeSink (s : State P) : State P := { s with snk := s.snk.close }

/-- The failure path of a composite command: after a raise the sink is closed (R121). -/
def Ran.closeOnRaise : Ran P → Ran P
  | .ended s => .ended s
  | .raised s r => .raised (closeSink s) r
  | .refused why => .refused why

/-- The outcome of a command whose pseudocode ran: `DONE` at its end (R113), the fault latched at a
raise (R134). -/
def Ran.outcome : Ran P → Host.Outcome (State P) Fault Refusal
  | .ended s => .next s.finish
  | .raised s r => .next (takeFault r s)
  | .refused why => .refused why

/-- Command acceptance (R113) for every opcode but NOP, CLOSE and CLEAR while a fault is latched: then
the command is ignored and no state changes (U16). -/
def accept (body : State P → Ran P) (s : State P) : Host.Outcome (State P) Fault Refusal :=
  if s.fault then .next s else (body s.begin).outcome

/-- The check "sink closed": `IllegalCommandError`, `SUB = 1`, `INFO` the opcode (R113, R132). -/
def requireOpen (op : Nat) (s : State P) : Ran P :=
  if s.snk.closed then .raised s ⟨.illegalCommand, 1, op⟩ else .ended s

/-- The check "no tree": `IllegalCommandError`, `SUB = 2`, `INFO` the opcode (R113, R132). -/
def requireTree (op : Nat) (work : PrefixTree P → State P → Ran P) (s : State P) : Ran P :=
  match s.tree with
  | none => .raised s ⟨.illegalCommand, 2, op⟩
  | some t => work t s

/-! ### The host's steps -/

/-- The three fields of a code table entry as the inspection port shows them: code bit `i` stands at
bit `CODE_MAX_LEN − 1 − i`, which is `255 − i` here, the bits below the code are 0, and `none` reads 0 in
all three (R12, R18). -/
def codeReply : Option Bits → Reply P
  | none => .code 0 0 0
  | some p =>
    .code 1 (BitVec.ofNat 9 p.length)
      (BitVec.ofNat P.codeMaxLen (natOf p * 2 ^ (P.codeMaxLen - p.length)))

/-- A read of the inspection port (R18); any other space or index reads as 0. -/
def inspect (space index : Nat) (s : State P) : Reply P :=
  match space, index with
  | 0, 0 => .register8 (statusByte s)
  | 0, 1 => .register8 s.cause
  | 0, 2 => .register32 s.info
  | 1, i => if h : i < 257 then .weight s.wt[i] else .undefinedItem 0
  | 2, i => if h : i < 257 then codeReply s.ct[i] else .undefinedItem 0
  | _, _ => .undefinedItem 0

/-- The host reads one item; the read has no side effect on the block (R18). -/
def hostInspect (space index : Nat) (s : State P) : State P :=
  { s with reply := some (inspect space index s) }

/-- The host reads `out_bits` (R26). -/
def hostReadOut (s : State P) : State P := { s with reply := some (.outBits s.snk.bits) }

/-- The host attaches a source: `in_bits <- b`, `in_pos <- 0` (R26). -/
def attachSource (b : Bits) (s : State P) : State P := { s with src := { bits := b, pos := 0 } }

/-- The host attaches a sink: `out_bits <- ε`, `OUT.closed <- 0` (R26). -/
def attachSink (s : State P) : State P := { s with snk := { bits := [], closed := false } }

/-- The host step that puts a table word on the command port: a word of one byte below `2^CMD_W` is a
command word, and any other word can only be held out (assumption log 6). -/
def hostWord (nbits w : Nat) : HostStep P :=
  if nbits = 8 ∧ w < 2 ^ P.cmdW then .issue (BitVec.ofNat P.cmdW w) else .offer nbits w

end Sys2Proof.Machine
end

