-- ==== Sys2Proof/Machine/CodeTable.lean ====
section
/-! DEFINITION. The code table generator: GENCODES (`spec/42_code_table_generator.md`). -/

namespace Sys2Proof.Machine

variable {P : Params}

/-- The walk of R85: left before right, the path so far in `p`; a leaf above 256 records nothing and a
later leaf of the same symbol overwrites an earlier one (R88). -/
def walk : PrefixTree P → Bits → CodeTable → CodeTable
  | .leaf s _, p, ct => recordCode ct s.toNat p
  | .node l r _, p, ct => walk r (p ++ [true]) (walk l (p ++ [false]) ct)

/-- The pseudocode of GENCODES (R85): the table is made afresh. -/
def gencodesBody : State P → Ran P :=
  requireTree 0x3 fun t s => .ended { s with ct := walk t [] noCodes }

/-- GENCODES, opcode `0x3`. -/
def execGencodes (s : State P) : Host.Outcome (State P) Fault Refusal := accept gencodesBody s

end Sys2Proof.Machine
end

