-- ==== Sys2Proof/Machine/FrequencyCounter.lean ====
section
/-! DEFINITION. The frequency counter: COUNT (`spec/40_frequency_counter.md`). -/

namespace Sys2Proof.Machine

variable {P : Params}

/-- The loop of COUNT: one 8-bit read a turn until `EXHAUSTED` (R70). The first argument bounds the
turns; started with the number of whole bytes left, its end and `EXHAUSTED` are the same moment. -/
def countLoop : Nat → Source → WeightTable P → Source × WeightTable P
  | 0, src, wt => (src, wt)
  | k + 1, src, wt =>
    match src.readBits 8 with
    | none => (src, wt)
    | some (r, src') => countLoop k src' (bumpWeight wt r)

/-- The pseudocode of COUNT (R70): the table is made afresh, the terminator's weight is forced to 1.
A source of more than `MAX_INPUT_BYTES` whole bytes has no meaning (R71). -/
def countBody (s : State P) : Ran P :=
  if s.src.left / 8 > P.maxInputBytes then .refused .inputTooLong
  else
    let (src, wt) := countLoop (s.src.left / 8) s.src noWeights
    .ended { s with src := src, wt := wt.set 256 1 }

/-- COUNT, opcode `0x1`. -/
def execCount (s : State P) : Host.Outcome (State P) Fault Refusal := accept countBody s

end Sys2Proof.Machine
end

