-- ==== Sys2Proof/Machine/StreamDecoder.lean ====
section
/-! DEFINITION. The stream decoder: DECODE (`spec/45_stream_decoder.md`). -/

namespace Sys2Proof.Machine

variable {P : Params}

/-- `if b = 0: cur <- left(cur) else: cur <- right(cur)` (R105). At the top of every turn `cur` is an
internal node (R106); a leaf, which has no child, is left as it is. -/
def child : PrefixTree P → Nat → PrefixTree P
  | .leaf s w, _ => .leaf s w
  | .node l r _, b => if b = 0 then l else r

/-- The loop of DECODE (R105, R106): the streams where it stopped, and the raise that stopped it, or
none when it reached the terminator. Started with the number of bits left, the end of the turns and
`EXHAUSTED` are the same moment (R108, R111). -/
def decodeLoop (root : PrefixTree P) : Nat → PrefixTree P → Source → Sink → Source × Sink × Option Raise
  | 0, _, src, snk => (src, snk, some ⟨.truncatedStream, 0, 0⟩)
  | k + 1, cur, src, snk =>
    match src.readBits 1 with
    | none => (src, snk, some ⟨.truncatedStream, 0, 0⟩)
    | some (b, src') =>
      match child cur b with
      | .leaf s _ =>
        if s.toNat = Config.term then (src', snk, none)
        else decodeLoop root k root src' (snk.writeBits 8 s.toNat)
      | .node l r w => decodeLoop root k (.node l r w) src' snk

/-- The work of DECODE on a tree (R105): a root that is a leaf reads nothing (R107). -/
def decodeTree (root : PrefixTree P) (s : State P) : Ran P :=
  match root with
  | .leaf sym _ =>
    if sym.toNat = Config.term then .ended s
    else .raised s ⟨.truncatedStream, 1, sym.toNat⟩
  | .node l r w =>
    match decodeLoop (.node l r w) s.src.left (.node l r w) s.src s.snk with
    | (src, snk, some e) => .raised { s with src := src, snk := snk } e
    | (src, snk, none) => .ended { s with src := src, snk := snk }

/-- The pseudocode of DECODE (R105). -/
def decodeBody (s : State P) : Ran P :=
  (requireOpen 0xA s).andThen (requireTree 0xA decodeTree)

/-- DECODE, opcode `0xA`. -/
def execDecode (s : State P) : Host.Outcome (State P) Fault Refusal := accept decodeBody s

end Sys2Proof.Machine
end

