-- ==== Sys2Proof/Machine/StreamEncoder.lean ====
section
/-! DEFINITION. The stream encoder: REWIND and ENCODE (`spec/44_stream_encoder.md`). -/

namespace Sys2Proof.Machine

variable {P : Params}

/-- The pseudocode of REWIND (R100). -/
def rewindBody (s : State P) : Ran P := .ended { s with src := s.src.rewind }

/-- REWIND, opcode `0x6`. -/
def execRewind (s : State P) : Host.Outcome (State P) Fault Refusal := accept rewindBody s

/-- `if CT[s] = none: raise MissingCodeError(0, s)`, else the sink with the code written (R101, R102). -/
def writeCode (ct : CodeTable) (sym : Nat) (snk : Sink) : Except Raise Sink :=
  match codeOf ct sym with
  | none => .error ⟨.missingCode, 0, sym⟩
  | some p => .ok (snk.writeString p)

/-- The loop of ENCODE (R101): the streams where it stopped, and the raise that stopped it, if one did.
Started with the number of whole bytes left, the end of the turns and `EXHAUSTED` are the same
moment. -/
def encodeLoop (ct : CodeTable) : Nat → Source → Sink → Source × Sink × Option Raise
  | 0, src, snk => (src, snk, none)
  | k + 1, src, snk =>
    match src.readBits 8 with
    | none => (src, snk, none)
    | some (r, src') =>
      match writeCode ct r snk with
      | .error e => (src', snk, some e)
      | .ok snk' => encodeLoop ct k src' snk'

/-- The pseudocode of ENCODE (R101): the payload, then the terminator's code. -/
def encodeBody (s : State P) : Ran P :=
  (requireOpen 0x7 s).andThen fun s =>
    match encodeLoop s.ct (s.src.left / 8) s.src s.snk with
    | (src, snk, some e) => .raised { s with src := src, snk := snk } e
    | (src, snk, none) =>
      match writeCode s.ct Config.term snk with
      | .error e => .raised { s with src := src, snk := snk } e
      | .ok snk' => .ended { s with src := src, snk := snk' }

/-- ENCODE, opcode `0x7`. -/
def execEncode (s : State P) : Host.Outcome (State P) Fault Refusal := accept encodeBody s

end Sys2Proof.Machine
end

