-- ==== Sys2Proof/Machine/System.lean ====
section
/-! DEFINITION. The system and framing commands: NOP, CLOSE, CLEAR, WRMAGIC, RDMAGIC and the reserved
opcode (`spec/46_sequencer_and_system.md`, `spec/30_encoding.md` rule R51). -/

namespace Sys2Proof.Machine

variable {P : Params}

/-- The pseudocode of NOP is empty (R114). -/
def nopBody (s : State P) : Ran P := .ended s

/-- NOP, opcode `0x0`; with a fault latched it changes nothing at all (R114). -/
def execNop (s : State P) : Host.Outcome (State P) Fault Refusal := accept nopBody s

/-- The pseudocode of CLOSE (R117), also the last step of the composites. -/
def closeBody (s : State P) : Ran P := .ended (closeSink s)

/-- CLOSE, opcode `0xB`: acted on also while a fault is latched, and then it sets no `DONE` (R113,
R117, R125). -/
def execClose (s : State P) : Host.Outcome (State P) Fault Refusal :=
  if s.fault then .next (closeSink s) else accept closeBody s

/-- CLEAR, opcode `0xE`: acted on in every state; it leaves `DONE = 0` (R113, R118). -/
def execClear (s : State P) : Host.Outcome (State P) Fault Refusal := .next (clearBlock s)

/-- The reserved opcode raises `IllegalCommandError`, `SUB = 0`, `INFO = 0xF` (R51). -/
def reservedBody (s : State P) : Ran P := .raised s ⟨.illegalCommand, 0, 0xF⟩

/-- Opcode `0xF`, reserved (R51, R113). -/
def execReservedF (s : State P) : Host.Outcome (State P) Fault Refusal := accept reservedBody s

/-- The pseudocode of WRMAGIC (R115). -/
def wrmagicBody (s : State P) : Ran P :=
  (requireOpen 0x4 s).andThen fun s =>
    .ended { s with snk := s.snk.writeBits Config.magicW Config.magic }

/-- WRMAGIC, opcode `0x4`. -/
def execWrmagic (s : State P) : Host.Outcome (State P) Fault Refusal := accept wrmagicBody s

/-- The pseudocode of RDMAGIC (R116): exhaustion before mismatch (R136). -/
def rdmagicBody (s : State P) : Ran P :=
  match s.src.readBits Config.magicW with
  | none => .raised s ⟨.illegalHeader, 1, 0⟩
  | some (v, src) =>
    if v = Config.magic then .ended { s with src := src }
    else .raised { s with src := src } ⟨.illegalHeader, 0, v⟩

/-- RDMAGIC, opcode `0x8`. -/
def execRdmagic (s : State P) : Host.Outcome (State P) Fault Refusal := accept rdmagicBody s

end Sys2Proof.Machine
end

