-- ==== Sys2Proof/Machine/TreeBuilder.lean ====
section
/-! DEFINITION. The tree builder: BUILD (`spec/41_tree_builder.md`). The order of the priority
collection is an argument (the open parameter `TIE_BREAK`, R6, R77); `tieBreak` is this hardware's. -/

namespace Sys2Proof.Machine

variable {P : Params}

/-- The weight of a node of either kind (R8). -/
def weightOf : PrefixTree P → Weight P
  | .leaf _ w => w
  | .node _ _ w => w

/-- An element of the priority collection `PQ`: a tree and its insertion stamp (R75, R77). -/
structure PqEntry (P : Params := hardware) where
  tree : PrefixTree P
  seq : Nat
  deriving DecidableEq, Repr

/-- The order of this hardware (R77): lowest weight first, and among equal weights the one inserted
first. -/
def tieBreak (a b : PqEntry P) : Bool :=
  decide ((weightOf a.tree).toNat < (weightOf b.tree).toNat) ||
    (decide ((weightOf a.tree).toNat = (weightOf b.tree).toNat) && decide (a.seq < b.seq))

/-- The leaves of the symbols of positive weight, in ascending order of symbol, stamped in that order
(R76). The list is the part of `WT` from symbol `sym` on. -/
def leavesFrom (sym seq : Nat) : List (Weight P) → List (PqEntry P)
  | [] => []
  | w :: ws =>
    if w = 0 then leavesFrom (sym + 1) seq ws
    else ⟨.leaf (BitVec.ofNat 9 sym) w, seq⟩ :: leavesFrom (sym + 1) (seq + 1) ws

/-- The least element of `e :: es` and the others. -/
def extractMin (before : PqEntry P → PqEntry P → Bool) (e : PqEntry P) :
    List (PqEntry P) → PqEntry P × List (PqEntry P)
  | [] => (e, [])
  | x :: xs =>
    let (m, others) := extractMin before x xs
    if before m e then (m, e :: others) else (e, m :: others)

/-- `removeMin(PQ)` (R77); `none` when `PQ` is empty. -/
def removeMin (before : PqEntry P → PqEntry P → Bool) :
    List (PqEntry P) → Option (PqEntry P × List (PqEntry P))
  | [] => none
  | e :: es => some (extractMin before e es)

/-- The sum of two weights: exact (R82); the free value where it does not fit (assumption log 3). -/
def addWeights (seq : Nat) (a b : Weight P) : Weight P :=
  if a.toNat + b.toNat < 2 ^ P.weightW then a + b else Config.overflowSum a b seq

/-- The node made of the first and the second element removed (R78). -/
def mergeEntries (a b : PqEntry P) (seq : Nat) : PqEntry P :=
  ⟨.node a.tree b.tree (addWeights seq (weightOf a.tree) (weightOf b.tree)), seq⟩

/-- The loop `while |PQ| > 1` (R75, R78), at most as many turns as the first argument. -/
def mergeLoop (before : PqEntry P → PqEntry P → Bool) : Nat → List (PqEntry P) → Nat → List (PqEntry P)
  | 0, pq, _ => pq
  | n + 1, pq, seq =>
    match removeMin before pq with
    | none => pq
    | some (a, pq1) =>
      match removeMin before pq1 with
      | none => pq
      | some (b, pq2) => mergeLoop before n (pq2 ++ [mergeEntries a b seq]) (seq + 1)

/-- The tree of a weight table, `none` when no symbol has a positive weight (R75, R80). -/
def buildTree (before : PqEntry P → PqEntry P → Bool) (wt : WeightTable P) : Option (PrefixTree P) :=
  let leaves := leavesFrom 0 0 wt.toList
  ((mergeLoop before leaves.length leaves leaves.length).head?).map PqEntry.tree

/-- The pseudocode of BUILD (R75): the old tree and the old codes go first (decision D19). -/
def buildBody (before : PqEntry P → PqEntry P → Bool) (s : State P) : Ran P :=
  let s := { s with tree := none, ct := noCodes }
  match buildTree before s.wt with
  | none => .raised s ⟨.emptyAlphabet, 0, 0⟩
  | some t => .ended { s with tree := some t }

/-- BUILD, opcode `0x2`. -/
def execBuild (s : State P) : Host.Outcome (State P) Fault Refusal := accept (buildBody tieBreak) s

end Sys2Proof.Machine
end

