-- ==== Sys2Proof/Machine/TreeHeader.lean ====
section
/-! DEFINITION. The tree header codec: WRTREE and RDTREE (`spec/43_tree_header_codec.md`). -/

namespace Sys2Proof.Machine

variable {P : Params}

/-- The serialization of a tree: its node records in preorder (R57, R90). -/
def ser : PrefixTree P → Bits
  | .leaf s _ => encode (.streamNodeLeaf s) P
  | .node l r _ => encode .streamNodeInternal P ++ ser l ++ ser r

/-- The pseudocode of WRTREE (R90). -/
def wrtreeBody (s : State P) : Ran P :=
  (requireOpen 0x5 s).andThen <|
    requireTree 0x5 fun t s => .ended { s with snk := s.snk.writeString (ser t) }

/-- WRTREE, opcode `0x5`. -/
def execWrtree (s : State P) : Host.Outcome (State P) Fault Refusal := accept wrtreeBody s

/-- `des()` of R91 with capacity `cap`. The first number bounds the depth of the recursion and the
second is `count`. Started at depth `cap` and count 0, every level has begun a record, so a bound of 0
is met only when `count = cap`, where R93 raises. An error carries the source as the raise left it. -/
def des (cap : Nat) : Nat → Nat → Source → Except (Raise × Source) (PrefixTree P × Nat × Source)
  | 0, _, src => .error (⟨.treeOverflow, 0, cap⟩, src)
  | depth + 1, count, src =>
    if count = cap then .error (⟨.treeOverflow, 0, cap⟩, src)
    else
      match src.readBits 1 with
      | none => .error (⟨.truncatedHeader, 0, count⟩, src)
      | some (tag, src1) =>
        if tag = 0 then
          match des cap depth (count + 1) src1 with
          | .error e => .error e
          | .ok (l, count2, src2) =>
            match des cap depth count2 src2 with
            | .error e => .error e
            | .ok (r, count3, src3) => .ok (.node l r 0, count3, src3)
        else
          match src1.readBits 9 with
          | none => .error (⟨.truncatedHeader, 1, count⟩, src1)
          | some (v, src2) => .ok (.leaf (BitVec.ofNat 9 v) 0, count + 1, src2)

/-- The pseudocode of RDTREE (R91): the old tree and the old codes go first (decision D19), so a
half-read tree is never left behind. -/
def rdtreeBody (s : State P) : Ran P :=
  let s := { s with tree := none, ct := noCodes }
  match des (P := P) P.nodeCap P.nodeCap 0 s.src with
  | .error (r, src) => .raised { s with src := src } r
  | .ok (t, _, src) => .ended { s with src := src, tree := some t }

/-- RDTREE, opcode `0x9`. -/
def execRdtree (s : State P) : Host.Outcome (State P) Fault Refusal := accept rdtreeBody s

end Sys2Proof.Machine
end

