-- ==== Sys2Proof/Machine/Composite.lean ====
section
/-! DEFINITION. The composite commands: COMPRESS and DECOMPRESS (`spec/46_sequencer_and_system.md` rules
R119 to R121), each the pseudocode of its steps in order, run without a new acceptance. -/

namespace Sys2Proof.Machine

variable {P : Params}

/-- The pseudocode of COMPRESS (R119, R121), for any order of the priority collection. -/
def compressBody (before : PqEntry P → PqEntry P → Bool) (s : State P) : Ran P :=
  ((((((((requireOpen 0xC s).andThen countBody).andThen (buildBody before)).andThen
    gencodesBody).andThen wrmagicBody).andThen wrtreeBody).andThen rewindBody).andThen
    encodeBody |>.andThen closeBody).closeOnRaise

/-- COMPRESS, opcode `0xC`. -/
def execCompress (s : State P) : Host.Outcome (State P) Fault Refusal :=
  accept (compressBody tieBreak) s

/-- The pseudocode of DECOMPRESS (R120, R121). -/
def decompressBody (s : State P) : Ran P :=
  ((((requireOpen 0xD s).andThen rdmagicBody).andThen rdtreeBody).andThen
    decodeBody |>.andThen closeBody).closeOnRaise

/-- DECOMPRESS, opcode `0xD`. -/
def execDecompress (s : State P) : Host.Outcome (State P) Fault Refusal := accept decompressBody s

end Sys2Proof.Machine
end

