-- ==== Sys2Proof/Machine/StreamRecord.lean ====
section
/-! DEFINITION. The five stream records of the opcode table, taken as instructions. Each row of the
table calls itself a "stream record" or an "uncompressed symbol", and `STREAM.MAGIC` adds "not a
command": a record is data that a command reads from the source or writes to the sink (R54 to R60), "no
command has an operand" (R50), and the 4-bit command port cannot carry one. So none has an effect of its
own: each is refused, by name (assumption log 8). What the records MEAN is in the decoder, in the encoder
and in the commands that read and write them. -/

namespace Sys2Proof.Machine

variable {P : Params}

/-- `STREAM.MAGIC` (R56): written by WRMAGIC, checked by RDMAGIC. -/
def execStreamMagic (_ : State P) : Host.Outcome (State P) Fault Refusal :=
  .refused .streamRecordIsNoCommand

/-- `STREAM.NODE_INTERNAL` (R57): written by WRTREE, read by RDTREE. -/
def execStreamNodeInternal (_ : State P) : Host.Outcome (State P) Fault Refusal :=
  .refused .streamRecordIsNoCommand

/-- `STREAM.NODE_LEAF` (R57, R58): written by WRTREE, read by RDTREE. -/
def execStreamNodeLeaf (_ : Sym) (_ : State P) : Host.Outcome (State P) Fault Refusal :=
  .refused .streamRecordIsNoCommand

/-- `STREAM.CODEWORD` (R59): written by ENCODE, walked by DECODE. -/
def execStreamCodeword (_ : Bits) (_ : State P) : Host.Outcome (State P) Fault Refusal :=
  .refused .streamRecordIsNoCommand

/-- `STREAM.BYTE` (R60): read by COUNT and ENCODE, written by DECODE. -/
def execStreamByte (_ : Byte) (_ : State P) : Host.Outcome (State P) Fault Refusal :=
  .refused .streamRecordIsNoCommand

end Sys2Proof.Machine
end

