-- ==== Sys2Proof/Machine/Dispatch.lean ====
section
/-! DEFINITION. The dispatch: one arm per row of the opcode table. -/

namespace Sys2Proof.Machine

def exec (i : Instr) (s : State) : Host.Outcome State Fault Refusal :=
  match i with
  | .nop => Sys2Proof.Machine.execNop s
  | .count => Sys2Proof.Machine.execCount s
  | .build => Sys2Proof.Machine.execBuild s
  | .gencodes => Sys2Proof.Machine.execGencodes s
  | .wrmagic => Sys2Proof.Machine.execWrmagic s
  | .wrtree => Sys2Proof.Machine.execWrtree s
  | .rewind => Sys2Proof.Machine.execRewind s
  | .encode => Sys2Proof.Machine.execEncode s
  | .rdmagic => Sys2Proof.Machine.execRdmagic s
  | .rdtree => Sys2Proof.Machine.execRdtree s
  | .decode => Sys2Proof.Machine.execDecode s
  | .close => Sys2Proof.Machine.execClose s
  | .compress => Sys2Proof.Machine.execCompress s
  | .decompress => Sys2Proof.Machine.execDecompress s
  | .clear => Sys2Proof.Machine.execClear s
  | .reservedF => Sys2Proof.Machine.execReservedF s
  | .streamMagic => Sys2Proof.Machine.execStreamMagic s
  | .streamNodeInternal => Sys2Proof.Machine.execStreamNodeInternal s
  | .streamNodeLeaf x => Sys2Proof.Machine.execStreamNodeLeaf x s
  | .streamCodeword p => Sys2Proof.Machine.execStreamCodeword p s
  | .streamByte b => Sys2Proof.Machine.execStreamByte b s

end Sys2Proof.Machine
end

