-- ==== Sys2Proof/Machine/Step.lean ====
section
/-! DEFINITION. One step of the machine: the host's next pending step (`spec/10_state.md` rule R26). A
command is one step, start to end. There is no program counter and no fetch from memory (R20): the next
instruction is whatever the host issues next. -/

namespace Sys2Proof.Machine

/-- One step. While `BUSY = 1` no step has a meaning (R26, R152); with no host step pending the block is
idle and keeps its state (R146, R150). -/
def step (s : State) : Host.Outcome State Fault Refusal :=
  if s.busy then .refused .commandRunning
  else
    match s.host with
    | [] => .next s
    | .issue op :: rest => exec (decodeCommand op) { s with host := rest }
    | .offer nbits w :: rest =>
      match decodeWord nbits w with
      | .ok i => exec i { s with host := rest }
      | .error _ => .fault .noSuchWord
    | .inspect space index :: rest => .next (hostInspect space index { s with host := rest })
    | .readOut :: rest => .next (hostReadOut { s with host := rest })
    | .attachSource b :: rest => .next (attachSource b { s with host := rest })
    | .attachSink :: rest => .next (attachSink { s with host := rest })
    | .reset :: rest => .next (clearBlock { s with host := rest })

/-- The state whose next step runs the table word `w` of `nbits` bits: the host issues it next
(assumption log 6). -/
def State.withFetchWord (s : State) (nbits w : Nat) : State :=
  { s with host := hostWord nbits w :: s.host }

end Sys2Proof.Machine
end

