-- ==== Sys2Proof/Safety.lean ====
section
/-! DEFINITION. The terms claims use: what the spec says of a tree, a code table, a compressed file and a
legal state, each written from the rule it cites and not from the loops of the machine. -/

namespace Sys2Proof

variable {P : Params}

/-! ### Byte sequences and bit strings -/

/-- The whole 8-bit units of a bit string in order; 1 to 7 bits at the end make none (R38, R60). -/
def bytesOf : Bits → List Byte
  | b7 :: b6 :: b5 :: b4 :: b3 :: b2 :: b1 :: b0 :: rest =>
    BitVec.ofNat 8 (natOf [b7, b6, b5, b4, b3, b2, b1, b0]) :: bytesOf rest
  | _ => []

/-- `bits(S)`: each byte as 8 bits, most significant first (R122). -/
def bitsOfBytes (S : List Byte) : Bits := S.flatMap fun b => bitsOf 8 b.toNat

/-- The weight of symbol `s` in the table of the byte sequence `S` (R72). -/
def countIn (S : List Byte) (s : Nat) : Nat :=
  if s = Config.term then 1 else (S.map BitVec.toNat).count s

/-! ### Trees -/

/-- `nodes(t)` (R14). -/
def PrefixTree.nodes : PrefixTree P → Nat
  | .leaf _ _ => 1
  | .node l r _ => l.nodes + r.nodes + 1

/-- The symbols of the leaves, left before right. -/
def PrefixTree.syms : PrefixTree P → List Sym
  | .leaf s _ => [s]
  | .node l r _ => l.syms ++ r.syms

/-- The leaves as (symbol, weight), left before right. -/
def PrefixTree.leaves : PrefixTree P → List (Sym × Weight P)
  | .leaf s w => [(s, w)]
  | .node l r _ => l.leaves ++ r.leaves

/-- `strip(t)`: every weight set to 0 (R94). -/
def PrefixTree.strip : PrefixTree P → PrefixTree P
  | .leaf s _ => .leaf s 0
  | .node l r _ => .node l.strip r.strip 0

/-- Every internal node's weight is the exact sum of its children's weights (R13, R81). -/
def PrefixTree.WeightsAdd : PrefixTree P → Prop
  | .leaf _ _ => True
  | .node l r w =>
    w.toNat = (Machine.weightOf l).toNat + (Machine.weightOf r).toNat ∧ l.WeightsAdd ∧ r.WeightsAdd

/-- The symbol of the leaf that the path `p` leads to, `0` for left and `1` for right (R59). -/
def PrefixTree.leafAt : PrefixTree P → Bits → Option Sym
  | .leaf s _, [] => some s
  | .leaf _ _, _ :: _ => none
  | .node _ _ _, [] => none
  | .node l _ _, false :: p => l.leafAt p
  | .node _ r _, true :: p => r.leafAt p

/-- The leaves in preorder with their root-to-leaf paths (R85). -/
def PrefixTree.paths : PrefixTree P → List (Sym × Bits)
  | .leaf s _ => [(s, [])]
  | .node l r _ =>
    (l.paths.map fun e => (e.1, false :: e.2)) ++ (r.paths.map fun e => (e.1, true :: e.2))

/-- The code of symbol `s`: the path to the last leaf of `s` in preorder (R85, R88). -/
def PrefixTree.codeFor (t : PrefixTree P) (s : Nat) : Option Bits :=
  ((t.paths.filter fun e => e.1.toNat == s).getLast?).map Prod.snd

/-- The node records of a tree's header, in preorder (R57). -/
def PrefixTree.records : PrefixTree P → List Bits
  | .leaf s _ => [encode (.streamNodeLeaf s) P]
  | .node l r _ => encode .streamNodeInternal P :: (l.records ++ r.records)

/-! ### Records -/

/-- At which place of a stream, or on the command port, an instruction stands (R50, R54). -/
def Instr.StandsAt : Instr → Place P → Prop
  | .streamMagic, place => place = .magic
  | .streamNodeInternal, place | .streamNodeLeaf _, place => place = .node
  | .streamCodeword p, place => ∃ t : PrefixTree P, place = .code t ∧ (t.leafAt p).isSome = true
  | .streamByte _, place => place = .symbol
  | .nop, place | .count, place | .build, place | .gencodes, place | .wrmagic, place
  | .wrtree, place | .rewind, place | .encode, place | .rdmagic, place | .rdtree, place
  | .decode, place | .close, place | .compress, place | .decompress, place | .clear, place
  | .reservedF, place => place = .command

/-! ### Payloads and files -/

/-- The code words of a byte sequence back to back, `none` when some byte has no code (R55, R101). -/
def codeWords (ct : Machine.CodeTable) : List Byte → Option Bits
  | [] => some []
  | b :: S =>
    match Machine.codeOf ct b.toNat, codeWords ct S with
    | some p, some q => some (p ++ q)
    | _, _ => none

/-- The bits `x` are the paths of the leaves `L` back to back, none of them the terminator's, and then
`q`, a proper start of some leaf's path: a payload that ends before the terminator's code (R106, R108). -/
def PrefixTree.CutPayload (t : PrefixTree P) (L : List (Sym × Bits)) (q x : Bits) : Prop :=
  (∀ e ∈ L, t.leafAt e.2 = some e.1 ∧ e.1 ≠ 256#9) ∧ x = (L.map Prod.snd).flatten ++ q ∧
  ∃ (y : Bits) (a : Sym), y ≠ [] ∧ t.leafAt (q ++ y) = some a

/-- The 8-bit units DECODE writes for the leaves `L`: the low 8 bits of each symbol (R106, R109). -/
def unitsOf (L : List (Sym × Bits)) : Bits := L.flatMap fun e => bitsOf 8 e.1.toNat

/-- The weight table of a byte sequence (R72). -/
def weightsOf (S : List Byte) (P : Params := hardware) : Machine.WeightTable P :=
  Vector.ofFn fun i => BitVec.ofNat P.weightW (countIn S i)

/-- The code table of a tree. -/
def codesOf (t : PrefixTree P) : Machine.CodeTable := Vector.ofFn fun i => t.codeFor i

/-- The tree of a byte sequence, for an order of the priority collection. -/
def treeOf (before : Machine.PqEntry P → Machine.PqEntry P → Bool) (S : List Byte) :
    Option (PrefixTree P) :=
  Machine.buildTree before (weightsOf S P)

/-- `file(S)` (R55): the magic word, the tree header, the code words of `S`, the terminator's code. -/
def fileOf (before : Machine.PqEntry P → Machine.PqEntry P → Bool) (S : List Byte) : Option Bits :=
  match treeOf before S with
  | none => none
  | some t =>
    match codeWords (codesOf t) S, Machine.codeOf (codesOf t) Config.term with
    | some body, some last =>
      some (bitsOf Config.magicW Config.magic ++ Machine.ser t ++ body ++ last)
    | _, _ => none

/-! ### Legal builds -/

/-- What the spec asks of the parameters of a build: every count and every sum of weights of an admitted
input fits a weight (R6, R71), the tree store holds every tree the builder makes (decision D5), and
`INFO` can show `NODE_CAP` (R17, R130). -/
structure Params.Legal (P : Params) : Prop where
  input : P.maxInputBytes + 2 ≤ 2 ^ P.weightW
  cap : 2 * Config.maxLeaves - 1 ≤ P.nodeCap
  info : P.nodeCap < 2 ^ 32

/-! ### Legal states -/

namespace Machine

/-- A legal order of the priority collection (`TIE_BREAK`, R77): a strict total order on elements with
distinct stamps that refines the order by weight. -/
structure LegalTieBreak (before : PqEntry P → PqEntry P → Bool) : Prop where
  irrefl : ∀ a, before a a = false
  trans : ∀ a b c, before a b = true → before b c = true → before a c = true
  total : ∀ a b, a.seq ≠ b.seq → before a b = true ∨ before b a = true
  refines : ∀ a b, (weightOf a.tree).toNat < (weightOf b.tree).toNat → before a b = true

/-- The priority collection BUILD starts with: the leaves of the symbols of positive weight in ascending
order of symbol, stamped 0, 1, 2, … (R75, R76). -/
def startCollection (wt : WeightTable P) : List (PqEntry P) :=
  ((wt.toList.zipIdx.filter fun e => e.1 ≠ 0).zipIdx).map fun e =>
    ⟨.leaf (BitVec.ofNat 9 e.1.2) e.1.1, e.2⟩

/-- `Merges before pq seq t`: merging the least two elements of `pq` again and again, first-removed left,
the new nodes stamped from `seq` on, ends with the tree `t` (R75, R77, R78). -/
inductive Merges (before : PqEntry P → PqEntry P → Bool) :
    List (PqEntry P) → Nat → PrefixTree P → Prop
  | done (e : PqEntry P) (seq : Nat) : Merges before [e] seq e.tree
  | step {pq others : List (PqEntry P)} {a b : PqEntry P} {seq : Nat} {t : PrefixTree P} :
    pq.Perm (a :: b :: others) → (∀ x ∈ b :: others, before a x = true) →
    (∀ x ∈ others, before b x = true) →
    Merges before (others ++ [⟨.node a.tree b.tree
      (addWeights seq (weightOf a.tree) (weightOf b.tree)), seq⟩]) (seq + 1) t →
    Merges before pq seq t

/-- The rows of R130: which `CODE`, `SUB` and `INFO` a latched fault shows. -/
def LegalFault (code sub info : Nat) (nodeCap : Nat := hardware.nodeCap) : Prop :=
  (code = 1 ∧ sub = 0 ∧ info ≠ Config.magic) ∨ (code = 1 ∧ sub = 1 ∧ info = 0) ∨
  (code = 2 ∧ sub ≤ 1 ∧ info < nodeCap) ∨
  (code = 3 ∧ sub = 0 ∧ info = 0) ∨ (code = 3 ∧ sub = 1 ∧ info < 512 ∧ info ≠ Config.term) ∨
  (code = 4 ∧ sub = 0 ∧ info = 0) ∨ (code = 5 ∧ sub = 0 ∧ info ≤ Config.term) ∨
  (code = 6 ∧ sub = 0 ∧ info = nodeCap) ∨
  (code = 7 ∧ sub = 0 ∧ info = 0xF) ∨
  (code = 7 ∧ sub = 1 ∧ info ∈ [0x4, 0x5, 0x7, 0xA, 0xC, 0xD]) ∨
  (code = 7 ∧ sub = 2 ∧ info ∈ [0x3, 0x5, 0xA])

/-- `CAUSE.CODE` (R16). -/
def causeCode (s : State P) : Nat := s.cause.toNat % 16

/-- `CAUSE.SUB` (R16). -/
def causeSub (s : State P) : Nat := s.cause.toNat / 16

/-- The control registers of an idle block: not busy; `DONE` and `FAULT` not both set; `CAUSE` and
`INFO` zero without a fault and a row of R130 with one (R15 to R17, R134, R135). -/
def ControlLegal (s : State P) : Prop :=
  s.busy = false ∧ (s.done = true → s.fault = false) ∧
  (s.fault = false → s.cause = 0 ∧ s.info = 0) ∧
  (s.fault = true → LegalFault (causeCode s) (causeSub s) s.info.toNat P.nodeCap)

/-- The tree fits the block, and every code is a path of that tree to a leaf of its symbol (R14, R28:
"a code table never outlives the tree it came from"). -/
def TablesLegal (s : State P) : Prop :=
  (∀ t, s.tree = some t → t.nodes ≤ P.nodeCap) ∧
  (∀ sym p, codeOf s.ct sym = some p →
    p.length ≤ P.codeMaxLen ∧ ∃ t, s.tree = some t ∧ t.leafAt p = some (BitVec.ofNat 9 sym))

/-- The weights are all 0, or the terminator's is 1; and their exact sum fits (R11, R71). -/
def WeightsLegal (s : State P) : Prop :=
  (s.wt = noWeights ∨ s.wt[256] = 1) ∧ (s.wt.toList.map BitVec.toNat).sum < 2 ^ P.weightW

/-- The cursor stands inside the source or at its end (R22). -/
def SourceLegal (s : State P) : Prop := s.src.pos ≤ s.src.bits.length

/-- The (`CODE`, `SUB`) pairs a command can raise (R131); a stream record raises nothing. -/
def mayRaise : Instr → List (Nat × Nat)
  | .nop | .count | .rewind | .close | .clear => []
  | .build => [(4, 0)]
  | .gencodes => [(7, 2)]
  | .wrmagic => [(7, 1)]
  | .wrtree => [(7, 1), (7, 2)]
  | .encode => [(7, 1), (5, 0)]
  | .rdmagic => [(1, 0), (1, 1)]
  | .rdtree => [(2, 0), (2, 1), (6, 0)]
  | .decode => [(7, 1), (7, 2), (3, 0), (3, 1)]
  | .compress => [(7, 1)]
  | .decompress => [(7, 1), (1, 0), (1, 1), (2, 0), (2, 1), (6, 0), (3, 0), (3, 1)]
  | .reservedF => [(7, 0)]
  | .streamMagic | .streamNodeInternal | .streamNodeLeaf _ | .streamCodeword _ | .streamByte _ => []

/-- A sequence of commands issued one after another (R53). -/
def runAll : List Instr → State → Host.Outcome State Fault Refusal
  | [], s => .next s
  | i :: rest, s =>
    match exec i s with
    | .next t => runAll rest t
    | .fault f => .fault f
    | .refused why => .refused why

/-- The primitive steps of COMPRESS (R53, R119). -/
def compressSteps : List Instr :=
  [.count, .build, .gencodes, .wrmagic, .wrtree, .rewind, .encode, .close]

/-- The primitive steps of DECOMPRESS (R53, R120). -/
def decompressSteps : List Instr := [.rdmagic, .rdtree, .decode, .close]

/-- A compression or decompression has ended well (R164). -/
def EndedWell (s : State P) : Prop := s.done = true ∧ s.fault = false ∧ s.snk.closed = true

end Machine
end Sys2Proof
end

