-- ==== Sys2Proof/Certificates/Slice0/Obligations.lean ====
section
/-! DEFINITION. The statements for the provers. Each docstring names the rule of the spec it formalises,
or says that it rests on a choice of the model and names the log entry. -/

open Sys2Proof
open Sys2Proof.Machine

/-! ### Encoding -/

/-- The sixteen command words of R50 and R51 and words of the stream records (R56 to R60), written out
from the spec's tables, decode to the instructions they stand for. -/
def Obligations.WrittenOutWordsDecode : Prop :=
  decodeCommand 0x0#4 = .nop ∧ decodeCommand 0x1#4 = .count ∧ decodeCommand 0x2#4 = .build ∧
  decodeCommand 0x3#4 = .gencodes ∧ decodeCommand 0x4#4 = .wrmagic ∧
  decodeCommand 0x5#4 = .wrtree ∧ decodeCommand 0x6#4 = .rewind ∧ decodeCommand 0x7#4 = .encode ∧
  decodeCommand 0x8#4 = .rdmagic ∧ decodeCommand 0x9#4 = .rdtree ∧ decodeCommand 0xA#4 = .decode ∧
  decodeCommand 0xB#4 = .close ∧ decodeCommand 0xC#4 = .compress ∧
  decodeCommand 0xD#4 = .decompress ∧ decodeCommand 0xE#4 = .clear ∧
  decodeCommand 0xF#4 = .reservedF ∧
  decodeTableWord 32 0b11111010110011101000001000000001 = some .streamMagic ∧
  decodeTableWord 16 0b1001000001 = some (.streamNodeLeaf 0x41#9) ∧
  decodeTableWord 16 0b1100000000 = some (.streamNodeLeaf 256#9) ∧
  decodeIn (P := hardware) .node [false, true] = .ok (.streamNodeInternal, [true]) ∧
  decodeIn (P := hardware) .symbol [false, true, false, false, false, false, false, true] =
    .ok (.streamByte 0x41#8, []) ∧
  decodeIn (P := hardware) (.code (.node (.leaf 0x41 1) (.leaf 256 1) 2)) [true, false] =
    .ok (.streamCodeword [true], [false])

/-- Decode and encode agree: at the place where an instruction stands, the decoder reads it from its
encoding with every field, and leaves whatever follows (R50, R54, R56 to R60, R63). Every well-formed
instruction stands somewhere: a code word of up to 256 bits in the payload of a tree that fits the
block. -/
def Obligations.DecodeUndoesEncode : Prop :=
  (∀ (i : Instr) (place : Place) (x : Bits),
    i.StandsAt place → decodeIn place (encode i ++ x) = .ok (i, x)) ∧
  ∀ i : Instr, wellFormed i = true →
    ∃ place : Place, i.StandsAt place ∧ ∀ t, place = .code t → t.nodes ≤ 513

/-- The other direction: whatever the decoder accepts is the encoding of what it answers, followed by
what it leaves. -/
def Obligations.EncodeUndoesDecode : Prop :=
  ∀ (place : Place) (bs x : Bits) (i : Instr),
    decodeIn place bs = .ok (i, x) → bs = encode i ++ x

/-! ### Streams -/

/-- R31: `IN.readBits(n)` returns the sum of the next `n` bits, first bit most significant, and moves
the cursor past them, or is exhausted and moves nothing. -/
def Obligations.ReadBitsReturnsTheNextField : Prop :=
  ∀ (src : Source) (n : Nat), 1 ≤ n →
    (src.bits.length - src.pos < n → src.readBits n = none) ∧
    (n ≤ src.bits.length - src.pos → ∃ v, src.readBits n = some (v, { src with pos := src.pos + n }) ∧
      v = ∑ i ∈ Finset.range n, (src.bits.getD (src.pos + i) false).toNat * 2 ^ (n - 1 - i) ∧
      v < 2 ^ n)

/-- R33: `OUT.writeBits(n, v)` appends the low `n` bits of `v`, most significant first, and nothing else
changes. -/
def Obligations.WriteBitsAppendsTheLowBits : Prop :=
  ∀ (snk : Sink) (n v : Nat), 1 ≤ n →
    ∃ w : Bits, snk.writeBits n v = { snk with bits := snk.bits ++ w } ∧ w.length = n ∧
      ∀ i, i < n → w[i]? = some (v.testBit (n - 1 - i))

/-- R37: two reads see the same bits as one read of both widths, joined most significant first. -/
def Obligations.SplitReadsJoin : Prop :=
  ∀ (src src' : Source) (m n v : Nat), src.readBits (m + n) = some (v, src') →
    ∃ a b mid, src.readBits m = some (a, mid) ∧ mid.readBits n = some (b, src') ∧ v = a * 2 ^ n + b

/-! ### Reset, the host's steps, acceptance -/

/-- The state right after reset (R25): the block's values are the spec's; the empty source, the open
empty sink, no pending step and no reply are the model's choice (assumption log 1 and 6). -/
def Obligations.ResetStateValues : Prop :=
  (∀ i, ∀ h : i < 257, State.reset.wt[i] = 0 ∧ State.reset.ct[i] = none) ∧
  State.reset.tree = none ∧ State.reset.busy = false ∧ State.reset.done = false ∧
  State.reset.fault = false ∧ State.reset.cause = 0 ∧ State.reset.info = 0 ∧
  statusByte State.reset = 0x00 ∧
  State.reset.src = { bits := [], pos := 0 } ∧ State.reset.snk = { bits := [], closed := false } ∧
  State.reset.host = [] ∧ State.reset.reply = none

/-- R118: CLEAR is accepted in every state, puts the block at its reset values and touches neither
stream; it is the only command that clears a latched fault. -/
def Obligations.ClearResetsTheBlock : Prop :=
  (∀ s : State, exec .clear s = .next { s with
      wt := Vector.replicate 257 0, ct := Vector.replicate 257 none, tree := none
      busy := false, done := false, fault := false, cause := 0, info := 0 }) ∧
  ∀ (i : Instr) (s t : State), i ≠ .clear → s.fault = true → exec i s = .next t → t.fault = true

/-- R26, R150, R151: what each host step but issuing a command does, while the block is not busy. The
order of the pending steps and the reply register are the model's own (assumption log 6). -/
def Obligations.HostStepsDoWhatTheyName : Prop :=
  ∀ (s : State) (rest : List HostStep), s.busy = false →
    (∀ b, s.host = .attachSource b :: rest →
      step s = .next { s with host := rest, src := { bits := b, pos := 0 } }) ∧
    (s.host = .attachSink :: rest →
      step s = .next { s with host := rest, snk := { bits := [], closed := false } }) ∧
    (s.host = .readOut :: rest →
      step s = .next { s with host := rest, reply := some (.outBits s.snk.bits) }) ∧
    (∀ sp ix, s.host = .inspect sp ix :: rest →
      step s = .next { s with host := rest, reply := some (inspect sp ix s) }) ∧
    (s.host = .reset :: rest →
      step s = .next { s with
        host := rest, wt := noWeights, ct := noCodes, tree := none
        busy := false, done := false, fault := false, cause := 0, info := 0 })

/-- An idle block keeps all its state (R146); while `BUSY = 1` no host step has a meaning, a reset among
them (R26, R152, U11), which the model says by a refusal. -/
def Obligations.IdleKeepsStateAndBusyIsRefused : Prop :=
  (∀ s : State, s.busy = false → s.host = [] → step s = .next s) ∧
  ∀ s : State, s.busy = true → step s = .refused .commandRunning

/-- A step runs the decoded command: when the host's next step issues a command word, `step` is `exec`
of the instruction the word decodes to, with that host step taken off the list. A word held out that is
no command word runs what it decodes to, or stops by name; and a table word put in front of the host's
steps is what the next step runs, on the state as it was (assumption log 6). -/
def Obligations.StepRunsTheDecodedCommand : Prop :=
  ∀ (s : State) (rest : List HostStep), s.busy = false →
    (∀ op, s.host = .issue op :: rest →
      step s = exec (decodeCommand op) { s with host := rest }) ∧
    (∀ nbits w i, s.host = .offer nbits w :: rest → decodeWord nbits w = .ok i →
      step s = exec i { s with host := rest }) ∧
    (∀ nbits w e, s.host = .offer nbits w :: rest → decodeWord nbits w = .error e →
      step s = .fault .noSuchWord) ∧
    ∀ nbits w i, decodeTableWord nbits w = some i → step (s.withFetchWord nbits w) = exec i s

/-- R15, R139: the fields of `STATUS`, bits 7:5 reading 0, and the two level outputs. -/
def Obligations.StatusShowsTheFlags : Prop :=
  ∀ s : State,
    (statusByte s)[0] = s.busy ∧ (statusByte s)[1] = s.done ∧ (statusByte s)[2] = s.fault ∧
    (statusByte s)[3] = s.tree.isSome ∧ (statusByte s)[4] = s.snk.closed ∧
    (statusByte s)[5] = false ∧ (statusByte s)[6] = false ∧ (statusByte s)[7] = false ∧
    doneLine s = (statusByte s)[1] ∧ faultLine s = (statusByte s)[2]

/-- R18, with the layout of a code table entry of R12: what each (space, index) of the inspection port
shows; anything else reads as 0. -/
def Obligations.InspectionPortShowsTheTables : Prop :=
  ∀ s : State,
    inspect 0 0 s = .register8 (statusByte s) ∧ inspect 0 1 s = .register8 s.cause ∧
    inspect 0 2 s = .register32 s.info ∧
    (∀ i, ∀ h : i < 257, inspect 1 i s = .weight s.wt[i]) ∧
    (∀ i, ∀ h : i < 257, s.ct[i] = none → inspect 2 i s = .code 0 0 0) ∧
    (∀ i p, ∀ h : i < 257, s.ct[i] = some p → p.length ≤ 256 →
      ∃ len bits, inspect 2 i s = .code 1 len bits ∧ len.toNat = p.length ∧
        (∀ k, ∀ hk : k < p.length, bits.getLsbD (255 - k) = p[k]) ∧
        ∀ k, k < 256 - p.length → bits.getLsbD k = false) ∧
    ∀ space index, (space = 0 ∧ 3 ≤ index) ∨ (space = 1 ∧ 257 ≤ index) ∨
      (space = 2 ∧ 257 ≤ index) ∨ 3 ≤ space → inspect space index s = .undefinedItem 0

/-! ### System commands -/

/-- R114: NOP does nothing but set `DONE`, and with a fault latched nothing at all. -/
def Obligations.NopOnlySetsDone : Prop :=
  ∀ s : State,
    (s.fault = false → exec .nop s = .next { s with busy := false, done := true }) ∧
    (s.fault = true → exec .nop s = .next s)

/-- R117: CLOSE closes the sink, also while a fault is latched; it sets `DONE` only without one. -/
def Obligations.CloseClosesTheSink : Prop :=
  ∀ s : State,
    (s.fault = false → exec .close s = .next { s with
      busy := false, done := true, snk := { s.snk with closed := true } }) ∧
    (s.fault = true → exec .close s = .next { s with snk := { s.snk with closed := true } })

/-- R51: the reserved opcode raises `IllegalCommandError` with `SUB = 0` and `INFO = 0xF` and changes
nothing else; with a fault latched it is ignored; no other opcode is reserved. -/
def Obligations.ReservedOpcodeRaises : Prop :=
  (∀ s : State,
    (s.fault = false → exec .reservedF s = .next { s with
      busy := false, done := false, fault := true, cause := 0x07, info := 0xF }) ∧
    (s.fault = true → exec .reservedF s = .next s)) ∧
  ∀ op : Opcode, decodeCommand op = .reservedF ↔ op = 0xF#4

/-- R100: REWIND sets the cursor to 0 whether or not the sink is closed, and changes nothing else. -/
def Obligations.RewindSetsTheCursorToZero : Prop :=
  ∀ s : State,
    (s.fault = false → exec .rewind s = .next { s with
      busy := false, done := true, src := { s.src with pos := 0 } }) ∧
    (s.fault = true → exec .rewind s = .next s)

/-- R115: WRMAGIC appends the 32 bits of the magic word to an open sink. -/
def Obligations.WrmagicAppendsTheMagicWord : Prop :=
  ∀ s : State, s.fault = false →
    (s.snk.closed = false → exec .wrmagic s = .next { s with
      busy := false, done := true
      snk := { s.snk with bits := s.snk.bits ++
        [true, true, true, true, true, false, true, false, true, true, false, false, true, true, true, false,
         true, false, false, false, false, false, true, false, false, false, false, false, false, false,
         false, true] } }) ∧
    (s.snk.closed = true → exec .wrmagic s = .next { s with
      busy := false, done := false, fault := true, cause := 0x17, info := 0x4 })

/-- R116: RDMAGIC reads 32 bits at the cursor and checks them. On a mismatch they are consumed and
`INFO` is the value read; with fewer than 32 bits left the cursor does not move. -/
def Obligations.RdmagicChecksTheMagicWord : Prop :=
  ∀ s : State, s.fault = false →
    (s.src.bits.length - s.src.pos < 32 → exec .rdmagic s = .next { s with
      busy := false, done := false, fault := true, cause := 0x11, info := 0 }) ∧
    (∀ v src, s.src.readBits 32 = some (v, src) →
      src = { s.src with pos := s.src.pos + 32 } ∧
      (v = 0xFACE8201 → exec .rdmagic s = .next { s with
        busy := false, done := true, src := src }) ∧
      (v ≠ 0xFACE8201 → exec .rdmagic s = .next { s with
        busy := false, done := false, fault := true, cause := 0x01, info := BitVec.ofNat 32 v
        src := src }))

/-- R132: the three misuses that raise `IllegalCommandError`, before the command reads, writes or
changes anything; a closed sink is checked before a missing tree. -/
def Obligations.MisusedCommandsRaise : Prop :=
  ∀ s : State, s.fault = false →
    (exec .reservedF s = .next { s with
      busy := false, done := false, fault := true, cause := 0x07, info := 0xF }) ∧
    (s.snk.closed = true →
      ∀ x ∈ [(Instr.wrmagic, 0x4#32), (.wrtree, 0x5#32), (.encode, 0x7#32), (.decode, 0xA#32),
        (.compress, 0xC#32), (.decompress, 0xD#32)],
        exec x.1 s = .next { s with
          busy := false, done := false, fault := true, cause := 0x17, info := x.2 }) ∧
    (s.tree = none →
      exec .gencodes s = .next { s with
        busy := false, done := false, fault := true, cause := 0x27, info := 0x3 } ∧
      (s.snk.closed = false →
        ∀ x ∈ [(Instr.wrtree, 0x5#32), (.decode, 0xA#32)],
          exec x.1 s = .next { s with
            busy := false, done := false, fault := true, cause := 0x27, info := x.2 }))

/-- R135: a fault is sticky. While it is latched only NOP, CLOSE and CLEAR are acted on and none of them
raises, every other command is ignored with no change of state, and no step but CLEAR and reset changes
`FAULT`, `CAUSE` or `INFO`. -/
def Obligations.LatchedFaultIsSticky : Prop :=
  (∀ s : State, s.fault = true →
    ∀ i ∈ [Instr.nop, .count, .build, .gencodes, .wrmagic, .wrtree, .rewind, .encode, .rdmagic, .rdtree,
      .decode, .compress, .decompress, .reservedF], exec i s = .next s) ∧
  ∀ (s t : State) (h : HostStep) (rest : List HostStep), s.fault = true → s.host = h :: rest →
    h ≠ .reset → h ≠ .issue 0xE#4 → (∀ nbits w, h ≠ .offer nbits w) → step s = .next t →
    t.fault = true ∧ t.cause = s.cause ∧ t.info = s.info

/-- R125: `DONE` after a command: 1 exactly when it ended without a raise, 0 after CLEAR, and as it was
when the command was ignored or only a latched fault was seen. -/
def Obligations.DoneFlagAfterACommand : Prop :=
  ∀ (i : Instr) (s t : State), exec i s = .next t →
    (i = .clear → t.done = false) ∧
    (i ≠ .clear → s.fault = false → t.done = !t.fault) ∧
    (i ≠ .clear → s.fault = true → t.done = s.done)

/-- R134: what a raise does to the state of a command whose pseudocode stopped there: `FAULT` set,
`DONE` as it was (0 since acceptance), `CAUSE` and `INFO` as R130 lays them out, the block idle, every
write before it kept. -/
def Obligations.RaiseLatchesTheFault : Prop :=
  ∀ (body : State → Ran) (s s' : State) (r : Raise),
    s.fault = false → body s.begin = .raised s' r → s'.fault = false →
    ∃ t, accept body s = .next t ∧
      t = { s' with
        busy := false, fault := true
        cause := BitVec.ofNat 8 (16 * r.sub + faultCode r.name), info := BitVec.ofNat 32 r.info } ∧
      (r.sub < 16 → causeCode t = faultCode r.name ∧ causeSub t = r.sub)

/-! ### The frequency counter -/

/-- R70 to R73: COUNT on an input the block admits. It counts the whole bytes from the cursor on, leaves
the cursor after them, makes the table afresh and changes nothing else. The weights of the byte values
sum to the number of bytes read, the terminator's is 1, and the number of positive weights is the number
of distinct byte values plus one. -/
def Obligations.CountFillsTheWeightTable : Prop :=
  ∀ s : State, s.fault = false → (s.src.bits.length - s.src.pos) / 8 ≤ 2 ^ 32 - 2 →
    ∃ W : WeightTable,
      exec .count s = .next { s with
        busy := false, done := true, wt := W
        src := { s.src with pos := s.src.pos + 8 * ((s.src.bits.length - s.src.pos) / 8) } } ∧
      (∀ i, ∀ h : i < 256, (W[i]'(by omega)).toNat =
        ((bytesOf (s.src.bits.drop s.src.pos)).map BitVec.toNat).count i) ∧
      W[256] = 1 ∧
      ((W.toList.take 256).map BitVec.toNat).sum = (bytesOf (s.src.bits.drop s.src.pos)).length ∧
      (W.toList.filter (fun w => w ≠ 0)).length =
        (bytesOf (s.src.bits.drop s.src.pos)).dedup.length + 1

/-- R71, U10: an input of more than `MAX_INPUT_BYTES` whole bytes has no meaning, and the model refuses
the launch by name. -/
def Obligations.TooLongInputIsRefused : Prop :=
  ∀ s : State, s.fault = false → 2 ^ 32 - 2 < (s.src.bits.length - s.src.pos) / 8 →
    exec .count s = .refused .inputTooLong ∧
    (s.snk.closed = false → exec .compress s = .refused .inputTooLong)

/-! ### The tree builder -/

/-- R80: BUILD with no positive weight raises `EmptyAlphabetError` after emptying `TREE` and `CT`;
inside COMPRESS that fault cannot occur. -/
def Obligations.BuildWithoutWeightsRaises : Prop :=
  (∀ s : State, s.fault = false → (∀ i, ∀ h : i < 257, s.wt[i] = 0) →
    exec .build s = .next { s with
      busy := false, done := false, fault := true, cause := 0x04, info := 0
      tree := none, ct := Vector.replicate 257 none }) ∧
  ∀ s t : State, s.fault = false → exec .compress s = .next t → t.fault = true → causeCode t ≠ 4

/-- R75, R76, R81, for every order of the priority collection and so for this hardware's: BUILD with a
positive weight makes a tree with exactly one leaf for each symbol of positive weight, carrying that
weight, with `2L − 1 ≤ 513` nodes and no leaf deeper than `L − 1`; while the weights sum to less than
`2^32` every internal node adds exactly and the root weighs the sum. It empties `CT` and changes nothing
else. -/
def Obligations.BuildMakesTheTree : Prop :=
  ∀ (before : PqEntry → PqEntry → Bool) (s : State), s.fault = false →
    (∃ i, ∃ h : i < 257, s.wt[i] ≠ 0) →
    ∃ t : PrefixTree,
      (∃ u : State, u = { s with
          busy := false, done := true, tree := some t, ct := Vector.replicate 257 none } ∧
        accept (buildBody before) s = .next u ∧
        (before = tieBreak → exec .build s = .next u)) ∧
      t.syms.Nodup ∧
      (∀ sym w, (sym, w) ∈ t.leaves ↔ ∃ h : sym.toNat < 257, s.wt[sym.toNat] = w ∧ w ≠ 0) ∧
      t.nodes + 1 = 2 * t.leaves.length ∧ t.nodes ≤ 513 ∧
      (∀ p sym, t.leafAt p = some sym → p.length + 1 ≤ t.leaves.length) ∧
      ((s.wt.toList.map BitVec.toNat).sum < 2 ^ 32 →
        t.WeightsAdd ∧ (weightOf t).toNat = (s.wt.toList.map BitVec.toNat).sum)

/-- R75 to R78, R82: this hardware's order is (weight, then `seq`), a legal tie-break; `removeMin` takes
the least element in it and leaves the others; one turn of the loop merges the first-removed on the left
and the second-removed on the right; the sum of two weights that fits is exact. For every legal order BUILD's tree, on any table with a positive weight, is the one and only tree that the leaves of
positive weight, in ascending order of symbol with stamps 0, 1, 2, …, merge to: the least element and the
least of the others become the left and the right child of a new node with the sum of their weights and
the next `seq`, until one element is left. -/
def Obligations.MergeTakesTheTwoLightest : Prop :=
  LegalTieBreak (P := hardware) tieBreak ∧
  (∀ a b : PqEntry, tieBreak a b = true ↔
    (weightOf a.tree).toNat < (weightOf b.tree).toNat ∨
    ((weightOf a.tree).toNat = (weightOf b.tree).toNat ∧ a.seq < b.seq)) ∧
  (∀ (pq rest : List PqEntry) (m : PqEntry), (pq.map PqEntry.seq).Nodup →
    removeMin tieBreak pq = some (m, rest) →
    (m :: rest).Perm pq ∧ ∀ x ∈ rest,
      (weightOf m.tree).toNat < (weightOf x.tree).toNat ∨
      ((weightOf m.tree).toNat = (weightOf x.tree).toNat ∧ m.seq < x.seq)) ∧
  (∀ (n seq : Nat) (pq rest others : List PqEntry) (a b : PqEntry),
    removeMin tieBreak pq = some (a, rest) → removeMin tieBreak rest = some (b, others) →
    (weightOf a.tree).toNat + (weightOf b.tree).toNat < 2 ^ 32 →
    mergeLoop tieBreak (n + 1) pq seq =
      mergeLoop tieBreak n
        (others ++ [⟨.node a.tree b.tree (weightOf a.tree + weightOf b.tree), seq⟩]) (seq + 1)) ∧
  (∀ (seq : Nat) (v w : Weight), v.toNat + w.toNat < 2 ^ 32 →
    (addWeights seq v w).toNat = v.toNat + w.toNat) ∧
  ∀ (before : PqEntry → PqEntry → Bool) (s : State), LegalTieBreak before → s.fault = false →
    (∃ i, ∃ h : i < 257, s.wt[i] ≠ 0) →
    ∃ t : PrefixTree,
      (∃ u : State, u = { s with
          busy := false, done := true, tree := some t, ct := Vector.replicate 257 none } ∧
        accept (buildBody before) s = .next u ∧
        (before = tieBreak → exec .build s = .next u)) ∧
      ∀ t', Merges before (startCollection s.wt) (startCollection s.wt).length t' ↔ t' = t

/-- R79, R123: the trees of the empty input and of one byte value `v` repeated `k` times; the file of
the empty input is the magic word and the header of one terminator leaf. -/
def Obligations.SmallAlphabetTrees : Prop :=
  treeOf (P := hardware) tieBreak [] = some (.leaf 256 1) ∧
  fileOf (P := hardware) tieBreak [] = some (bitsOf 32 0xFACE8201 ++
    [true, true, false, false, false, false, false, false, false, false]) ∧
  (∀ v : Byte, treeOf (P := hardware) tieBreak [v] =
    some (.node (.leaf (v.setWidth 9) 1) (.leaf 256 1) 2)) ∧
  ∀ (v : Byte) (k : Nat), 2 ≤ k → k ≤ 2 ^ 32 - 2 →
    treeOf (P := hardware) tieBreak (List.replicate k v) =
      some (.node (.leaf 256 1) (.leaf (v.setWidth 9) (BitVec.ofNat 32 k)) (BitVec.ofNat 32 (k + 1)))

/-- R157, R28: BUILD and RDTREE empty `CT`, so an ENCODE after them without a new GENCODES raises
`MissingCodeError` at its first symbol (the first byte of the source, or the terminator when there is
none) and writes nothing. -/
def Obligations.StaleCodesAreCaught : Prop :=
  ∀ s t : State, s.fault = false → s.snk.closed = false →
    (exec .build s = .next t ∨ exec .rdtree s = .next t) → t.fault = false →
    (∀ b rest, bytesOf (t.src.bits.drop t.src.pos) = b :: rest →
      exec .encode t = .next { t with
        busy := false, done := false, fault := true, cause := 0x05, info := BitVec.ofNat 32 b.toNat
        src := { t.src with pos := t.src.pos + 8 } }) ∧
    (bytesOf (t.src.bits.drop t.src.pos) = [] →
      exec .encode t = .next { t with
        busy := false, done := false, fault := true, cause := 0x05, info := 256 })

/-! ### The code table generator -/

/-- R85, R87, R88: GENCODES makes the code table afresh: the code of each symbol is the path to its last
leaf in preorder, and a symbol that is no leaf has none. Nothing else changes. -/
def Obligations.GencodesRecordsThePaths : Prop :=
  ∀ (s : State) (t : PrefixTree), s.fault = false → s.tree = some t →
    ∃ C : CodeTable, exec .gencodes s = .next { s with busy := false, done := true, ct := C } ∧
      ∀ i, ∀ h : i < 257, C[i] = t.codeFor i

/-- R86: no path to a leaf is a proper start of another; no code GENCODES records is a start of another
symbol's; and after BUILD and GENCODES the symbols with a code are those of positive weight, each code
being the path to that symbol's leaf. -/
def Obligations.CodesArePrefixFree : Prop :=
  (∀ (t : PrefixTree) (p q : Bits) (a b : Sym),
    t.leafAt p = some a → t.leafAt (p ++ q) = some b → q = [] ∧ a = b) ∧
  (∀ s t : State, s.fault = false → exec .gencodes s = .next t → t.fault = false →
    ∀ a b p q, codeOf t.ct a = some p → codeOf t.ct b = some (p ++ q) → a = b ∧ q = []) ∧
  ∀ s t u : State, s.fault = false → exec .build s = .next t → t.fault = false →
    exec .gencodes t = .next u → ∃ root, u.tree = some root ∧
      ∀ i, ∀ h : i < 257, (u.ct[i] ≠ none ↔ s.wt[i] ≠ 0) ∧
        ∀ p, u.ct[i] = some p → root.leafAt p = some (BitVec.ofNat 9 i)

/-! ### The tree header codec -/

/-- R57, R90: WRTREE appends the serialization of `TREE` to an open sink, node records in preorder, and
changes nothing else. -/
def Obligations.WrtreeAppendsTheHeader : Prop :=
  (∀ (s : State) (t : PrefixTree), s.fault = false → s.snk.closed = false → s.tree = some t →
    exec .wrtree s = .next { s with
      busy := false, done := true, snk := { s.snk with bits := s.snk.bits ++ ser t } }) ∧
  (∀ (l r : PrefixTree) (w : Weight), ser (.node l r w) = [false] ++ ser l ++ ser r) ∧
  ∀ (sym : Sym) (w : Weight), ser (.leaf sym w) = [true] ++ (List.range 9).map fun i => sym.getLsbD (8 - i)

/-- R62: the header of a tree with `L` leaves has `11·L − 1` bits, and that of a tree BUILD made at most
2826. -/
def Obligations.HeaderLength : Prop :=
  (∀ t : PrefixTree, (ser t).length + 1 = 11 * t.leaves.length) ∧
  ∀ s u : State, s.fault = false → exec .build s = .next u → ∀ t, u.tree = some t →
    (ser t).length ≤ 2826

/-- R94: the header round trip. RDTREE on a source that starts with the serialization of a tree of at
most 513 nodes ends without fault, consumes exactly its bits and leaves the tree with every weight 0;
GENCODES gives the same codes for both; and a serialization is self-delimiting and fixes the tree but
for its weights. -/
def Obligations.HeaderRoundTrip : Prop :=
  (∀ (s : State) (t : PrefixTree) (x : Bits), s.fault = false → t.nodes ≤ 513 →
    s.src.bits.drop s.src.pos = ser t ++ x →
    exec .rdtree s = .next { s with
      busy := false, done := true, tree := some t.strip, ct := Vector.replicate 257 none
      src := { s.src with pos := s.src.pos + (ser t).length } }) ∧
  (∀ (s : State) (t : PrefixTree), s.fault = false →
    ∃ C : CodeTable,
      exec .gencodes { s with tree := some t } = .next { s with
        busy := false, done := true, tree := some t, ct := C } ∧
      exec .gencodes { s with tree := some t.strip } = .next { s with
        busy := false, done := true, tree := some t.strip, ct := C }) ∧
  ∀ (t t' : PrefixTree) (x x' : Bits), ser t ++ x = ser t' ++ x' → t.strip = t'.strip ∧ x = x'

/-- R91 to R93, R95: everything RDTREE can end in. It reads a header of at most 513 nodes whatever its
leaf symbols are, or raises `TruncatedHeaderError` or `TreeOverflowError` with `TREE` and `CT` empty;
nothing else changes but the cursor. -/
def Obligations.RdtreeOutcomes : Prop :=
  ∀ s : State, s.fault = false →
    (∃ t : PrefixTree, ∃ x : Bits, s.src.bits.drop s.src.pos = ser t ++ x ∧ t.nodes ≤ 513 ∧
      exec .rdtree s = .next { s with
        busy := false, done := true, tree := some t, ct := Vector.replicate 257 none
        src := { s.src with pos := s.src.pos + (ser t).length } }) ∨
    (∃ n sub k, n ≤ s.src.bits.length - s.src.pos ∧ sub ≤ 1 ∧ k < 513 ∧
      exec .rdtree s = .next { s with
        busy := false, done := false, fault := true, tree := none, ct := Vector.replicate 257 none
        cause := BitVec.ofNat 8 (16 * sub + 2), info := BitVec.ofNat 32 k
        src := { s.src with pos := s.src.pos + n } }) ∨
    (∃ n, n ≤ s.src.bits.length - s.src.pos ∧
      exec .rdtree s = .next { s with
        busy := false, done := false, fault := true, tree := none, ct := Vector.replicate 257 none
        cause := 0x06, info := 513, src := { s.src with pos := s.src.pos + n } })

/-- R92: a source that ends inside a header, of whatever size, after `k < 513` whole node records: with
no tag bit left `TruncatedHeaderError` has `SUB = 0`, with a `1` tag and fewer than 9 bits after it `SUB
= 1`; `INFO` is `k` and the cursor stands after the last bit read. R93: a header of more than 513 records
gives `TreeOverflowError` when the 514th is asked for, before its tag is read. `TREE` and `CT` are empty
afterwards. -/
def Obligations.BadHeadersRaise : Prop :=
  (∀ (s : State) (t : PrefixTree) (k : Nat), s.fault = false → k < t.nodes → k < 513 →
    (s.src.bits.drop s.src.pos = (t.records.take k).flatten →
      exec .rdtree s = .next { s with
        busy := false, done := false, fault := true, tree := none, ct := Vector.replicate 257 none
        cause := 0x02, info := BitVec.ofNat 32 k
        src := { s.src with pos := s.src.pos + (t.records.take k).flatten.length } }) ∧
    ∀ q : Bits, q.length < 9 →
      s.src.bits.drop s.src.pos = (t.records.take k).flatten ++ true :: q →
      exec .rdtree s = .next { s with
        busy := false, done := false, fault := true, tree := none, ct := Vector.replicate 257 none
        cause := 0x12, info := BitVec.ofNat 32 k
        src := { s.src with pos := s.src.pos + ((t.records.take k).flatten.length + 1) } }) ∧
  ∀ (s : State) (t : PrefixTree) (x : Bits), s.fault = false → 513 < t.nodes →
    s.src.bits.drop s.src.pos = (t.records.take 513).flatten ++ x →
    exec .rdtree s = .next { s with
      busy := false, done := false, fault := true, tree := none, ct := Vector.replicate 257 none
      cause := 0x06, info := 513
      src := { s.src with pos := s.src.pos + (t.records.take 513).flatten.length } }

/-! ### The stream encoder -/

/-- R101, R103: ENCODE writes the code of each byte from the cursor on and then the terminator's. -/
def Obligations.EncodeWritesThePayload : Prop :=
  ∀ (s : State) (body last : Bits), s.fault = false → s.snk.closed = false →
    codeWords s.ct (bytesOf (s.src.bits.drop s.src.pos)) = some body → s.ct[256] = some last →
    exec .encode s = .next { s with
      busy := false, done := true
      src := { s.src with pos := s.src.pos + 8 * ((s.src.bits.length - s.src.pos) / 8) }
      snk := { s.snk with bits := s.snk.bits ++ body ++ last } }

/-- R102, R137: at the first byte without a code ENCODE raises `MissingCodeError` with that byte in
`INFO`; with every byte's code present and the terminator's missing, with 256. The codes before it stay
written. -/
def Obligations.EncodeRaisesAtAMissingCode : Prop :=
  ∀ s : State, s.fault = false → s.snk.closed = false →
    (∀ A b B body, bytesOf (s.src.bits.drop s.src.pos) = A ++ b :: B → codeWords s.ct A = some body →
      codeOf s.ct b.toNat = none →
      exec .encode s = .next { s with
        busy := false, done := false, fault := true, cause := 0x05, info := BitVec.ofNat 32 b.toNat
        src := { s.src with pos := s.src.pos + 8 * (A.length + 1) }
        snk := { s.snk with bits := s.snk.bits ++ body } }) ∧
    (∀ body, codeWords s.ct (bytesOf (s.src.bits.drop s.src.pos)) = some body → s.ct[256] = none →
      exec .encode s = .next { s with
        busy := false, done := false, fault := true, cause := 0x05, info := 256
        src := { s.src with pos := s.src.pos + 8 * ((s.src.bits.length - s.src.pos) / 8) }
        snk := { s.snk with bits := s.snk.bits ++ body } })

/-- R154, R101: the two-pass hazard. After COUNT with no REWIND, ENCODE writes only the terminator's
code and ends without a fault. -/
def Obligations.ForgottenRewindIsSilent : Prop :=
  ∀ (s t : State) (last : Bits), s.fault = false → s.snk.closed = false → s.ct[256] = some last →
    exec .count s = .next t →
    exec .encode t = .next { t with
      busy := false, done := true, snk := { t.snk with bits := t.snk.bits ++ last } }

/-! ### The stream decoder -/

/-- R105, R106, R109: what DECODE does with the first code word at the cursor when the root is internal.
At the terminator's it ends, having read exactly that code word; at any other leaf it writes the low 8
bits of the symbol, `257..511` included, and goes on as from the root behind that code word. -/
def Obligations.DecodeTakesOneCodeAtATime : Prop :=
  ∀ (s : State) (l r : PrefixTree) (w : Weight) (p x : Bits) (sym : Sym), s.fault = false →
    s.snk.closed = false → s.tree = some (.node l r w) →
    (PrefixTree.node l r w).leafAt p = some sym → s.src.bits.drop s.src.pos = p ++ x →
    (sym = 256#9 → exec .decode s = .next { s with
      busy := false, done := true, src := { s.src with pos := s.src.pos + p.length } }) ∧
    (sym ≠ 256#9 → ∃ unit : Bits, unit.length = 8 ∧
      (∀ i, i < 8 → unit[i]? = some (sym.getLsbD (7 - i))) ∧
      exec .decode s = exec .decode { s with
        src := { s.src with pos := s.src.pos + p.length }
        snk := { s.snk with bits := s.snk.bits ++ unit } })

/-- R112, R110: decoding inverts encoding. With `TREE` a tree or its copy without weights and the code
words of bytes `S` and of the terminator at the cursor, DECODE ends without fault, appends exactly the
bits of `S`, and reads exactly those code words, whatever follows. -/
def Obligations.DecodeInvertsEncode : Prop :=
  ∀ (s : State) (t : PrefixTree) (S : List Byte) (body last x : Bits), s.fault = false →
    s.snk.closed = false → (s.tree = some t ∨ s.tree = some t.strip) →
    codeWords (codesOf t) S = some body → codeOf (codesOf t) 256 = some last →
    s.src.bits.drop s.src.pos = body ++ last ++ x →
    exec .decode s = .next { s with
      busy := false, done := true
      src := { s.src with pos := s.src.pos + (body ++ last).length }
      snk := { s.snk with bits := s.snk.bits ++ bitsOfBytes S } }

/-- R107: a root that is a leaf reads no bit and writes nothing: success for the terminator,
`TruncatedStreamError` with `SUB = 1` for any other symbol. -/
def Obligations.DecodeOfALeafRoot : Prop :=
  ∀ (s : State) (sym : Sym) (w : Weight), s.fault = false → s.snk.closed = false →
    s.tree = some (.leaf sym w) →
    (sym = 256#9 → exec .decode s = .next { s with busy := false, done := true }) ∧
    (sym ≠ 256#9 → exec .decode s = .next { s with
      busy := false, done := false, fault := true, cause := 0x13
      info := BitVec.ofNat 32 sym.toNat })

/-- R108, R137: a payload cut short gives `TruncatedStreamError` at the end of the source, and the symbols
decoded before it stay written: the units of exactly the whole code words before the cut, whatever
leaves they lead to; for the payload of a byte sequence cut inside the code of its next symbol, exactly
the bytes before that symbol. R61 (e): with an internal root and no terminator leaf every source is such
a payload, so DECODE always runs into that fault. -/
def Obligations.ExhaustedPayloadRaises : Prop :=
  (∀ (s : State) (t : PrefixTree) (L : List (Sym × Bits)) (q : Bits), s.fault = false →
    s.snk.closed = false → s.tree = some t → s.src.pos ≤ s.src.bits.length →
    t.CutPayload L q (s.src.bits.drop s.src.pos) →
    exec .decode s = .next { s with
      busy := false, done := false, fault := true, cause := 0x03, info := 0
      src := { s.src with pos := s.src.bits.length }
      snk := { s.snk with bits := s.snk.bits ++ unitsOf L } }) ∧
  (∀ (s : State) (t : PrefixTree) (S : List Byte) (body last y : Bits), s.fault = false →
    s.snk.closed = false → s.tree = some t → s.src.pos ≤ s.src.bits.length →
    codeWords (codesOf t) S = some body → codeOf (codesOf t) 256 = some last → y ≠ [] →
    s.src.bits.drop s.src.pos ++ y = body ++ last →
    ∃ (S' S'' : List Byte) (whole q z : Bits), S = S' ++ S'' ∧
      codeWords (codesOf t) S' = some whole ∧ s.src.bits.drop s.src.pos = whole ++ q ∧ z ≠ [] ∧
      ((S''.map BitVec.toNat ++ [256]).head?).bind (codeOf (codesOf t)) = some (q ++ z) ∧
      exec .decode s = .next { s with
        busy := false, done := false, fault := true, cause := 0x03, info := 0
        src := { s.src with pos := s.src.bits.length }
        snk := { s.snk with bits := s.snk.bits ++ bitsOfBytes S' } }) ∧
  ∀ (l r : PrefixTree) (w : Weight) (x : Bits), 256#9 ∉ (PrefixTree.node l r w).syms →
    ∃ L q, (PrefixTree.node l r w).CutPayload L q x

/-- R110, R36: after a successful DECODE nothing behind the cursor was looked at: with any other bits
there the result is the same. -/
def Obligations.PadBitsNeverMatter : Prop :=
  ∀ (s t : State) (x : Bits), s.fault = false → exec .decode s = .next t → t.fault = false →
    exec .decode { s with src := { s.src with bits := s.src.bits.take t.src.pos ++ x } } =
      .next { t with src := { t.src with bits := s.src.bits.take t.src.pos ++ x } }

/-! ### Composite commands and the system -/

/-- R53, R119 to R121: on an open sink COMPRESS and DECOMPRESS are the sequence of their primitive
commands, on the fault-free path and on the faulting one (where the primitives after the fault are
ignored and the last CLOSE closes the sink). -/
def Obligations.CompositesAreTheirSteps : Prop :=
  ∀ s : State, s.fault = false → s.snk.closed = false →
    exec .compress s = runAll compressSteps s ∧ exec .decompress s = runAll decompressSteps s

/-- R121, R137: when a composite command raises, the fault is latched, the sink is closed and `DONE` is 0.
Raised by its own check of a closed sink it leaves the sink as it was. Otherwise the steps before the
faulting one ran and did not raise, and the state is the one the faulting step left, all it and the steps
before it wrote to `OUT` included, with only the sink closed. -/
def Obligations.FailedCompositeClosesTheSink : Prop :=
  ∀ (i : Instr) (steps : List Instr) (s t : State),
    (i = .compress ∧ steps = compressSteps) ∨ (i = .decompress ∧ steps = decompressSteps) →
    s.fault = false → exec i s = .next t → t.fault = true →
    t.snk.closed = true ∧ t.done = false ∧
    (s.snk.closed = true → t.snk = s.snk) ∧
    (s.snk.closed = false →
      ∃ (ran rest : List Instr) (j : Instr) (m u : State), steps = ran ++ j :: rest ∧
        runAll ran s = .next m ∧ m.fault = false ∧ exec j m = .next u ∧ u.fault = true ∧
        t = { u with snk := { u.snk with closed := true } })

/-- R119, R55, R122 (a), for every order of the priority collection: from any state without a fault, a
source at its start with an admitted number of whole bytes, and a fresh sink, COMPRESS ends well with
`out_bits` the compressed file of those bytes, their tables in place, and the source read to its last
whole byte. -/
def Obligations.CompressWritesTheFile : Prop :=
  ∀ (before : PqEntry → PqEntry → Bool) (s : State), s.fault = false → s.src.pos = 0 →
    s.src.bits.length / 8 ≤ 2 ^ 32 - 2 → s.snk = { bits := [], closed := false } →
    ∃ t f, treeOf before (bytesOf s.src.bits) = some t ∧
      fileOf before (bytesOf s.src.bits) = some f ∧
      ∃ u : State, u = { s with
          busy := false, done := true
          wt := weightsOf (bytesOf s.src.bits), tree := some t, ct := codesOf t
          src := { s.src with pos := 8 * (s.src.bits.length / 8) }
          snk := { bits := f, closed := true } } ∧
        accept (compressBody before) s = .next u ∧
        (before = tieBreak → exec .compress s = .next u)

/-- R122 (b), R36, for every order of the priority collection: DECOMPRESS on a compressed file followed
by any bits ends well, with the bytes of the input in the sink and the cursor at the end of the file. -/
def Obligations.DecompressReadsTheFile : Prop :=
  ∀ (before : PqEntry → PqEntry → Bool) (S : List Byte) (t : PrefixTree) (f P : Bits) (s : State),
    treeOf before S = some t → fileOf before S = some f → s.fault = false →
    s.src = { bits := f ++ P, pos := 0 } → s.snk.closed = false →
    exec .decompress s = .next { s with
      busy := false, done := true, tree := some t.strip, ct := Vector.replicate 257 none
      src := { bits := f ++ P, pos := f.length }
      snk := { bits := s.snk.bits ++ bitsOfBytes S, closed := true } }

/-- R122: the round trip. For every legal build (R6, R24), every order of the priority collection, every
byte sequence `S` of at most `MAX_INPUT_BYTES` bytes and every bit string of pad bits: (a) from any state
without a fault, with `S` as the source and a fresh sink, COMPRESS ends well with `out_bits = file(S)`;
(b) from any state without a fault, with `file(S)` and the pad bits as the source and a fresh sink,
DECOMPRESS ends well with `out_bits = bits(S)` and `in_pos = |file(S)|`. This hardware is one of those
builds, and its `exec` of the two commands is that of this build. -/
def Obligations.CompressThenDecompressIsTheInput : Prop :=
  (∀ P : Params, P.Legal →
    ∀ (before : PqEntry P → PqEntry P → Bool) (S : List Byte), S.length ≤ P.maxInputBytes →
    ∃ f, fileOf before S = some f ∧
      (∀ s : State P, s.fault = false → s.src = { bits := bitsOfBytes S, pos := 0 } →
        s.snk = { bits := [], closed := false } →
        ∃ t, accept (compressBody before) s = .next t ∧ EndedWell t ∧ t.snk.bits = f) ∧
      ∀ (s : State P) (pad : Bits), s.fault = false → s.src = { bits := f ++ pad, pos := 0 } →
        s.snk = { bits := [], closed := false } →
        ∃ t, accept decompressBody s = .next t ∧ EndedWell t ∧ t.snk.bits = bitsOfBytes S ∧
          t.src.pos = f.length) ∧
  hardware.Legal ∧ hardware.maxInputBytes = 2 ^ 32 - 2 ∧
  ∀ s : State, exec .compress s = accept (compressBody tieBreak) s ∧
    exec .decompress s = accept decompressBody s

/-- R124: corruption is rejected. Fewer than 32 bits, or 32 bits other than the magic word, give
`IllegalHeaderError`; and every proper start of a compressed file is rejected with a fault of the
source's taxonomy: `IllegalHeaderError` below 32 bits, `TruncatedHeaderError` inside the tree header,
`TruncatedStreamError` inside the payload. The sink is closed in each case. -/
def Obligations.CorruptFilesAreRejected : Prop :=
  (∀ s : State, s.fault = false → s.snk.closed = false → s.src.pos = 0 →
    s.src.bits.take 32 ≠ bitsOf 32 0xFACE8201 →
    ∃ t, exec .decompress s = .next t ∧ t.fault = true ∧ causeCode t = 1 ∧ t.snk.closed = true) ∧
  ∀ (before : PqEntry → PqEntry → Bool) (S : List Byte) (root : PrefixTree) (f x y : Bits) (s : State),
    treeOf before S = some root → fileOf before S = some f → f = x ++ y → y ≠ [] →
    s.fault = false → s.snk.closed = false → s.src = { bits := x, pos := 0 } →
    ∃ t, exec .decompress s = .next t ∧ t.fault = true ∧ t.done = false ∧ t.snk.closed = true ∧
      (x.length < 32 → causeCode t = 1) ∧
      (32 ≤ x.length → x.length < 32 + (ser root).length → causeCode t = 2) ∧
      (32 + (ser root).length ≤ x.length → causeCode t = 3)

/-- R131: which faults a command can raise. For COMPRESS the source must stand at its start, as R153
requires of the host. -/
def Obligations.CommandsRaiseOnlyTheirFaults : Prop :=
  ∀ (i : Instr) (s t : State), s.fault = false → exec i s = .next t → t.fault = true →
    (i = .compress → s.src.pos = 0) → (causeCode t, causeSub t) ∈ mayRaise i

/-! ### Frames and whole-machine rules -/

/-- R11 to R13, R22, R23, R28: who writes what. When a command answers a next state, the weight table,
the code table, the tree, the source and the sink are each unchanged by every command that the spec does
not name as a writer of it; no command changes the source's bits, the host's pending steps or its reply.
-/
def Obligations.CommandsLeaveTheRestUnchanged : Prop :=
  ∀ (i : Instr) (s t : State), exec i s = .next t →
    (i ∉ [Instr.count, .compress, .clear] → t.wt = s.wt) ∧
    (i ∉ [Instr.build, .gencodes, .rdtree, .compress, .decompress, .clear] → t.ct = s.ct) ∧
    (i ∉ [Instr.build, .rdtree, .compress, .decompress, .clear] → t.tree = s.tree) ∧
    (i ∉ [Instr.count, .rewind, .encode, .rdmagic, .rdtree, .decode, .compress, .decompress] →
      t.src = s.src) ∧
    (i ∉ [Instr.wrmagic, .wrtree, .encode, .decode, .close, .compress, .decompress] →
      t.snk = s.snk) ∧
    t.src.bits = s.src.bits ∧ t.host = s.host ∧ t.reply = s.reply

/-- R23, R35, R41: the sink only grows by appending, and no command changes a closed sink or opens it.
-/
def Obligations.TheSinkOnlyGrows : Prop :=
  ∀ (i : Instr) (s t : State), exec i s = .next t →
    (∃ x, t.snk.bits = s.snk.bits ++ x) ∧ (s.snk.closed = true → t.snk = s.snk) ∧
    (t.snk.closed ≠ s.snk.closed → i ∈ [Instr.close, .compress, .decompress])

/-- R50, R54: a stream record is no command; taken as an instruction it is refused by name, in every
state. -/
def Obligations.StreamRecordsAreNoCommands : Prop :=
  ∀ s : State,
    exec .streamMagic s = .refused .streamRecordIsNoCommand ∧
    exec .streamNodeInternal s = .refused .streamRecordIsNoCommand ∧
    (∀ sym, exec (.streamNodeLeaf sym) s = .refused .streamRecordIsNoCommand) ∧
    (∀ p, exec (.streamCodeword p) s = .refused .streamRecordIsNoCommand) ∧
    ∀ b, exec (.streamByte b) s = .refused .streamRecordIsNoCommand

/-! ### Invariants -/

/-- The reset state meets every invariant below. -/
def Obligations.ResetMeetsTheInvariants : Prop :=
  ControlLegal State.reset ∧ TablesLegal State.reset ∧ WeightsLegal State.reset ∧
    SourceLegal State.reset

/-- Every step keeps the control registers legal: never busy between steps, never `DONE` with `FAULT`,
and `CAUSE` and `INFO` always a row of R130 (R15 to R17, R130, R134, R135). -/
def Obligations.StepKeepsControlLegal : Prop :=
  ∀ s t : State, ControlLegal s → step s = .next t → ControlLegal t

/-- Every step keeps the tables legal: the tree fits the block, and no code outlives the tree whose path
it is (R12, R14, R28). -/
def Obligations.StepKeepsTablesLegal : Prop :=
  ∀ s t : State, TablesLegal s → step s = .next t → TablesLegal t

/-- Every step keeps the weights legal, all 0 or with the terminator's 1, and their sum in 32 bits; and
it keeps the cursor inside the source (R11, R22, R71). -/
def Obligations.StepKeepsWeightsAndCursorLegal : Prop :=
  (∀ s t : State, WeightsLegal s → step s = .next t → WeightsLegal t) ∧
  ∀ s t : State, SourceLegal s → step s = .next t → SourceLegal t

/-! ### The composites in a bad tree header -/

/-- R120, R121, R124 with R92 and R93: behind a good magic word DECOMPRESS stops in a bad tree header
where RDTREE does, with the same `SUB` and `INFO`; the cursor stands after the last bit read, `TREE` and
`CT` are empty, and the sink is closed with what it held. -/
def Obligations.DecompressStopsInABadHeader : Prop :=
  ∀ (s : State) (t : PrefixTree), s.fault = false → s.snk.closed = false →
    (∀ k, k < t.nodes → k < 513 →
      (s.src.bits.drop s.src.pos = bitsOf 32 0xFACE8201 ++ (t.records.take k).flatten →
        exec .decompress s = .next { s with
          busy := false, done := false, fault := true, tree := none, ct := Vector.replicate 257 none
          cause := 0x02, info := BitVec.ofNat 32 k, snk := { s.snk with closed := true }
          src := { s.src with pos := s.src.pos + (32 + (t.records.take k).flatten.length) } }) ∧
      ∀ q : Bits, q.length < 9 →
        s.src.bits.drop s.src.pos =
          bitsOf 32 0xFACE8201 ++ ((t.records.take k).flatten ++ true :: q) →
        exec .decompress s = .next { s with
          busy := false, done := false, fault := true, tree := none, ct := Vector.replicate 257 none
          cause := 0x12, info := BitVec.ofNat 32 k, snk := { s.snk with closed := true }
          src := { s.src with
            pos := s.src.pos + (32 + ((t.records.take k).flatten.length + 1)) } }) ∧
    ∀ x : Bits, 513 < t.nodes →
      s.src.bits.drop s.src.pos = bitsOf 32 0xFACE8201 ++ ((t.records.take 513).flatten ++ x) →
      exec .decompress s = .next { s with
        busy := false, done := false, fault := true, tree := none, ct := Vector.replicate 257 none
        cause := 0x06, info := 513, snk := { s.snk with closed := true }
        src := { s.src with pos := s.src.pos + (32 + (t.records.take 513).flatten.length) } }
end

