-- ==== Sys2Proof/Laws/Bits.lean ====
section
/-! SUPPORT. Numbers and bit strings: the two conversions undo each other. -/

namespace Sys2Proof

@[simp] theorem bitsOf_length (n v : Nat) : (bitsOf n v).length = n := by
  induction n with
  | zero => rfl
  | succ n ih => simp [bitsOf, ih]

@[simp] theorem natOf_nil : natOf [] = 0 := rfl

theorem natOf_append (p q : Bits) : natOf (p ++ q) = natOf p * 2 ^ q.length + natOf q := by
  have fold : ∀ (q : Bits) (v : Nat),
      q.foldl (fun v b => 2 * v + b.toNat) v = v * 2 ^ q.length + natOf q := by
    intro q
    induction q with
    | nil => intro v; simp
    | cons b q ih =>
      intro v
      have h0 := ih (2 * 0 + b.toNat)
      have hv := ih (2 * v + b.toNat)
      simp only [natOf, List.foldl_cons, List.length_cons] at h0 hv ⊢
      rw [hv, h0, pow_succ]
      ring
  simpa [natOf, List.foldl_append] using fold q (natOf p)

theorem natOf_cons (b : Bool) (q : Bits) : natOf (b :: q) = b.toNat * 2 ^ q.length + natOf q := by
  simpa [natOf] using natOf_append [b] q

theorem natOf_lt (p : Bits) : natOf p < 2 ^ p.length := by
  induction p with
  | nil => simp
  | cons b q ih =>
    rw [natOf_cons, List.length_cons, pow_succ]
    cases b <;> simp <;> omega

theorem natOf_bitsOf (n v : Nat) : natOf (bitsOf n v) = v % 2 ^ n := by
  induction n with
  | zero => simp [bitsOf, Nat.mod_one]
  | succ n ih =>
    rw [bitsOf, natOf_cons, ih, bitsOf_length, Nat.mod_pow_succ, Nat.testBit_eq_decide_div_mod_eq]
    rcases Nat.mod_two_eq_zero_or_one (v / 2 ^ n) with h | h
    · simp [h]
    · simp [h]; omega

theorem natOf_bitsOf_of_lt {n v : Nat} (h : v < 2 ^ n) : natOf (bitsOf n v) = v := by
  rw [natOf_bitsOf, Nat.mod_eq_of_lt h]

theorem bitsOf_natOf (p : Bits) : bitsOf p.length (natOf p) = p := by
  have stable : ∀ (n v k : Nat), n ≤ k → bitsOf n (v % 2 ^ k) = bitsOf n v := by
    intro n
    induction n with
    | zero => intros; rfl
    | succ n ih =>
      intro v k h
      have hk : n < k := h
      simp [bitsOf, ih v k (by omega), Nat.testBit_mod_two_pow, hk]
  induction p with
  | nil => rfl
  | cons b q ih =>
    have hlow : natOf (b :: q) % 2 ^ q.length = natOf q := by
      rw [natOf_cons, Nat.add_comm, Nat.add_mul_mod_self_right, Nat.mod_eq_of_lt (natOf_lt q)]
    have hbit : (natOf (b :: q)).testBit q.length = b := by
      rw [natOf_cons, Nat.testBit_eq_decide_div_mod_eq]
      have : (b.toNat * 2 ^ q.length + natOf q) / 2 ^ q.length = b.toNat := by
        rw [Nat.add_comm, Nat.add_mul_div_right _ _ (Nat.two_pow_pos _),
          Nat.div_eq_of_lt (natOf_lt q)]
        simp
      rw [this]
      cases b <;> decide
    rw [List.length_cons, bitsOf, hbit, ← stable _ _ q.length le_rfl, hlow, ih]

end Sys2Proof
end

