-- ==== Sys2Proof/Laws/State.lean ====
section
/-! SUPPORT. What each update of the state changes and what it leaves: one lemma per field per update. -/

namespace Sys2Proof.Machine

variable {P : Params}

section Hardware
theorem hardware_weightW : hardware.weightW = 32 := rfl
theorem hardware_maxInputBytes : hardware.maxInputBytes = 2 ^ 32 - 2 := rfl
theorem hardware_nodeCap : hardware.nodeCap = 513 := rfl
theorem hardware_codeMaxLen : hardware.codeMaxLen = 256 := rfl
theorem hardware_cmdW : hardware.cmdW = 4 := rfl
end Hardware

section Begin
variable (s : State P)
@[simp] theorem begin_wt : s.begin.wt = s.wt := rfl
@[simp] theorem begin_ct : s.begin.ct = s.ct := rfl
@[simp] theorem begin_tree : s.begin.tree = s.tree := rfl
@[simp] theorem begin_busy : s.begin.busy = true := rfl
@[simp] theorem begin_done : s.begin.done = false := rfl
@[simp] theorem begin_fault : s.begin.fault = s.fault := rfl
@[simp] theorem begin_cause : s.begin.cause = s.cause := rfl
@[simp] theorem begin_info : s.begin.info = s.info := rfl
@[simp] theorem begin_src : s.begin.src = s.src := rfl
@[simp] theorem begin_snk : s.begin.snk = s.snk := rfl
@[simp] theorem begin_host : s.begin.host = s.host := rfl
@[simp] theorem begin_reply : s.begin.reply = s.reply := rfl
end Begin

section Finish
variable (s : State P)
@[simp] theorem finish_wt : s.finish.wt = s.wt := rfl
@[simp] theorem finish_ct : s.finish.ct = s.ct := rfl
@[simp] theorem finish_tree : s.finish.tree = s.tree := rfl
@[simp] theorem finish_busy : s.finish.busy = false := rfl
@[simp] theorem finish_done : s.finish.done = true := rfl
@[simp] theorem finish_fault : s.finish.fault = s.fault := rfl
@[simp] theorem finish_cause : s.finish.cause = s.cause := rfl
@[simp] theorem finish_info : s.finish.info = s.info := rfl
@[simp] theorem finish_src : s.finish.src = s.src := rfl
@[simp] theorem finish_snk : s.finish.snk = s.snk := rfl
@[simp] theorem finish_host : s.finish.host = s.host := rfl
@[simp] theorem finish_reply : s.finish.reply = s.reply := rfl
end Finish

section TakeFault
variable (r : Raise) (s : State P)
@[simp] theorem takeFault_wt : (takeFault r s).wt = s.wt := rfl
@[simp] theorem takeFault_ct : (takeFault r s).ct = s.ct := rfl
@[simp] theorem takeFault_tree : (takeFault r s).tree = s.tree := rfl
@[simp] theorem takeFault_busy : (takeFault r s).busy = false := rfl
@[simp] theorem takeFault_done : (takeFault r s).done = s.done := rfl
@[simp] theorem takeFault_fault : (takeFault r s).fault = true := rfl
@[simp] theorem takeFault_src : (takeFault r s).src = s.src := rfl
@[simp] theorem takeFault_snk : (takeFault r s).snk = s.snk := rfl
@[simp] theorem takeFault_host : (takeFault r s).host = s.host := rfl
@[simp] theorem takeFault_reply : (takeFault r s).reply = s.reply := rfl
theorem takeFault_cause_first (h : s.fault = false) : (takeFault r s).cause = r.cause := by
  simp [takeFault, h]
theorem takeFault_info_first (h : s.fault = false) :
    (takeFault r s).info = BitVec.ofNat 32 r.info := by
  simp [takeFault, h]
end TakeFault

section ClearBlock
variable (s : State P)
@[simp] theorem clearBlock_wt : (clearBlock s).wt = noWeights := rfl
@[simp] theorem clearBlock_ct : (clearBlock s).ct = noCodes := rfl
@[simp] theorem clearBlock_tree : (clearBlock s).tree = none := rfl
@[simp] theorem clearBlock_busy : (clearBlock s).busy = false := rfl
@[simp] theorem clearBlock_done : (clearBlock s).done = false := rfl
@[simp] theorem clearBlock_fault : (clearBlock s).fault = false := rfl
@[simp] theorem clearBlock_cause : (clearBlock s).cause = 0 := rfl
@[simp] theorem clearBlock_info : (clearBlock s).info = 0 := rfl
@[simp] theorem clearBlock_src : (clearBlock s).src = s.src := rfl
@[simp] theorem clearBlock_snk : (clearBlock s).snk = s.snk := rfl
@[simp] theorem clearBlock_host : (clearBlock s).host = s.host := rfl
@[simp] theorem clearBlock_reply : (clearBlock s).reply = s.reply := rfl
end ClearBlock

section CloseSink
variable (s : State P)
@[simp] theorem closeSink_wt : (closeSink s).wt = s.wt := rfl
@[simp] theorem closeSink_ct : (closeSink s).ct = s.ct := rfl
@[simp] theorem closeSink_tree : (closeSink s).tree = s.tree := rfl
@[simp] theorem closeSink_busy : (closeSink s).busy = s.busy := rfl
@[simp] theorem closeSink_done : (closeSink s).done = s.done := rfl
@[simp] theorem closeSink_fault : (closeSink s).fault = s.fault := rfl
@[simp] theorem closeSink_cause : (closeSink s).cause = s.cause := rfl
@[simp] theorem closeSink_info : (closeSink s).info = s.info := rfl
@[simp] theorem closeSink_src : (closeSink s).src = s.src := rfl
@[simp] theorem closeSink_snk_bits : (closeSink s).snk.bits = s.snk.bits := rfl
@[simp] theorem closeSink_snk_closed : (closeSink s).snk.closed = true := rfl
@[simp] theorem closeSink_host : (closeSink s).host = s.host := rfl
@[simp] theorem closeSink_reply : (closeSink s).reply = s.reply := rfl
end CloseSink

section Streams
variable (snk : Sink) (src : Source)
@[simp] theorem writeString_bits (p : Bits) : (snk.writeString p).bits = snk.bits ++ p := rfl
@[simp] theorem writeString_closed (p : Bits) : (snk.writeString p).closed = snk.closed := rfl
@[simp] theorem writeBits_bits (n v : Nat) : (snk.writeBits n v).bits = snk.bits ++ bitsOf n v := rfl
@[simp] theorem writeBits_closed (n v : Nat) : (snk.writeBits n v).closed = snk.closed := rfl
@[simp] theorem close_bits : snk.close.bits = snk.bits := rfl
@[simp] theorem close_closed : snk.close.closed = true := rfl
@[simp] theorem rewind_bits : src.rewind.bits = src.bits := rfl
@[simp] theorem rewind_pos : src.rewind.pos = 0 := rfl
@[simp] theorem writeString_nil : snk.writeString [] = snk := by simp [Sink.writeString]
@[simp] theorem writeString_writeString (p q : Bits) :
    (snk.writeString p).writeString q = snk.writeString (p ++ q) := by
  simp [Sink.writeString]
end Streams

section HostSteps
variable (s : State P)
@[simp] theorem attachSource_src (b : Bits) : (attachSource b s).src = { bits := b, pos := 0 } := rfl
@[simp] theorem attachSink_snk : (attachSink s).snk = { bits := [], closed := false } := rfl
@[simp] theorem hostInspect_reply (space index : Nat) :
    (hostInspect space index s).reply = some (inspect space index s) := rfl
@[simp] theorem hostReadOut_reply : (hostReadOut s).reply = some (.outBits s.snk.bits) := rfl
end HostSteps

end Sys2Proof.Machine
end

