-- ==== Sys2Proof/Laws/Ops.lean ====
section
/-! SUPPORT. What the shared operations can do: acceptance, sequencing, the two checks, and the one
inversion lemma of an accepted command. -/

namespace Sys2Proof.Machine

variable {P : Params}

@[simp] theorem andThen_ended (s : State P) (f : State P → Ran P) : (Ran.ended s).andThen f = f s := rfl
@[simp] theorem andThen_raised (s : State P) (r : Raise) (f : State P → Ran P) :
    (Ran.raised s r).andThen f = .raised s r := rfl
@[simp] theorem andThen_refused (w : Refusal) (f : State P → Ran P) :
    (Ran.refused w).andThen f = .refused w := rfl
@[simp] theorem closeOnRaise_ended (s : State P) : (Ran.ended s).closeOnRaise = .ended s := rfl
@[simp] theorem closeOnRaise_raised (s : State P) (r : Raise) :
    (Ran.raised s r).closeOnRaise = .raised (closeSink s) r := rfl
@[simp] theorem closeOnRaise_refused (w : Refusal) :
    (Ran.refused w : Ran P).closeOnRaise = .refused w := rfl
@[simp] theorem outcome_ended (s : State P) : (Ran.ended s).outcome = .next s.finish := rfl
@[simp] theorem outcome_raised (s : State P) (r : Raise) :
    (Ran.raised s r).outcome = .next (takeFault r s) := rfl
@[simp] theorem outcome_refused (w : Refusal) : (Ran.refused w : Ran P).outcome = .refused w := rfl

theorem andThen_eq_ended {x : Ran P} {f : State P → Ran P} {t : State P} (h : x.andThen f = .ended t) :
    ∃ s, x = .ended s ∧ f s = .ended t := by
  cases x <;> simp_all

theorem andThen_eq_raised {x : Ran P} {f : State P → Ran P} {t : State P} {r : Raise}
    (h : x.andThen f = .raised t r) :
    x = .raised t r ∨ ∃ s, x = .ended s ∧ f s = .raised t r := by
  cases x <;> simp_all

theorem accept_fault {body : State P → Ran P} {s : State P} (h : s.fault = true) :
    accept body s = .next s := by
  simp [accept, h]

theorem accept_run {body : State P → Ran P} {s : State P} (h : s.fault = false) :
    accept body s = (body s.begin).outcome := by
  simp [accept, h]

/-- Everything an accepted command can do when it answers a next state: it was ignored, it ran to its
end, or it raised. -/
theorem accept_cases {body : State P → Ran P} {s t : State P} (h : accept body s = .next t) :
    (s.fault = true ∧ t = s) ∨
    (s.fault = false ∧ ∃ s', body s.begin = .ended s' ∧ t = s'.finish) ∨
    (s.fault = false ∧ ∃ s' r, body s.begin = .raised s' r ∧ t = takeFault r s') := by
  unfold accept at h
  split at h
  · next hf => cases h; exact .inl ⟨hf, rfl⟩
  · next hf =>
    have hf : s.fault = false := by simpa using hf
    cases hb : body s.begin with
    | ended s' => rw [hb] at h; cases h; exact .inr (.inl ⟨hf, s', rfl, rfl⟩)
    | raised s' r => rw [hb] at h; cases h; exact .inr (.inr ⟨hf, s', r, rfl, rfl⟩)
    | refused w => rw [hb] at h; cases h

theorem requireOpen_open {op : Nat} {s : State P} (h : s.snk.closed = false) :
    requireOpen op s = .ended s := by
  simp [requireOpen, h]

theorem requireOpen_closed {op : Nat} {s : State P} (h : s.snk.closed = true) :
    requireOpen op s = .raised s ⟨.illegalCommand, 1, op⟩ := by
  simp [requireOpen, h]

theorem requireTree_some {op : Nat} {work : PrefixTree P → State P → Ran P} {s : State P} {t : PrefixTree P}
    (h : s.tree = some t) : requireTree op work s = work t s := by
  simp [requireTree, h]

theorem requireTree_none {op : Nat} {work : PrefixTree P → State P → Ran P} {s : State P}
    (h : s.tree = none) : requireTree op work s = .raised s ⟨.illegalCommand, 2, op⟩ := by
  simp [requireTree, h]

end Sys2Proof.Machine
end

