-- ==== Sys2Proof/Laws/Trees.lean ====
section
/-! SUPPORT. Leaves, paths and codes of a tree: the paths are the positions of the leaves, no path is a
proper start of another (R86), and GENCODES records them (R85, R88). -/

namespace Sys2Proof

variable {P : Params}

@[simp] theorem syms_strip (t : PrefixTree P) : t.strip.syms = t.syms := by
  induction t <;> simp_all [PrefixTree.strip, PrefixTree.syms]

@[simp] theorem nodes_strip (t : PrefixTree P) : t.strip.nodes = t.nodes := by
  induction t <;> simp_all [PrefixTree.strip, PrefixTree.nodes]

@[simp] theorem paths_strip (t : PrefixTree P) : t.strip.paths = t.paths := by
  induction t <;> simp_all [PrefixTree.strip, PrefixTree.paths]

@[simp] theorem codeFor_strip (t : PrefixTree P) (s : Nat) : t.strip.codeFor s = t.codeFor s := by
  simp [PrefixTree.codeFor]

@[simp] theorem codesOf_strip (t : PrefixTree P) : codesOf t.strip = codesOf t := by
  simp [codesOf]

theorem leaves_syms (t : PrefixTree P) : t.leaves.map Prod.fst = t.syms := by
  induction t <;> simp_all [PrefixTree.leaves, PrefixTree.syms]

theorem paths_syms (t : PrefixTree P) : t.paths.map Prod.fst = t.syms := by
  induction t with
  | leaf s w => rfl
  | node l r w ihl ihr =>
    simp [PrefixTree.paths, PrefixTree.syms, ← ihl, ← ihr, Function.comp_def]

/-- A strict binary tree with `L` leaves has `2L − 1` nodes. -/
theorem nodes_leaves (t : PrefixTree P) : t.nodes + 1 = 2 * t.leaves.length := by
  induction t with
  | leaf s w => rfl
  | node l r w ihl ihr => simp [PrefixTree.nodes, PrefixTree.leaves]; omega

theorem leaves_length_syms (t : PrefixTree P) : t.leaves.length = t.syms.length := by
  rw [← leaves_syms, List.length_map]

theorem leaves_pos (t : PrefixTree P) : 0 < t.leaves.length := by
  have := nodes_leaves t
  cases t <;> simp [PrefixTree.nodes] at this <;> omega

/-- The paths are exactly the positions of the leaves. -/
theorem mem_paths {t : PrefixTree P} {s : Sym} {p : Bits} : (s, p) ∈ t.paths ↔ t.leafAt p = some s := by
  induction t generalizing p with
  | leaf a w =>
    cases p with
    | nil => simp [PrefixTree.paths, PrefixTree.leafAt, eq_comm]
    | cons b p => simp [PrefixTree.paths, PrefixTree.leafAt]
  | node l r w ihl ihr =>
    match p with
    | [] => simp [PrefixTree.paths, PrefixTree.leafAt]
    | false :: p => simp [PrefixTree.paths, PrefixTree.leafAt, ← ihl]
    | true :: p => simp [PrefixTree.paths, PrefixTree.leafAt, ← ihr]

/-- The leaf a path leads to is one of the tree's leaves. -/
theorem leafAt_mem {t : PrefixTree P} {p : Bits} {a : Sym} (h : t.leafAt p = some a) : a ∈ t.syms := by
  rw [← paths_syms]
  exact List.mem_map_of_mem (f := Prod.fst) (mem_paths.mpr h)

/-- No path to a leaf is a proper start of another. -/
theorem leafAt_append {t : PrefixTree P} {p q : Bits} {a b : Sym} (hp : t.leafAt p = some a)
    (hq : t.leafAt (p ++ q) = some b) : q = [] := by
  induction t generalizing p with
  | leaf s w =>
    match p, q with
    | [], [] => rfl
    | [], _ :: _ => simp [PrefixTree.leafAt] at hq
    | _ :: _, _ => simp [PrefixTree.leafAt] at hp
  | node l r w ihl ihr =>
    match p with
    | [] => simp [PrefixTree.leafAt] at hp
    | false :: p => exact ihl (by simpa [PrefixTree.leafAt] using hp) (by simpa [PrefixTree.leafAt] using hq)
    | true :: p => exact ihr (by simpa [PrefixTree.leafAt] using hp) (by simpa [PrefixTree.leafAt] using hq)

/-- No leaf is deeper than the number of internal nodes. -/
theorem leafAt_length {t : PrefixTree P} {p : Bits} {s : Sym} (h : t.leafAt p = some s) :
    2 * p.length + 1 ≤ t.nodes := by
  induction t generalizing p with
  | leaf a w =>
    cases p with
    | nil => simp [PrefixTree.nodes]
    | cons b p => simp [PrefixTree.leafAt] at h
  | node l r w ihl ihr =>
    have pos : ∀ t : PrefixTree P, 1 ≤ t.nodes := fun t => by cases t <;> simp [PrefixTree.nodes]
    match p with
    | [] => simp [PrefixTree.leafAt] at h
    | false :: p =>
      have := ihl (by simpa [PrefixTree.leafAt] using h)
      have := pos r
      simp [PrefixTree.nodes]; omega
    | true :: p =>
      have := ihr (by simpa [PrefixTree.leafAt] using h)
      have := pos l
      simp [PrefixTree.nodes]; omega

theorem codeFor_leafAt {t : PrefixTree P} {s : Nat} {p : Bits} (h : t.codeFor s = some p) :
    t.leafAt p = some (BitVec.ofNat 9 s) := by
  obtain ⟨⟨a, q⟩, hlast, hq⟩ := Option.map_eq_some_iff.mp h
  have hmem := List.mem_of_getLast? hlast
  rw [List.mem_filter] at hmem
  simp only at hq
  subst hq
  have ha : a.toNat = s := by simpa using hmem.2
  subst ha
  simpa using mem_paths.mp hmem.1

/-- A symbol has a code exactly when it is a leaf. -/
theorem codeFor_isSome {t : PrefixTree P} {s : Nat} :
    (t.codeFor s).isSome = true ↔ ∃ a ∈ t.syms, a.toNat = s := by
  rw [PrefixTree.codeFor, Option.isSome_map, ← paths_syms]
  rw [List.getLast?_isSome, ← List.length_pos_iff, List.length_pos_iff_exists_mem]
  constructor
  · rintro ⟨⟨a, q⟩, h⟩
    rw [List.mem_filter] at h
    exact ⟨a, List.mem_map_of_mem h.1, by simpa using h.2⟩
  · rintro ⟨a, h, rfl⟩
    obtain ⟨⟨a', q⟩, hmem, rfl⟩ := List.mem_map.mp h
    exact ⟨(a', q), List.mem_filter.mpr ⟨hmem, by simp⟩⟩

theorem codeFor_leaf (a : Sym) (w : Weight P) (s : Nat) :
    (PrefixTree.leaf a w).codeFor s = if a.toNat = s then some [] else none := by
  by_cases h : a.toNat = s <;> simp [PrefixTree.codeFor, PrefixTree.paths, h]

/-- The last leaf of a symbol in preorder is in the right subtree if it is there at all. -/
theorem codeFor_node (l r : PrefixTree P) (w : Weight P) (s : Nat) :
    (PrefixTree.node l r w).codeFor s =
      ((r.codeFor s).map (true :: ·)).or ((l.codeFor s).map (false :: ·)) := by
  simp only [PrefixTree.codeFor, PrefixTree.paths, List.filter_append, List.getLast?_append, List.filter_map,
    List.getLast?_map, Function.comp_def]
  cases ((r.paths.filter fun e => e.1.toNat == s).getLast?) <;>
    cases ((l.paths.filter fun e => e.1.toNat == s).getLast?) <;> rfl

namespace Machine

theorem codeOf_recordCode (ct : CodeTable) (a : Nat) (p : Bits) {s : Nat} (hs : s < 257) :
    codeOf (recordCode ct a p) s = if a = s then some p else codeOf ct s := by
  unfold recordCode codeOf
  rw [dif_pos hs, dif_pos hs]
  split
  · rw [Vector.getElem_set]
  · rw [if_neg (by omega)]

@[simp] theorem codeOf_noCodes (s : Nat) : codeOf noCodes s = none := by
  simp [codeOf, noCodes]

theorem codeOf_codesOf (t : PrefixTree P) {s : Nat} (hs : s < 257) : codeOf (codesOf t) s = t.codeFor s := by
  simp [codeOf, codesOf, hs]

theorem codeOf_lt {ct : CodeTable} {s : Nat} {p : Bits} (h : codeOf ct s = some p) : s < 257 := by
  unfold codeOf at h
  split at h
  · assumption
  · cases h

theorem codeTable_ext {a b : CodeTable} (h : ∀ s, s < 257 → codeOf a s = codeOf b s) : a = b := by
  apply Vector.ext
  intro i hi
  simpa [codeOf, hi] using h i hi

/-- The walk of GENCODES adds the paths of a tree behind `p` to a table. -/
theorem codeOf_walk (t : PrefixTree P) (p : Bits) (ct : CodeTable) {s : Nat} (hs : s < 257) :
    codeOf (walk t p ct) s = ((t.codeFor s).map (p ++ ·)).or (codeOf ct s) := by
  induction t generalizing p ct with
  | leaf a w =>
    rw [walk, codeOf_recordCode _ _ _ hs, codeFor_leaf]
    split <;> simp
  | node l r w ihl ihr =>
    rw [walk, ihr, ihl, codeFor_node]
    cases r.codeFor s <;> cases l.codeFor s <;> simp

/-- GENCODES fills the code table of the tree. -/
theorem walk_eq_codesOf (t : PrefixTree P) : walk t [] noCodes = codesOf t := by
  apply codeTable_ext
  intro s hs
  rw [codeOf_walk t [] _ hs, codeOf_codesOf t hs]
  cases t.codeFor s <;> simp

end Machine
end Sys2Proof
end

