-- ==== Sys2Proof/Laws/Builder.lean ====
section
/-! SUPPORT. The tree builder: removing the least element, one merge, and what the finished tree holds,
for every order of the priority collection (R76 to R82). -/

namespace Sys2Proof.Machine
open Sys2Proof

variable {P : Params}

variable {before : PqEntry P → PqEntry P → Bool}

theorem extractMin_perm (e : PqEntry P) (es : List (PqEntry P)) :
    ((extractMin before e es).1 :: (extractMin before e es).2).Perm (e :: es) := by
  induction es generalizing e with
  | nil => rfl
  | cons x xs ih =>
    rw [extractMin]
    simp only
    split
    · exact (List.Perm.swap e _ _).trans ((ih x).cons e)
    · exact (ih x).cons e

theorem removeMin_perm {pq rest : List (PqEntry P)} {m : PqEntry P}
    (h : removeMin before pq = some (m, rest)) : (m :: rest).Perm pq := by
  cases pq with
  | nil => cases h
  | cons e es =>
    simp only [removeMin, Option.some.injEq] at h
    have := extractMin_perm (before := before) e es
    rwa [h] at this

theorem removeMin_eq_none {pq : List (PqEntry P)} : removeMin before pq = none ↔ pq = [] := by
  cases pq <;> simp [removeMin]

/-- Nothing that stays behind comes before the element removed (R77). -/
theorem extractMin_least (hb : LegalTieBreak before) (e : PqEntry P) (es : List (PqEntry P))
    (hseq : ((e :: es).map PqEntry.seq).Nodup) :
    ∀ x ∈ (extractMin before e es).2, before (extractMin before e es).1 x = true := by
  induction es generalizing e with
  | nil => intro x hx; cases hx
  | cons y ys ih =>
    rw [List.map_cons, List.nodup_cons] at hseq
    have ihy := ih y hseq.2
    have hperm := extractMin_perm (before := before) y ys
    rw [extractMin]
    simp only
    split
    · next hme =>
      intro x hx
      rcases List.mem_cons.mp hx with rfl | hx
      · exact hme
      · exact ihy x hx
    · next hme =>
      intro x hx
      have hne : e.seq ≠ (extractMin before y ys).1.seq := by
        intro h
        apply hseq.1
        rw [h]
        exact List.mem_map_of_mem (hperm.mem_iff.mp List.mem_cons_self)
      have hem : before e (extractMin before y ys).1 = true :=
        (hb.total _ _ hne).resolve_right hme
      rcases List.mem_cons.mp hx with rfl | hx
      · exact hem
      · exact hb.trans _ _ _ hem (ihy x hx)

/-- `removeMin` removes the least element (R77). -/
theorem removeMin_least (hb : LegalTieBreak before) {pq rest : List (PqEntry P)} {m : PqEntry P}
    (hseq : (pq.map PqEntry.seq).Nodup) (h : removeMin before pq = some (m, rest)) :
    ∀ x ∈ rest, before m x = true := by
  cases pq with
  | nil => cases h
  | cons e es =>
    simp only [removeMin, Option.some.injEq] at h
    have := extractMin_least hb e es hseq
    rwa [h] at this

/-- The hardware's order is a legal one. -/
theorem tieBreak_legal : LegalTieBreak (tieBreak (P := P)) where
  irrefl a := by simp [tieBreak]
  trans a b c := by simp only [tieBreak, Bool.or_eq_true, Bool.and_eq_true, decide_eq_true_eq]; omega
  total a b h := by simp only [tieBreak, Bool.or_eq_true, Bool.and_eq_true, decide_eq_true_eq]; omega
  refines a b h := by simp [tieBreak, h]

/-- One turn of the loop: what holds of a collection of at least two elements and is kept by every
merge of two of them holds of the collection the loop ends with. -/
theorem mergeLoop_keeps {K : List (PqEntry P) → Prop}
    (hstep : ∀ pq a b others seq, K pq → (a :: b :: others).Perm pq →
      K (others ++ [mergeEntries a b seq]))
    (n : Nat) (pq : List (PqEntry P)) (seq : Nat) (h : K pq) : K (mergeLoop before n pq seq) := by
  induction n generalizing pq seq with
  | zero => exact h
  | succ n ih =>
    rw [mergeLoop]
    cases h1 : removeMin before pq with
    | none => exact h
    | some m1 =>
      obtain ⟨a, pq1⟩ := m1
      simp only
      cases h2 : removeMin before pq1 with
      | none => exact h
      | some m2 =>
        obtain ⟨b, pq2⟩ := m2
        exact ih _ _ (hstep pq a b pq2 seq h
          (((removeMin_perm h2).cons a).trans (removeMin_perm h1)))

/-- The loop ends with one element when it starts with at least one. -/
theorem mergeLoop_length (n : Nat) (pq : List (PqEntry P)) (seq : Nat) (hne : pq ≠ [])
    (hn : pq.length ≤ n + 1) : (mergeLoop before n pq seq).length = 1 := by
  induction n generalizing pq seq with
  | zero =>
    rw [mergeLoop]
    have := List.length_pos_iff.mpr hne
    omega
  | succ n ih =>
    rw [mergeLoop]
    cases h1 : removeMin before pq with
    | none => exact absurd (removeMin_eq_none.mp h1) hne
    | some m1 =>
      obtain ⟨a, pq1⟩ := m1
      have hp1 := (removeMin_perm h1).length_eq
      simp only
      cases h2 : removeMin before pq1 with
      | none =>
        rw [removeMin_eq_none.mp h2] at hp1
        simpa using hp1.symm
      | some m2 =>
        obtain ⟨b, pq2⟩ := m2
        have hp2 := (removeMin_perm h2).length_eq
        simp only [List.length_cons] at hp1 hp2
        exact ih _ _ (by simp) (by simp; omega)

/-- The leaves of all trees of a collection. -/
def allLeaves (pq : List (PqEntry P)) : List (Sym × Weight P) := pq.flatMap fun e => e.tree.leaves

theorem allLeaves_perm {p q : List (PqEntry P)} (h : p.Perm q) : (allLeaves p).Perm (allLeaves q) :=
  h.flatMap_right _

/-- No merge loses or changes a leaf. -/
theorem mergeLoop_leaves (n : Nat) (pq : List (PqEntry P)) (seq : Nat) :
    (allLeaves (mergeLoop before n pq seq)).Perm (allLeaves pq) := by
  apply mergeLoop_keeps (K := fun q => (allLeaves q).Perm (allLeaves pq))
  · intro q a b others sq hq hperm
    refine List.Perm.trans ?_ ((allLeaves_perm hperm).trans hq)
    simp only [allLeaves, List.flatMap_append, List.flatMap_cons, List.flatMap_nil,
      List.append_nil, mergeEntries, PrefixTree.leaves]
    exact List.perm_append_comm.trans (by rw [List.append_assoc])
  · rfl

/-- The total weight of a collection. -/
def totalWeight (pq : List (PqEntry P)) : Nat := (pq.map fun e => (weightOf e.tree).toNat).sum

theorem totalWeight_perm {p q : List (PqEntry P)} (h : p.Perm q) : totalWeight p = totalWeight q :=
  (h.map _).sum_nat

theorem addWeights_exact {seq : Nat} {a b : Weight P} (h : a.toNat + b.toNat < 2 ^ P.weightW) :
    (addWeights seq a b).toNat = a.toNat + b.toNat := by
  rw [addWeights, if_pos h, BitVec.toNat_add, Nat.mod_eq_of_lt h]

/-- While the total fits, every merge adds exactly and the total stays the same (R82). -/
theorem mergeLoop_weights {T : Nat} (hT : T < 2 ^ P.weightW) (n : Nat) (pq : List (PqEntry P)) (seq : Nat)
    (htotal : totalWeight pq = T) (hadd : ∀ e ∈ pq, e.tree.WeightsAdd) :
    totalWeight (mergeLoop before n pq seq) = T ∧
      ∀ e ∈ mergeLoop before n pq seq, e.tree.WeightsAdd := by
  apply mergeLoop_keeps (K := fun q => totalWeight q = T ∧ ∀ e ∈ q, e.tree.WeightsAdd)
  · rintro q a b others sq ⟨hq, hqa⟩ hperm
    have ht := (totalWeight_perm hperm).trans hq
    have hab : (weightOf a.tree).toNat + (weightOf b.tree).toNat < 2 ^ P.weightW := by
      simp only [totalWeight, List.map_cons, List.sum_cons] at ht
      omega
    have hw := addWeights_exact (seq := sq) hab
    refine ⟨?_, ?_⟩
    · rw [← ht]
      simp only [totalWeight, List.map_append, List.map_cons, List.map_nil, List.sum_append,
        List.sum_cons, List.sum_nil, mergeEntries, weightOf]
      simp only [weightOf] at hw
      rw [hw]; omega
    · intro e he
      rcases List.mem_append.mp he with he | he
      · exact hqa e (hperm.mem_iff.mp (List.mem_cons_of_mem _ (List.mem_cons_of_mem _ he)))
      · rw [List.mem_singleton] at he
        subst he
        exact ⟨hw, hqa a (hperm.mem_iff.mp (by simp)), hqa b (hperm.mem_iff.mp (by simp))⟩
  · exact ⟨htotal, hadd⟩

/-- The leaves the builder starts with. -/
theorem mem_leavesFrom {sym seq : Nat} {ws : List (Weight P)} {e : PqEntry P}
    (h : e ∈ leavesFrom sym seq ws) :
    ∃ i, ∃ hi : i < ws.length, ws[i] ≠ 0 ∧ e.tree = .leaf (BitVec.ofNat 9 (sym + i)) ws[i] := by
  induction ws generalizing sym seq with
  | nil => cases h
  | cons w ws ih =>
    rw [leavesFrom] at h
    split at h
    · obtain ⟨i, hi, hne, he⟩ := ih h
      exact ⟨i + 1, by simp; omega, by simpa using hne, by
        simpa [Nat.add_assoc, Nat.add_comm 1] using he⟩
    · next hw =>
      rcases List.mem_cons.mp h with rfl | h
      · exact ⟨0, by simp, by simpa using hw, by simp⟩
      · obtain ⟨i, hi, hne, he⟩ := ih h
        exact ⟨i + 1, by simp; omega, by simpa using hne, by
          simpa [Nat.add_assoc, Nat.add_comm 1] using he⟩

/-- The leaf of an entry of the weight table at a symbol, none for a weight of 0 (R76). -/
def positiveLeaf (x : Weight P × Nat) : Option (Sym × Weight P) :=
  if x.1 = 0 then none else some (BitVec.ofNat 9 x.2, x.1)

theorem positiveLeaf_zero {x : Weight P × Nat} (h : x.1 = 0) : positiveLeaf x = none := if_pos h

theorem positiveLeaf_pos {x : Weight P × Nat} (h : ¬ x.1 = 0) :
    positiveLeaf x = some (BitVec.ofNat 9 x.2, x.1) := if_neg h

/-- The leaves the builder starts with are those of the positive weights, in order of symbol. -/
theorem allLeaves_leavesFrom (sym seq : Nat) (ws : List (Weight P)) :
    allLeaves (leavesFrom sym seq ws) =
      (ws.zipIdx sym).filterMap positiveLeaf := by
  induction ws generalizing sym seq with
  | nil => rfl
  | cons w ws ih =>
    rw [leavesFrom, List.zipIdx_cons]
    by_cases hw : w = 0
    · rw [if_pos hw, ih, List.filterMap_cons_none (positiveLeaf_zero hw)]
    · rw [if_neg hw, List.filterMap_cons_some (positiveLeaf_pos hw), ← ih _ (seq + 1)]
      rfl

theorem totalWeight_leavesFrom (sym seq : Nat) (ws : List (Weight P)) :
    totalWeight (leavesFrom sym seq ws) = (ws.map BitVec.toNat).sum := by
  induction ws generalizing sym seq with
  | nil => rfl
  | cons w ws ih =>
    rw [leavesFrom]
    split
    · next hw => rw [ih, hw]; simp
    · have := ih (sym + 1) (seq + 1)
      simp only [totalWeight] at this
      rw [totalWeight, List.map_cons, List.sum_cons, this]
      rfl

theorem leavesFrom_length_le (sym seq : Nat) (ws : List (Weight P)) :
    (leavesFrom sym seq ws).length ≤ ws.length := by
  induction ws generalizing sym seq with
  | nil => exact Nat.le_refl 0
  | cons w ws ih =>
    rw [leavesFrom]
    split
    · have := ih (sym + 1) seq; simp; omega
    · have := ih (sym + 1) (seq + 1); simp; omega

theorem leavesFrom_eq_nil {sym seq : Nat} {ws : List (Weight P)} :
    leavesFrom sym seq ws = [] ↔ ∀ w ∈ ws, w = 0 := by
  induction ws generalizing sym seq with
  | nil => simp [leavesFrom]
  | cons w ws ih =>
    rw [leavesFrom]
    split
    · next hw => simp [ih, hw]
    · next hw => exact iff_of_false (fun h => nomatch h) fun h => hw (h w List.mem_cons_self)

/-- The stamps of the leaves are distinct. -/
theorem leavesFrom_seq (sym seq : Nat) (ws : List (Weight P)) :
    ((leavesFrom sym seq ws).map PqEntry.seq) = List.range' seq (leavesFrom sym seq ws).length := by
  induction ws generalizing sym seq with
  | nil => rfl
  | cons w ws ih =>
    rw [leavesFrom]
    split
    · exact ih _ _
    · rw [List.map_cons, List.length_cons, ih, List.range'_succ]

/-- The leaves made from a part of the table are those of its positive entries, stamped in order. -/
theorem leavesFrom_eq (sym seq : Nat) (ws : List (Weight P)) :
    leavesFrom sym seq ws = (((ws.zipIdx sym).filter fun e => e.1 ≠ 0).zipIdx seq).map fun e =>
      ⟨.leaf (BitVec.ofNat 9 e.1.2) e.1.1, e.2⟩ := by
  induction ws generalizing sym seq with
  | nil => rfl
  | cons w ws ih =>
    rw [leavesFrom, List.zipIdx_cons]
    by_cases hw : w = 0
    · rw [if_pos hw, ih, List.filter_cons_of_neg (by simpa using hw)]
    · rw [if_neg hw, ih, List.filter_cons_of_pos (by simpa using hw)]; rfl

/-- The builder starts with the collection of R76. -/
theorem leavesFrom_start (wt : WeightTable P) : leavesFrom 0 0 wt.toList = startCollection wt :=
  leavesFrom_eq 0 0 _

/-- The loop merges as R78 says, down to one tree. -/
theorem mergeLoop_merges (hb : LegalTieBreak before) (n : Nat) (pq : List (PqEntry P)) (seq : Nat)
    (hne : pq ≠ []) (hn : pq.length ≤ n + 1) (hnd : (pq.map PqEntry.seq).Nodup)
    (hlt : ∀ e ∈ pq, e.seq < seq) :
    ∃ e, mergeLoop before n pq seq = [e] ∧ Merges before pq seq e.tree := by
  induction n generalizing pq seq with
  | zero =>
    obtain ⟨e, rfl⟩ := List.length_eq_one_iff.mp
      (Nat.le_antisymm hn (List.length_pos_iff.mpr hne))
    exact ⟨e, rfl, .done e seq⟩
  | succ n ih =>
    rw [mergeLoop]
    cases h1 : removeMin before pq with
    | none => exact absurd (removeMin_eq_none.mp h1) hne
    | some m1 =>
      obtain ⟨a, pq1⟩ := m1
      have hp1 := removeMin_perm h1
      have hnd1 := (hp1.map PqEntry.seq).nodup_iff.mpr hnd
      simp only
      cases h2 : removeMin before pq1 with
      | none =>
        rw [removeMin_eq_none.mp h2] at hp1
        obtain rfl := List.singleton_perm.mp hp1
        exact ⟨a, rfl, .done a seq⟩
      | some m2 =>
        obtain ⟨b, pq2⟩ := m2
        have hp2 := removeMin_perm h2
        have hp := (hp2.cons a).trans hp1
        have hsub : pq2.Sublist (a :: b :: pq2) :=
          (List.sublist_cons_self b _).trans (List.sublist_cons_self a _)
        have hlt2 : ∀ e ∈ pq2, e.seq < seq := fun e he => hlt e (hp.mem_iff.mp (hsub.mem he))
        have hnd2 := ((hp.map PqEntry.seq).nodup_iff.mpr hnd).sublist (hsub.map _)
        have hlen := hp.length_eq
        simp only [List.length_cons] at hlen
        obtain ⟨e, he, hm⟩ := ih (pq2 ++ [mergeEntries a b seq]) (seq + 1) (by simp)
          (by simp; omega)
          (by
            rw [List.map_append, List.nodup_append]
            refine ⟨hnd2, by simp, fun x hx y hy => ?_⟩
            obtain ⟨u, hu, rfl⟩ := List.mem_map.mp hx
            obtain rfl : y = seq := by simpa [mergeEntries] using hy
            exact Nat.ne_of_lt (hlt2 u hu))
          (fun u hu => by
            rcases List.mem_append.mp hu with hu | hu
            · exact Nat.lt_succ_of_lt (hlt2 u hu)
            · rw [List.mem_singleton] at hu
              subst hu
              exact Nat.lt_succ_self seq)
        rw [List.map_cons, List.nodup_cons] at hnd1
        exact ⟨e, he, .step hp.symm
          (fun x hx => removeMin_least hb hnd h1 x (hp2.mem_iff.mp hx))
          (removeMin_least hb hnd1.2 h2) hm⟩

/-- A collection merges to one tree only, in whatever order its elements are listed (R77: "the order is
total and `removeMin` is a function"). -/
theorem Merges.unique (hb : LegalTieBreak before) {pq pq' : List (PqEntry P)} {seq : Nat}
    {t t' : PrefixTree P} (h : Merges before pq seq t) (hp : pq.Perm pq')
    (h' : Merges before pq' seq t') : t = t' := by
  have least : ∀ {a a' : PqEntry P} {l l' : List (PqEntry P)}, (a :: l).Perm (a' :: l') →
      (∀ x ∈ l, before a x = true) → (∀ x ∈ l', before a' x = true) → a = a' ∧ l.Perm l' := by
    intro a a' l l' hp hl hl'
    have haa : a = a' := by
      rcases List.mem_cons.mp (hp.mem_iff.mp List.mem_cons_self) with h | h
      · exact h
      · rcases List.mem_cons.mp (hp.mem_iff.mpr List.mem_cons_self) with h2 | h2
        · exact h2.symm
        · have := hb.trans _ _ _ (hl _ h2) (hl' _ h)
          rw [hb.irrefl] at this
          cases this
    subst haa
    exact ⟨rfl, List.perm_cons a |>.mp hp⟩
  induction h generalizing pq' t' with
  | done e seq =>
    cases h' with
    | done e' => rw [List.singleton_perm.mp hp |> List.singleton_inj.mp]
    | step hq _ _ _ => exact absurd (hp.trans hq).length_eq (by simp)
  | step hq ha hbl _ ih =>
    cases h' with
    | done e' => exact absurd (hq.symm.trans hp).length_eq (by simp)
    | step hq' ha' hbl' h' =>
      obtain ⟨rfl, hp1⟩ := least ((hq.symm.trans hp).trans hq') ha ha'
      obtain ⟨rfl, hp2⟩ := least hp1 hbl hbl'
      exact ih (hp2.append_right _) h'

/-- The positive entries of a weight table as leaves, in ascending order of symbol (R76). -/
def positiveLeaves (wt : WeightTable P) : List (Sym × Weight P) :=
  (wt.toList.zipIdx 0).filterMap positiveLeaf

theorem mem_positiveLeaves {wt : WeightTable P} {s : Sym} {w : Weight P} :
    (s, w) ∈ positiveLeaves wt ↔ ∃ h : s.toNat < 257, wt[s.toNat] = w ∧ w ≠ 0 := by
  simp only [positiveLeaves, List.mem_filterMap, List.mem_zipIdx_iff_getElem?, Prod.exists]
  constructor
  · rintro ⟨w', i, hget, hif⟩
    unfold positiveLeaf at hif
    split at hif
    · cases hif
    · next hw =>
      simp only [Option.some.injEq, Prod.mk.injEq] at hif
      obtain ⟨rfl, rfl⟩ := hif
      obtain ⟨hi, hget⟩ := List.getElem?_eq_some_iff.mp hget
      have hi' : i < 257 := by simpa using hi
      have hs : (BitVec.ofNat 9 i).toNat = i := by
        rw [BitVec.toNat_ofNat]; exact Nat.mod_eq_of_lt (by omega)
      refine ⟨by omega, ?_, hw⟩
      simp only [hs]
      simpa using hget
  · rintro ⟨h, rfl, hw⟩
    refine ⟨wt[s.toNat], s.toNat, ?_, by rw [positiveLeaf_pos hw]; simp⟩
    rw [List.getElem?_eq_some_iff]
    exact ⟨by simpa using h, by simp⟩

theorem positiveLeaves_nodup (wt : WeightTable P) : ((positiveLeaves wt).map Prod.fst).Nodup := by
  have key : ∀ (ws : List (Weight P)) (k : Nat), k + ws.length ≤ 512 →
      (((ws.zipIdx k).filterMap positiveLeaf).map Prod.fst).Nodup ∧
      ∀ s ∈ (((ws.zipIdx k).filterMap positiveLeaf).map Prod.fst), k ≤ BitVec.toNat s := by
    intro ws
    induction ws with
    | nil => intro k _; simp
    | cons w ws ih =>
      intro k hk
      rw [List.length_cons] at hk
      obtain ⟨hnd, hle⟩ := ih (k + 1) (by omega)
      have hsk : (BitVec.ofNat 9 k).toNat = k := by
        rw [BitVec.toNat_ofNat]; exact Nat.mod_eq_of_lt (by omega)
      rw [List.zipIdx_cons]
      by_cases hw : w = 0
      · rw [List.filterMap_cons_none (positiveLeaf_zero hw)]
        exact ⟨hnd, fun s hs => Nat.le_of_succ_le (hle s hs)⟩
      · rw [List.filterMap_cons_some (positiveLeaf_pos hw), List.map_cons,
          List.nodup_cons]
        refine ⟨⟨fun hmem => ?_, hnd⟩, fun s hs => ?_⟩
        · have := hle _ hmem
          rw [hsk] at this
          omega
        · rcases List.mem_cons.mp hs with rfl | hs
          · rw [hsk]
          · exact Nat.le_of_succ_le (hle s hs)
  exact (key wt.toList 0 (by simp)).1

/-- BUILD has no tree exactly when no weight is positive (R80). -/
theorem buildTree_eq_none {wt : WeightTable P} :
    buildTree before wt = none ↔ ∀ s, ∀ h : s < 257, wt[s] = 0 := by
  have hz : (∀ s, ∀ h : s < 257, wt[s] = 0) ↔ ∀ w ∈ wt.toList, w = 0 := by
    constructor
    · intro h w hw
      obtain ⟨i, hi, rfl⟩ := Vector.mem_iff_getElem.mp (Vector.mem_toList_iff.mp hw)
      exact h i hi
    · intro h s hs
      exact h _ (Vector.mem_toList_iff.mpr (Vector.getElem_mem hs))
  rw [hz, ← leavesFrom_eq_nil (sym := 0) (seq := 0), buildTree]
  by_cases hnil : leavesFrom 0 0 wt.toList = []
  · simp [hnil, mergeLoop]
  · have hlen := mergeLoop_length (before := before) _ (leavesFrom 0 0 wt.toList)
      (leavesFrom 0 0 wt.toList).length hnil (Nat.le_succ _)
    simp only [hnil, iff_false, Option.map_eq_none_iff, List.head?_eq_none_iff]
    intro h
    rw [h] at hlen
    simp at hlen

/-- The tree BUILD makes is the one that the collection of R76 merges to (R75, R78). -/
theorem buildTree_merges (hb : LegalTieBreak before) {wt : WeightTable P} {t : PrefixTree P}
    (h : buildTree before wt = some t) :
    Merges before (startCollection wt) (startCollection wt).length t := by
  have hnil : leavesFrom 0 0 wt.toList ≠ [] := by
    intro hnil
    rw [buildTree, hnil] at h
    simp [mergeLoop] at h
  have hseq := leavesFrom_seq 0 0 wt.toList
  obtain ⟨e, he, hm⟩ := mergeLoop_merges hb (leavesFrom 0 0 wt.toList).length _
    (leavesFrom 0 0 wt.toList).length hnil (Nat.le_succ _)
    (by rw [hseq]; exact List.nodup_range')
    (fun e he => by
      have := List.mem_map_of_mem (f := PqEntry.seq) he
      rw [hseq, List.mem_range'_1] at this
      omega)
  rw [buildTree, he] at h
  rw [← leavesFrom_start]
  rwa [show e.tree = t from Option.some.inj h] at hm

/-- What the tree of a weight table is (R81): its leaves are those of the positive weights, and while
the sum of the weights fits every internal node adds exactly and the root weighs the sum. -/
theorem buildTree_spec {wt : WeightTable P} {t : PrefixTree P} (h : buildTree before wt = some t) :
    t.leaves.Perm (positiveLeaves wt) ∧
    ((wt.toList.map BitVec.toNat).sum < 2 ^ P.weightW →
      t.WeightsAdd ∧ (weightOf t).toNat = (wt.toList.map BitVec.toNat).sum) := by
  have hnil : leavesFrom 0 0 wt.toList ≠ [] := by
    intro hnil
    rw [buildTree, hnil] at h
    simp [mergeLoop] at h
  have hlen := mergeLoop_length (before := before) _ (leavesFrom 0 0 wt.toList)
    (leavesFrom 0 0 wt.toList).length hnil (Nat.le_succ _)
  obtain ⟨e, he⟩ := List.length_eq_one_iff.mp hlen
  rw [buildTree, he] at h
  simp only [List.head?_cons, Option.map_some, Option.some.injEq] at h
  subst h
  refine ⟨?_, fun hsum => ?_⟩
  · have hl := mergeLoop_leaves (before := before) (leavesFrom 0 0 wt.toList).length
      (leavesFrom 0 0 wt.toList) (leavesFrom 0 0 wt.toList).length
    rw [he, allLeaves_leavesFrom] at hl
    simpa [allLeaves, positiveLeaves] using hl
  · have hadd : ∀ e ∈ leavesFrom 0 0 wt.toList, e.tree.WeightsAdd := by
      intro e he
      obtain ⟨i, hi, -, ht⟩ := mem_leavesFrom he
      rw [ht]; trivial
    have hw := mergeLoop_weights (before := before) hsum (leavesFrom 0 0 wt.toList).length
      (leavesFrom 0 0 wt.toList) (leavesFrom 0 0 wt.toList).length
      (totalWeight_leavesFrom 0 0 _) hadd
    rw [he] at hw
    exact ⟨hw.2 e (by simp), by simpa [totalWeight] using hw.1⟩

theorem buildTree_nodes {wt : WeightTable P} {t : PrefixTree P} (h : buildTree before wt = some t) :
    t.nodes ≤ 2 * Config.maxLeaves - 1 := by
  have hn := nodes_leaves t
  have hl := (buildTree_spec h).1.length_eq
  have hle : (positiveLeaves wt).length ≤ 257 := by
    rw [positiveLeaves]
    refine (List.length_filterMap_le _ _).trans ?_
    simp
  simp only [Config.maxLeaves]
  omega

/-- A symbol is a leaf of the tree exactly when its weight is positive. -/
theorem buildTree_mem {wt : WeightTable P} {t : PrefixTree P} (h : buildTree before wt = some t) {s : Sym} :
    s ∈ t.syms ↔ ∃ hs : s.toNat < 257, wt[s.toNat] ≠ 0 := by
  rw [← leaves_syms, List.mem_map]
  constructor
  · rintro ⟨⟨a, w⟩, hmem, rfl⟩
    obtain ⟨hs, rfl, hw⟩ := mem_positiveLeaves.mp ((buildTree_spec h).1.mem_iff.mp hmem)
    exact ⟨hs, hw⟩
  · rintro ⟨hs, hw⟩
    exact ⟨(s, wt[s.toNat]), (buildTree_spec h).1.mem_iff.mpr
      (mem_positiveLeaves.mpr ⟨hs, rfl, hw⟩), rfl⟩

theorem buildTree_nodup {wt : WeightTable P} {t : PrefixTree P} (h : buildTree before wt = some t) :
    t.syms.Nodup := by
  rw [← leaves_syms]
  exact ((buildTree_spec h).1.map Prod.fst).nodup_iff.mpr (positiveLeaves_nodup wt)

end Sys2Proof.Machine
end

