-- ==== Sys2Proof/Laws/Streams.lean ====
section
/-! SUPPORT. Reading the source: when a read is exhausted, what it returns and where it leaves the
cursor (R31). -/

namespace Sys2Proof.Machine

theorem Source.rest_length (src : Source) : src.rest.length = src.left := by
  simp [Source.rest, Source.left]

/-- A source whose bits from the cursor on start with `p`, moved past them. -/
def Source.skip (src : Source) (n : Nat) : Source := { src with pos := src.pos + n }

@[simp] theorem Source.skip_bits (src : Source) (n : Nat) : (src.skip n).bits = src.bits := rfl
@[simp] theorem Source.skip_pos (src : Source) (n : Nat) : (src.skip n).pos = src.pos + n := rfl
@[simp] theorem Source.skip_zero (src : Source) : src.skip 0 = src := rfl
@[simp] theorem Source.skip_skip (src : Source) (m n : Nat) :
    (src.skip m).skip n = src.skip (m + n) := by
  simp [Source.skip, Nat.add_assoc]

theorem Source.rest_skip (src : Source) (n : Nat) : (src.skip n).rest = src.rest.drop n := by
  simp [Source.rest, Source.skip, List.drop_drop]

theorem Source.rest_skip_append {src : Source} {p x : Bits} (h : src.rest = p ++ x) :
    (src.skip p.length).rest = x := by
  rw [Source.rest_skip, h, List.drop_left]

theorem Source.left_skip (src : Source) (n : Nat) : (src.skip n).left = src.left - n := by
  simp [Source.left, Source.skip]; omega

/-- A read finds the field that stands at the cursor. -/
theorem readBits_field {src : Source} {p x : Bits} (h : src.rest = p ++ x) :
    src.readBits p.length = some (natOf p, src.skip p.length) := by
  have hl : ¬ src.left < p.length := by
    rw [← Source.rest_length, h, List.length_append]; omega
  rw [Source.readBits, if_neg hl, h, List.take_left]
  rfl

theorem readBits_eq_none {src : Source} {n : Nat} : src.readBits n = none ↔ src.left < n := by
  unfold Source.readBits
  split <;> simp_all

/-- Everything a successful read can do. -/
theorem readBits_eq_some {src src' : Source} {n v : Nat} :
    src.readBits n = some (v, src') ↔
      n ≤ src.left ∧ v = natOf (src.rest.take n) ∧ src' = src.skip n := by
  unfold Source.readBits Source.skip
  split
  · simp; omega
  · simp only [Option.some.injEq, Prod.mk.injEq]
    constructor
    · rintro ⟨rfl, rfl⟩; exact ⟨by omega, rfl, rfl⟩
    · rintro ⟨_, rfl, rfl⟩; exact ⟨rfl, rfl⟩

theorem readBits_lt {src src' : Source} {n v : Nat} (h : src.readBits n = some (v, src')) :
    v < 2 ^ n := by
  obtain ⟨hn, rfl, -⟩ := readBits_eq_some.mp h
  have hlen : (src.rest.take n).length = n := by
    rw [List.length_take, Source.rest_length]; omega
  simpa [hlen] using natOf_lt (src.rest.take n)

/-- A read of one bit. -/
theorem readBits_one {src : Source} {b : Bool} {x : Bits} (h : src.rest = b :: x) :
    src.readBits 1 = some (b.toNat, src.skip 1) := by
  have := readBits_field (src := src) (p := [b]) (x := x) h
  simpa [natOf] using this

theorem readBits_of_nil {src : Source} {n : Nat} (h : src.rest = []) (hn : 0 < n) :
    src.readBits n = none := by
  rw [readBits_eq_none, ← Source.rest_length, h]; exact hn

end Sys2Proof.Machine
end

