-- ==== Sys2Proof/Laws/Counter.lean ====
section
/-! SUPPORT. Whole bytes of a bit string, and what COUNT's loop computes. -/

namespace Sys2Proof

variable {P : Params}

theorem bytesOf_field {p x : Bits} (h : p.length = 8) :
    bytesOf (p ++ x) = BitVec.ofNat 8 (natOf p) :: bytesOf x := by
  match p, h with
  | [_, _, _, _, _, _, _, _], _ => rfl

theorem bytesOf_short {p : Bits} (h : p.length < 8) : bytesOf p = [] := by
  match p, h with
  | [], _ => rfl
  | [_], _ => rfl
  | [_, _], _ => rfl
  | [_, _, _], _ => rfl
  | [_, _, _, _], _ => rfl
  | [_, _, _, _, _], _ => rfl
  | [_, _, _, _, _, _], _ => rfl
  | [_, _, _, _, _, _, _], _ => rfl
  | _ :: _ :: _ :: _ :: _ :: _ :: _ :: _ :: _, h => simp at h; omega

@[simp] theorem bitsOfBytes_nil : bitsOfBytes [] = [] := rfl

@[simp] theorem bitsOfBytes_cons (b : Byte) (S : List Byte) :
    bitsOfBytes (b :: S) = bitsOf 8 b.toNat ++ bitsOfBytes S := rfl

theorem bitsOfBytes_append (S T : List Byte) :
    bitsOfBytes (S ++ T) = bitsOfBytes S ++ bitsOfBytes T := by
  simp [bitsOfBytes]

@[simp] theorem bitsOfBytes_length (S : List Byte) : (bitsOfBytes S).length = 8 * S.length := by
  induction S with
  | nil => rfl
  | cons b S ih => simp [ih]; omega

theorem natOf_bitsOf_byte (b : Byte) : natOf (bitsOf 8 b.toNat) = b.toNat :=
  natOf_bitsOf_of_lt b.isLt

/-- Reading the bytes back from their bits; up to 7 bits after them make no byte. -/
theorem bytesOf_bitsOfBytes (S : List Byte) {x : Bits} (hx : x.length < 8) :
    bytesOf (bitsOfBytes S ++ x) = S := by
  induction S with
  | nil => simpa using bytesOf_short hx
  | cons b S ih =>
    rw [bitsOfBytes_cons, List.append_assoc, bytesOf_field (bitsOf_length 8 _), ih,
      natOf_bitsOf_byte, BitVec.ofNat_toNat, BitVec.setWidth_eq]

/-- A bit string is its whole bytes followed by fewer than 8 bits. -/
theorem bits_eq_bytes (p : Bits) :
    ∃ x : Bits, x.length < 8 ∧ p = bitsOfBytes (bytesOf p) ++ x := by
  induction hn : p.length using Nat.strong_induction_on generalizing p with
  | _ n ih =>
    by_cases h : p.length < 8
    · exact ⟨p, h, by simp [bytesOf_short h]⟩
    · obtain ⟨x, hx, hp⟩ := ih (p.drop 8).length (by simp; omega) (p.drop 8) rfl
      refine ⟨x, hx, ?_⟩
      have h8 : (p.take 8).length = 8 := by simp; omega
      have hfield : bitsOf 8 (natOf (p.take 8)) = p.take 8 := by
        have := bitsOf_natOf (p.take 8)
        rwa [h8] at this
      have hlt : natOf (p.take 8) < 2 ^ 8 := by simpa [h8] using natOf_lt (p.take 8)
      conv_lhs => rw [← List.take_append_drop 8 p, hp]
      conv_rhs => rw [← List.take_append_drop 8 p]
      rw [bytesOf_field h8, bitsOfBytes_cons, BitVec.toNat_ofNat, Nat.mod_eq_of_lt hlt, hfield,
        List.append_assoc]

theorem bytesOf_length (p : Bits) : (bytesOf p).length = p.length / 8 := by
  obtain ⟨x, hx, hp⟩ := bits_eq_bytes p
  have := congrArg List.length hp
  rw [List.length_append, bitsOfBytes_length] at this
  omega

namespace Machine

/-- The entry of a symbol after one count. -/
theorem bumpWeight_get (wt : WeightTable P) (r i : Nat) (hi : i < 257) :
    (bumpWeight wt r)[i] = if r = i then wt[i] + 1 else wt[i] := by
  unfold bumpWeight
  split
  · rw [Vector.getElem_set]; split <;> simp_all
  · rw [if_neg (by omega)]

/-- The table after counting the bytes `S` on top of `wt`. -/
theorem bumpAll_get (S : List Byte) (wt : WeightTable P) (i : Nat) (hi : i < 257) :
    (S.foldl (fun wt b => bumpWeight wt b.toNat) wt)[i]
      = wt[i] + BitVec.ofNat P.weightW ((S.map BitVec.toNat).count i) := by
  induction S generalizing wt with
  | nil => simp
  | cons b S ih =>
    rw [List.foldl_cons, ih, bumpWeight_get _ _ _ hi, List.map_cons, List.count_cons]
    by_cases h : b.toNat = i
    · simp only [h, if_true, beq_self_eq_true, BitVec.ofNat_add]
      rw [BitVec.add_assoc, BitVec.add_comm 1]
      rfl
    · simp [h]

/-- COUNT's loop counts the whole bytes from the cursor on and stops after them. -/
theorem countLoop_eq (src : Source) (wt : WeightTable P) :
    countLoop (src.left / 8) src wt =
      (src.skip (8 * (src.left / 8)),
        (bytesOf src.rest).foldl (fun wt b => bumpWeight wt b.toNat) wt) := by
  induction hk : src.left / 8 generalizing src wt with
  | zero =>
    have : src.rest.length < 8 := by rw [Source.rest_length]; omega
    simp [countLoop, bytesOf_short this]
  | succ k ih =>
    have hl : 8 ≤ src.left := by omega
    have h8 : (src.rest.take 8).length = 8 := by
      rw [List.length_take, Source.rest_length]; omega
    have hrest : src.rest = src.rest.take 8 ++ src.rest.drop 8 := (List.take_append_drop 8 _).symm
    have hread := readBits_field hrest
    rw [h8] at hread
    have hlt : natOf (src.rest.take 8) < 2 ^ 8 := by simpa [h8] using natOf_lt (src.rest.take 8)
    have hk' : (src.skip 8).left / 8 = k := by rw [Source.left_skip]; omega
    rw [countLoop, hread]
    simp only
    rw [ih (src.skip 8) _ hk']
    conv_rhs => rw [hrest, bytesOf_field h8]
    rw [List.foldl_cons, BitVec.toNat_ofNat, Nat.mod_eq_of_lt hlt, Source.rest_skip,
      Source.skip_skip]
    congr 2
    omega

/-- The finished table of COUNT is the weight table of the bytes counted. -/
theorem counted_eq_weightsOf (S : List Byte) :
    (S.foldl (fun wt b => bumpWeight wt b.toNat) noWeights).set 256 1 = weightsOf S P := by
  apply Vector.ext
  intro i hi
  rw [Vector.getElem_set, weightsOf, Vector.getElem_ofFn]
  by_cases h : 256 = i
  · subst h; simp [countIn]
  · have h' : ¬ i = 256 := fun e => h e.symm
    rw [if_neg h, bumpAll_get S _ i hi]
    simp [countIn, noWeights, h']

/-- COUNT on an input the block admits. -/
theorem countBody_eq {s : State P} (h : s.src.left / 8 ≤ P.maxInputBytes) :
    countBody s = .ended { s with
      src := s.src.skip (8 * (s.src.left / 8))
      wt := weightsOf (bytesOf s.src.rest) P } := by
  rw [countBody, if_neg (by omega), countLoop_eq]
  simp only [counted_eq_weightsOf]

end Machine
end Sys2Proof
end

