-- ==== Sys2Proof/Laws/Encoder.lean ====
section
/-! SUPPORT. What ENCODE's loop writes, and where it stops at a symbol with no code (R101, R102). -/

namespace Sys2Proof
open Machine

variable {P : Params}

theorem codeWords_append (ct : CodeTable) (A B : List Byte) :
    codeWords ct (A ++ B) = (codeWords ct A).bind fun p => (codeWords ct B).map (p ++ ·) := by
  induction A with
  | nil => simp [codeWords]
  | cons b A ih =>
    rw [List.cons_append, codeWords, codeWords, ih]
    cases codeOf ct b.toNat <;> cases codeWords ct A <;> cases codeWords ct B <;> simp

/-- A byte sequence has all its codes, or it has a first byte without one. -/
theorem codeWords_cases (ct : CodeTable) (S : List Byte) :
    (∃ p, codeWords ct S = some p) ∨
    ∃ A b B p, S = A ++ b :: B ∧ codeWords ct A = some p ∧ codeOf ct b.toNat = none := by
  induction S with
  | nil => exact .inl ⟨[], rfl⟩
  | cons b S ih =>
    cases hb : codeOf ct b.toNat with
    | none => exact .inr ⟨[], b, S, [], rfl, rfl, hb⟩
    | some q =>
      rcases ih with ⟨p, hp⟩ | ⟨A, c, B, p, rfl, hp, hc⟩
      · exact .inl ⟨q ++ p, by simp [codeWords, hb, hp]⟩
      · exact .inr ⟨b :: A, c, B, q ++ p, rfl, by simp [codeWords, hb, hp], hc⟩

theorem bytesOf_first {src : Source} {b : Byte} {S : List Byte}
    (h : bytesOf src.rest = b :: S) :
    src.readBits 8 = some (b.toNat, src.skip 8) ∧ bytesOf (src.skip 8).rest = S ∧
      (src.skip 8).left / 8 + 1 = src.left / 8 := by
  have hlen := bytesOf_length src.rest
  rw [h, Source.rest_length, List.length_cons] at hlen
  have h8 : (src.rest.take 8).length = 8 := by
    rw [List.length_take, Source.rest_length]; omega
  have hrest : src.rest = src.rest.take 8 ++ src.rest.drop 8 := (List.take_append_drop 8 _).symm
  have hread := readBits_field hrest
  rw [h8] at hread
  have hlt : natOf (src.rest.take 8) < 2 ^ 8 := by simpa [h8] using natOf_lt (src.rest.take 8)
  rw [hrest, bytesOf_field h8, List.cons.injEq] at h
  refine ⟨?_, ?_, ?_⟩
  · rw [hread, ← h.1, BitVec.toNat_ofNat, Nat.mod_eq_of_lt hlt]
  · rw [Source.rest_skip, h.2]
  · rw [Source.left_skip]; omega

namespace Machine

theorem writeCode_some {ct : CodeTable} {sym : Nat} {p : Bits} (snk : Sink)
    (h : codeOf ct sym = some p) : writeCode ct sym snk = .ok (snk.writeString p) := by
  simp [writeCode, h]

theorem writeCode_none {ct : CodeTable} {sym : Nat} (snk : Sink)
    (h : codeOf ct sym = none) : writeCode ct sym snk = .error ⟨.missingCode, 0, sym⟩ := by
  simp [writeCode, h]

/-- ENCODE's loop when every byte has a code. -/
theorem encodeLoop_all {ct : CodeTable} {src : Source} {p : Bits} (snk : Sink)
    (h : codeWords ct (bytesOf src.rest) = some p) :
    encodeLoop ct (src.left / 8) src snk =
      (src.skip (8 * (src.left / 8)), snk.writeString p, none) := by
  induction hS : bytesOf src.rest generalizing src snk p with
  | nil =>
    have hl : src.left / 8 = 0 := by
      have := bytesOf_length src.rest
      rw [hS, Source.rest_length] at this
      simpa using this.symm
    rw [hS] at h
    cases h
    simp [hl, encodeLoop]
  | cons b S ih =>
    obtain ⟨hread, hbytes, hleft⟩ := bytesOf_first hS
    rw [hS, codeWords] at h
    cases hb : codeOf ct b.toNat with
    | none => simp [hb] at h
    | some q =>
      cases hq : codeWords ct S with
      | none => simp [hb, hq] at h
      | some rest =>
        simp only [hb, hq, Option.some.injEq] at h
        subst h
        rw [← hleft, encodeLoop, hread]
        simp only [writeCode_some snk hb]
        rw [ih (snk.writeString q) (by rw [hbytes, hq]) hbytes]
        simp only [Source.skip_skip, writeString_writeString]
        rw [Nat.mul_add, Nat.add_comm]

/-- ENCODE's loop at the first byte without a code. -/
theorem encodeLoop_missing {ct : CodeTable} {src : Source} {A B : List Byte} {b : Byte} {p : Bits}
    (snk : Sink) (h : bytesOf src.rest = A ++ b :: B) (hA : codeWords ct A = some p)
    (hb : codeOf ct b.toNat = none) :
    encodeLoop ct (src.left / 8) src snk =
      (src.skip (8 * (A.length + 1)), snk.writeString p, some ⟨.missingCode, 0, b.toNat⟩) := by
  induction A generalizing src snk p with
  | nil =>
    obtain ⟨hread, -, hleft⟩ := bytesOf_first h
    cases hA
    rw [← hleft, encodeLoop, hread]
    simp [writeCode_none snk hb]
  | cons a A ih =>
    obtain ⟨hread, hbytes, hleft⟩ := bytesOf_first h
    rw [codeWords] at hA
    cases ha : codeOf ct a.toNat with
    | none => simp [ha] at hA
    | some q =>
      cases hq : codeWords ct A with
      | none => simp [ha, hq] at hA
      | some rest =>
        simp only [ha, hq, Option.some.injEq] at hA
        subst hA
        rw [← hleft, encodeLoop, hread]
        simp only [writeCode_some snk ha]
        rw [ih (snk.writeString q) hbytes hq]
        simp only [Source.skip_skip, writeString_writeString, List.length_cons]
        rw [Nat.mul_add, Nat.mul_add, Nat.mul_add, Nat.add_comm]

end Machine
end Sys2Proof
end

