-- ==== Sys2Proof/Laws/Header.lean ====
section
/-! SUPPORT. The tree header: its length, its independence of the weights, and everything RDTREE's
recursion can do (R62, R90 to R94). -/

namespace Sys2Proof.Machine
open Sys2Proof

variable {P : Params}

@[simp] theorem ser_leaf (s : Sym) (w : Weight P) : ser (.leaf s w) = true :: bitsOf 9 s.toNat := rfl

@[simp] theorem ser_node (l r : PrefixTree P) (w : Weight P) :
    ser (.node l r w) = false :: (ser l ++ ser r) := rfl

@[simp] theorem ser_strip (t : PrefixTree P) : ser t.strip = ser t := by
  induction t <;> simp_all [PrefixTree.strip]

/-- The header of a tree with `L` leaves has `11·L − 1` bits (R62). -/
theorem ser_length (t : PrefixTree P) : (ser t).length + 1 = 11 * t.leaves.length := by
  induction t with
  | leaf s w => simp [PrefixTree.leaves]
  | node l r w ihl ihr => simp [PrefixTree.leaves]; omega

theorem natOf_bitsOf_sym (s : Sym) : natOf (bitsOf 9 s.toNat) = s.toNat :=
  natOf_bitsOf_of_lt s.isLt

theorem nodes_pos (t : PrefixTree P) : 0 < t.nodes := by cases t <;> simp [PrefixTree.nodes]

/-- RDTREE's recursion on a whole header: the tree without its weights, and exactly its bits read
(R94). -/
theorem des_ser {cap depth count : Nat} {src : Source} {x : Bits} (t : PrefixTree P)
    (hrest : src.rest = ser t ++ x) (hfit : count + t.nodes ≤ cap) (hdepth : cap ≤ depth + count) :
    des (P := P) cap depth count src = .ok (t.strip, count + t.nodes, src.skip (ser t).length) := by
  induction t generalizing depth count src x with
  | leaf s w =>
    obtain ⟨d, rfl⟩ : ∃ d, depth = d + 1 := ⟨depth - 1, by simp [PrefixTree.nodes] at hfit; omega⟩
    have hc : count ≠ cap := by simp [PrefixTree.nodes] at hfit; omega
    rw [ser_leaf, List.cons_append] at hrest
    have h1 : (src.skip 1).rest = bitsOf 9 s.toNat ++ x := by rw [Source.rest_skip, hrest]; rfl
    have h9 := readBits_field h1
    rw [bitsOf_length, natOf_bitsOf_sym] at h9
    rw [des, if_neg hc, readBits_one hrest]
    simp only [Bool.toNat_true, one_ne_zero, if_false, h9]
    simp [PrefixTree.strip, PrefixTree.nodes, Nat.add_comm]
  | node l r w ihl ihr =>
    have hl := nodes_pos l
    have hr := nodes_pos r
    simp only [PrefixTree.nodes] at hfit
    obtain ⟨d, rfl⟩ : ∃ d, depth = d + 1 := ⟨depth - 1, by omega⟩
    have hc : count ≠ cap := by omega
    rw [ser_node, List.cons_append, List.append_assoc] at hrest
    have h1 : (src.skip 1).rest = ser l ++ (ser r ++ x) := by rw [Source.rest_skip, hrest]; rfl
    have h2 : ((src.skip 1).skip (ser l).length).rest = ser r ++ x :=
      Source.rest_skip_append h1
    rw [des, if_neg hc, readBits_one hrest]
    simp only [Bool.toNat_false, if_true]
    rw [ihl (depth := d) h1 (by omega) (by omega)]
    simp only
    rw [ihr (depth := d) h2 (by omega) (by omega)]
    simp only [PrefixTree.strip, PrefixTree.nodes, Source.skip_skip, ser_node, List.length_cons,
      List.length_append]
    congr 3
    · omega
    · congr 1; omega

/-- RDTREE's recursion on a source that ends inside a header: `TruncatedHeaderError` (R92). -/
theorem des_truncated {cap depth count : Nat} {src : Source} {y : Bits} (t : PrefixTree P)
    (hrest : src.rest ++ y = ser t) (hy : y ≠ []) (hfit : count + t.nodes ≤ cap)
    (hdepth : cap ≤ depth + count) :
    ∃ sub k src', des (P := P) cap depth count src = .error (⟨.truncatedHeader, sub, k⟩, src') := by
  induction t generalizing depth count src y with
  | leaf s w =>
    obtain ⟨d, rfl⟩ : ∃ d, depth = d + 1 := ⟨depth - 1, by simp [PrefixTree.nodes] at hfit; omega⟩
    have hc : count ≠ cap := by simp [PrefixTree.nodes] at hfit; omega
    cases hr : src.rest with
    | nil => exact ⟨0, count, src, by rw [des, if_neg hc, readBits_of_nil hr (by omega)]⟩
    | cons b rest =>
      rw [hr, ser_leaf, List.cons_append, List.cons.injEq] at hrest
      obtain ⟨rfl, hrest⟩ := hrest
      have h1 : (src.skip 1).rest = rest := by rw [Source.rest_skip, hr]; rfl
      have hlen := congrArg List.length hrest
      rw [List.length_append, bitsOf_length] at hlen
      have hypos : 0 < y.length := List.length_pos_iff.mpr hy
      have h9 : (src.skip 1).readBits 9 = none := by
        rw [readBits_eq_none, ← Source.rest_length, h1]; omega
      exact ⟨1, count, src.skip 1, by rw [des, if_neg hc, readBits_one hr]; simp [h9]⟩
  | node l r w ihl ihr =>
    have hl := nodes_pos l
    have hrp := nodes_pos r
    simp only [PrefixTree.nodes] at hfit
    obtain ⟨d, rfl⟩ : ∃ d, depth = d + 1 := ⟨depth - 1, by omega⟩
    have hc : count ≠ cap := by omega
    cases hr : src.rest with
    | nil => exact ⟨0, count, src, by rw [des, if_neg hc, readBits_of_nil hr (by omega)]⟩
    | cons b rest =>
      rw [hr, ser_node, List.cons_append, List.cons.injEq] at hrest
      obtain ⟨rfl, hrest⟩ := hrest
      have h1 : (src.skip 1).rest = rest := by rw [Source.rest_skip, hr]; rfl
      rw [des, if_neg hc, readBits_one hr]
      simp only [Bool.toNat_false, if_true]
      rcases List.append_eq_append_iff.mp hrest with ⟨z, hz, hy'⟩ | ⟨z, hz, hz'⟩
      · by_cases hzn : z = []
        · subst hzn
          rw [List.append_nil] at hz
          simp only [List.nil_append] at hy'
          have hok := des_ser (cap := cap) (depth := d) (count := count + 1) (src := src.skip 1)
            (x := []) l (by rw [h1, hz, List.append_nil]) (by omega) (by omega)
          rw [hok]
          simp only
          have h2 : ((src.skip 1).skip (ser l).length).rest ++ y = ser r := by
            rw [Source.rest_skip, h1, hz, List.drop_length, List.nil_append, hy']
          obtain ⟨sub, k, src', he⟩ := ihr (depth := d) (count := count + 1 + l.nodes) h2 hy (by omega) (by omega)
          exact ⟨sub, k, src', by rw [he]⟩
        · obtain ⟨sub, k, src', he⟩ :=
            ihl (depth := d) (count := count + 1) (src := src.skip 1) (by rw [h1, hz]) hzn (by omega) (by omega)
          exact ⟨sub, k, src', by rw [he]⟩
      · have hok := des_ser (cap := cap) (depth := d) (count := count + 1) (src := src.skip 1)
          (x := z) l (by rw [h1, hz]) (by omega) (by omega)
        rw [hok]
        simp only
        have h2 : ((src.skip 1).skip (ser l).length).rest ++ y = ser r := by
          rw [Source.rest_skip, h1, hz, List.drop_left, ← hz']
        obtain ⟨sub, k, src', he⟩ := ihr (depth := d) (count := count + 1 + l.nodes) h2 hy (by omega) (by omega)
        exact ⟨sub, k, src', by rw [he]⟩

/-- Everything RDTREE's recursion can do: a tree whose header stood at the cursor, or one of the faults
of R92 and R93, with only whole records' bits read before it. -/
theorem des_cases {cap depth count : Nat} {src : Source} (hcount : count ≤ cap) :
    (∃ t, des (P := P) cap depth count src = .ok (t, count + t.nodes, src.skip (ser t).length) ∧
      t.strip = t ∧ count + t.nodes ≤ cap ∧ (ser t).length ≤ src.left ∧
      src.rest.take (ser t).length = ser t) ∨
    (∃ n, des (P := P) cap depth count src = .error (⟨.treeOverflow, 0, cap⟩, src.skip n) ∧ n ≤ src.left) ∨
    (∃ sub k n, des (P := P) cap depth count src = .error (⟨.truncatedHeader, sub, k⟩, src.skip n) ∧
      sub ≤ 1 ∧ k < cap ∧ n ≤ src.left) := by
  induction depth generalizing count src with
  | zero => exact .inr (.inl ⟨0, by rw [des, Source.skip_zero], Nat.zero_le _⟩)
  | succ d ih =>
    by_cases hc : count = cap
    · exact .inr (.inl ⟨0, by rw [des, if_pos hc, Source.skip_zero], Nat.zero_le _⟩)
    · cases hr : src.rest with
      | nil =>
        exact .inr (.inr ⟨0, count, 0, by
          rw [des, if_neg hc, readBits_of_nil hr (by omega), Source.skip_zero], by omega, by omega,
          by omega⟩)
      | cons b rest =>
        have hleft : src.left = rest.length + 1 := by rw [← Source.rest_length, hr]; rfl
        have h1 : (src.skip 1).rest = rest := by rw [Source.rest_skip, hr]; rfl
        have hl1 : (src.skip 1).left = rest.length := by rw [← Source.rest_length, h1]
        cases b with
        | false =>
          rcases ih (count := count + 1) (src := src.skip 1) (by omega) with
            ⟨l, hd, hls, hlc, hll, hlt⟩ | ⟨n, hd, hn⟩ | ⟨sub, k, n, hd, hsub, hk, hn⟩
          · rw [h1] at hlt
            rw [hl1] at hll
            have h2 : ((src.skip 1).skip (ser l).length).rest = rest.drop (ser l).length := by
              rw [Source.rest_skip, h1]
            rcases ih (count := count + 1 + l.nodes) (src := (src.skip 1).skip (ser l).length) hlc
              with ⟨r, hd2, hrs, hrc, hrl, hrt⟩ | ⟨n, hd2, hn⟩ | ⟨sub, k, n, hd2, hsub, hk, hn⟩
            · left
              rw [h2] at hrt
              rw [Source.left_skip, hl1] at hrl
              refine ⟨.node l r 0, ?_, ?_, ?_, ?_, ?_⟩
              · rw [des, if_neg hc, readBits_one hr]
                simp only [Bool.toNat_false, if_true, hd, hd2]
                simp only [Source.skip_skip, ser_node, List.length_cons, List.length_append,
                  PrefixTree.nodes]
                congr 3
                · omega
                · congr 1; omega
              · simp [PrefixTree.strip, hls, hrs]
              · simp only [PrefixTree.nodes]; omega
              · simp; omega
              · simp only [ser_node, List.length_cons, List.length_append, List.take_succ_cons]
                rw [List.take_add, hlt, hrt]
            · right; left
              rw [Source.left_skip, hl1] at hn
              refine ⟨1 + (ser l).length + n, ?_, by omega⟩
              rw [des, if_neg hc, readBits_one hr]
              simp only [Bool.toNat_false, if_true, hd]
              rw [hd2]
              simp only [Source.skip_skip]
            · right; right
              rw [Source.left_skip, hl1] at hn
              refine ⟨sub, k, 1 + (ser l).length + n, ?_, hsub, hk, by omega⟩
              rw [des, if_neg hc, readBits_one hr]
              simp only [Bool.toNat_false, if_true, hd]
              rw [hd2]
              simp only [Source.skip_skip]
          · right; left
            refine ⟨1 + n, ?_, by omega⟩
            rw [des, if_neg hc, readBits_one hr]
            simp only [Bool.toNat_false, if_true, hd, Source.skip_skip]
          · right; right
            refine ⟨sub, k, 1 + n, ?_, hsub, hk, by omega⟩
            rw [des, if_neg hc, readBits_one hr]
            simp only [Bool.toNat_false, if_true, hd, Source.skip_skip]
        | true =>
          by_cases h9 : rest.length < 9
          · right; right
            have hread : (src.skip 1).readBits 9 = none := by rw [readBits_eq_none, hl1]; exact h9
            refine ⟨1, count, 1, ?_, by omega, by omega, by omega⟩
            rw [des, if_neg hc, readBits_one hr]
            simp [hread]
          · left
            have h9len : (rest.take 9).length = 9 := by simp; omega
            have hfield : (src.skip 1).rest = rest.take 9 ++ rest.drop 9 := by
              rw [h1, List.take_append_drop]
            have hread := readBits_field hfield
            rw [h9len] at hread
            have hlt : natOf (rest.take 9) < 2 ^ 9 := by simpa [h9len] using natOf_lt (rest.take 9)
            have hsym : (BitVec.ofNat 9 (natOf (rest.take 9))).toNat = natOf (rest.take 9) := by
              rw [BitVec.toNat_ofNat, Nat.mod_eq_of_lt hlt]
            refine ⟨.leaf (BitVec.ofNat 9 (natOf (rest.take 9))) 0, ?_, rfl, ?_, ?_, ?_⟩
            · rw [des, if_neg hc, readBits_one hr]
              simp [hread, PrefixTree.nodes, Nat.add_comm]
            · simp only [PrefixTree.nodes]; omega
            · simp; omega
            · have hb := bitsOf_natOf (rest.take 9)
              rw [h9len] at hb
              simp only [ser_leaf, List.length_cons, bitsOf_length, List.take_succ_cons, hsym]
              rw [hb]

@[simp] theorem records_length (t : PrefixTree P) : t.records.length = t.nodes := by
  induction t with
  | leaf s w => rfl
  | node l r w ihl ihr => simp [PrefixTree.records, PrefixTree.nodes, ihl, ihr]

/-- A header is its records in order (R57). -/
theorem records_flatten (t : PrefixTree P) : t.records.flatten = ser t := by
  induction t with
  | leaf s w => simp [PrefixTree.records, ser]
  | node l r w ihl ihr => simp [PrefixTree.records, ser, ihl, ihr]

/-- RDTREE's recursion where it stops: if it raises `E` when it asks for record `k` of a header, it
raises `E` on that header cut there. -/
theorem des_partial {cap depth count k : Nat} {src : Source} {z : Bits} {E : Raise × Source}
    (t : PrefixTree P) (hk : k < t.nodes) (hrest : src.rest = (t.records.take k).flatten ++ z)
    (hfit : count + k ≤ cap) (hdepth : cap ≤ depth + count)
    (hbase : ∀ d, cap ≤ d + (count + k) →
      des (P := P) cap d (count + k) (src.skip (t.records.take k).flatten.length) = .error E) :
    des (P := P) cap depth count src = .error E := by
  induction t generalizing depth count k src with
  | leaf s w =>
    obtain rfl : k = 0 := by simp only [PrefixTree.nodes] at hk; omega
    simpa using hbase depth (by omega)
  | node l r w ihl ihr =>
    cases k with
    | zero => simpa using hbase depth (by omega)
    | succ j =>
      obtain ⟨d, rfl⟩ : ∃ d, depth = d + 1 := ⟨depth - 1, by omega⟩
      have hl := records_length l
      have hcat : ((PrefixTree.node l r w).records.take (j + 1)).flatten =
          false :: ((l.records.take j).flatten ++ (r.records.take (j - l.nodes)).flatten) := by
        simp [PrefixTree.records, encode, List.take_append, hl]
      rw [hcat] at hrest hbase
      rw [List.cons_append, List.append_assoc] at hrest
      rw [des, if_neg (by omega), readBits_one hrest]
      have h1 : (src.skip 1).rest = (l.records.take j).flatten ++
          ((r.records.take (j - l.nodes)).flatten ++ z) := by
        rw [Source.rest_skip, hrest]; rfl
      simp only [Bool.toNat_false, if_true]
      by_cases hj : j < l.nodes
      · have hzero : j - l.nodes = 0 := by omega
        rw [hzero, List.take_zero, List.flatten_nil, List.nil_append] at h1
        rw [ihl (k := j) (depth := d) (count := count + 1) hj h1 (by omega) (by omega)]
        intro d' hd'
        have hb := hbase d' (by omega)
        rw [hzero, List.take_zero, List.flatten_nil, List.append_nil, List.length_cons] at hb
        rw [Source.skip_skip, Nat.add_comm 1, Nat.add_assoc, Nat.add_comm 1]
        exact hb
      · have hall : l.records.take j = l.records := List.take_of_length_le (by omega)
        rw [hall, records_flatten] at h1 hbase
        simp only [PrefixTree.nodes] at hk
        rw [des_ser (depth := d) l h1 (by omega) (by omega)]
        simp only
        rw [ihr (k := j - l.nodes) (depth := d) (count := count + 1 + l.nodes) (by omega)
          (Source.rest_skip_append h1) (by omega) (by omega)]
        intro d' hd'
        have hb := hbase d' (by omega)
        rw [List.length_cons, List.length_append] at hb
        rw [Source.skip_skip, Source.skip_skip,
          show count + 1 + l.nodes + (j - l.nodes) = count + (j + 1) by omega,
          Nat.add_comm 1]
        exact hb

end Sys2Proof.Machine
end

