-- ==== Sys2Proof/Laws/Decoder.lean ====
section
/-! SUPPORT. What DECODE's loop does with a code word, a payload and a payload cut short (R106, R108,
R110, R112). -/

namespace Sys2Proof.Machine
open Sys2Proof

variable {P : Params}

theorem leafAt_child {cur : PrefixTree P} {b : Bool} {p : Bits} {a : Sym}
    (h : cur.leafAt (b :: p) = some a) : (child cur b.toNat).leafAt p = some a := by
  cases cur with
  | leaf s w => simp [PrefixTree.leafAt] at h
  | node l r w => cases b <;> simpa [PrefixTree.leafAt, child] using h

/-- One code word: the walk ends at its leaf, which ends the decoding or emits a byte (R106). -/
theorem decodeLoop_code {root cur : PrefixTree P} {p x : Bits} {a : Sym} {src : Source} {k : Nat} (snk : Sink)
    (hleaf : cur.leafAt p = some a) (hp : p ≠ []) (hrest : src.rest = p ++ x) (hk : p.length ≤ k) :
    decodeLoop root k cur src snk =
      if a.toNat = Config.term then (src.skip p.length, snk, none)
      else decodeLoop root (k - p.length) root (src.skip p.length) (snk.writeBits 8 a.toNat) := by
  induction p generalizing cur src k with
  | nil => exact absurd rfl hp
  | cons b q ih =>
    obtain ⟨m, rfl⟩ : ∃ m, k = m + 1 := ⟨k - 1, by simp at hk; omega⟩
    have hq := leafAt_child hleaf
    rw [List.cons_append] at hrest
    have h1 : (src.skip 1).rest = q ++ x := by rw [Source.rest_skip, hrest]; rfl
    rw [decodeLoop, readBits_one hrest]
    cases hchild : child cur b.toNat with
    | leaf s w =>
      rw [hchild] at hq
      cases q with
      | cons c q => simp [PrefixTree.leafAt] at hq
      | nil =>
        simp only [PrefixTree.leafAt, Option.some.injEq] at hq
        subst hq
        simp [hchild]
    | node l r w =>
      rw [hchild] at hq
      have hqn : q ≠ [] := by rintro rfl; simp [PrefixTree.leafAt] at hq
      simp only [hchild]
      rw [ih hq hqn h1 (by simp at hk; omega)]
      simp only [Source.skip_skip, List.length_cons, Nat.add_comm 1]
      congr 2
      omega

/-- A payload that ends inside a code word or between two: `TruncatedStreamError` at the end of the
source (R108). -/
theorem decodeLoop_cut {root cur : PrefixTree P} {y : Bits} {a : Sym} {src : Source} (snk : Sink)
    (hleaf : cur.leafAt (src.rest ++ y) = some a) (hy : y ≠ []) :
    decodeLoop root src.left cur src snk =
      (src.skip src.left, snk, some ⟨.truncatedStream, 0, 0⟩) := by
  induction hr : src.rest generalizing cur src with
  | nil =>
    have hl : src.left = 0 := by rw [← Source.rest_length, hr]; rfl
    rw [hl, decodeLoop, Source.skip_zero]
  | cons b q ih =>
    have hl : src.left = q.length + 1 := by rw [← Source.rest_length, hr]; rfl
    rw [hr, List.cons_append] at hleaf
    have hq := leafAt_child hleaf
    have h1 : (src.skip 1).rest = q := by rw [Source.rest_skip, hr]; rfl
    have hl1 : (src.skip 1).left = q.length := by rw [← Source.rest_length, h1]
    rw [hl, decodeLoop, readBits_one hr]
    cases hchild : child cur b.toNat with
    | leaf s w =>
      rw [hchild] at hq
      have : q ++ y ≠ [] := by simp [hy]
      cases hqy : q ++ y with
      | nil => exact absurd hqy this
      | cons c z => rw [hqy] at hq; simp [PrefixTree.leafAt] at hq
    | node l r w =>
      rw [hchild] at hq
      simp only [hchild]
      rw [← hl1, ih (by rw [h1]; exact hq) h1]
      simp [Source.skip_skip, Nat.add_comm]

/-- Every code of the table is a path of the tree to a leaf of its symbol. -/
def CodesArePaths (ct : CodeTable) (t : PrefixTree P) : Prop :=
  ∀ sym p, codeOf ct sym = some p → t.leafAt p = some (BitVec.ofNat 9 sym)

theorem codesArePaths_codesOf (t : PrefixTree P) : CodesArePaths (codesOf t) t := by
  intro sym p h
  rw [codeOf_codesOf t (codeOf_lt h)] at h
  exact codeFor_leafAt h

theorem byte_toSym (b : Byte) : (BitVec.ofNat 9 b.toNat).toNat = b.toNat := by
  rw [BitVec.toNat_ofNat]
  exact Nat.mod_eq_of_lt (by have := b.isLt; omega)

theorem code_ne_nil {l r : PrefixTree P} {w : Weight P} {p : Bits} {a : Sym}
    (h : (PrefixTree.node l r w).leafAt p = some a) : p ≠ [] := by
  rintro rfl
  simp [PrefixTree.leafAt] at h

/-- The code words of a byte sequence decode to it, whatever follows. -/
theorem decodeLoop_words {ct : CodeTable} {l r : PrefixTree P} {w : Weight P} {S : List Byte}
    {body x : Bits} {src : Source} {k : Nat} (snk : Sink) (hct : CodesArePaths ct (.node l r w))
    (hbody : codeWords ct S = some body) (hrest : src.rest = body ++ x) (hk : body.length ≤ k) :
    decodeLoop (.node l r w) k (.node l r w) src snk =
      decodeLoop (.node l r w) (k - body.length) (.node l r w) (src.skip body.length)
        (snk.writeString (bitsOfBytes S)) := by
  induction S generalizing src body k snk with
  | nil => cases hbody; simp
  | cons b S ih =>
    rw [codeWords] at hbody
    cases hb : codeOf ct b.toNat with
    | none => simp [hb] at hbody
    | some p =>
      cases hq : codeWords ct S with
      | none => simp [hb, hq] at hbody
      | some q =>
        simp only [hb, hq, Option.some.injEq] at hbody
        subst hbody
        have hpath := hct _ _ hb
        rw [List.append_assoc] at hrest
        have hbyte : ¬ b.toNat = Config.term := by have := b.isLt; simp only [Config.term]; omega
        rw [List.length_append] at hk
        rw [decodeLoop_code snk hpath (code_ne_nil hpath) hrest (by omega), byte_toSym,
          if_neg hbyte, ih _ hq (Source.rest_skip_append hrest) (by omega)]
        rw [Source.skip_skip, List.length_append, Nat.sub_sub]
        congr 1
        simp [Sink.writeBits]

/-- A whole payload decodes to its bytes and nothing after it is read (R110, R112). -/
theorem decodeTree_payload {ct : CodeTable} {t : PrefixTree P} {S : List Byte} {body last x : Bits}
    {s : State P} (hct : CodesArePaths ct t) (hbody : codeWords ct S = some body)
    (hlast : codeOf ct Config.term = some last) (hrest : s.src.rest = body ++ last ++ x) :
    decodeTree t s = .ended { s with
      src := s.src.skip (body ++ last).length
      snk := s.snk.writeString (bitsOfBytes S) } := by
  have hterm := hct _ _ hlast
  cases t with
  | leaf a w =>
    have hl : last = [] ∧ a = BitVec.ofNat 9 Config.term := by
      cases last with
      | nil => exact ⟨rfl, by simpa [PrefixTree.leafAt] using hterm⟩
      | cons b p => simp [PrefixTree.leafAt] at hterm
    obtain ⟨rfl, rfl⟩ := hl
    have hS : S = [] := by
      cases S with
      | nil => rfl
      | cons b S =>
        rw [codeWords] at hbody
        cases hb : codeOf ct b.toNat with
        | none => simp [hb] at hbody
        | some p =>
          have := hct _ _ hb
          cases p with
          | cons c p => simp [PrefixTree.leafAt] at this
          | nil =>
            simp only [PrefixTree.leafAt, Option.some.injEq] at this
            have h2 := congrArg BitVec.toNat this
            rw [byte_toSym] at h2
            have := b.isLt
            simp [Config.term] at h2
            omega
    subst hS
    cases hbody
    simp [decodeTree, Config.term]
  | node l r w =>
    rw [List.append_assoc] at hrest
    have hlen : s.src.left = body.length + (last.length + x.length) := by
      rw [← Source.rest_length, hrest]; simp
    rw [decodeTree, decodeLoop_words s.snk hct hbody hrest (by omega),
      decodeLoop_code _ hterm (code_ne_nil hterm) (Source.rest_skip_append hrest) (by omega)]
    simp [Config.term]

/-- Whole code words of leaves other than the terminator and then a proper start of one: DECODE writes
the unit of each whole code word and raises at the end of the source (R106, R108, R137). -/
theorem decodeLoop_cutPayload {l r : PrefixTree P} {w : Weight P} {L : List (Sym × Bits)} {q : Bits}
    {src : Source} (snk : Sink) (h : (PrefixTree.node l r w).CutPayload L q src.rest) :
    decodeLoop (.node l r w) src.left (.node l r w) src snk =
      (src.skip src.left, snk.writeString (unitsOf L), some ⟨.truncatedStream, 0, 0⟩) := by
  obtain ⟨hL, hx, y, a, hy, hleaf⟩ := h
  induction L generalizing src snk with
  | nil =>
    rw [List.map_nil, List.flatten_nil, List.nil_append] at hx
    rw [decodeLoop_cut snk (by rw [hx]; exact hleaf) hy]
    simp [unitsOf]
  | cons e L ih =>
    obtain ⟨hp, hne⟩ := hL e List.mem_cons_self
    rw [List.map_cons, List.flatten_cons, List.append_assoc] at hx
    have hl : src.left = e.2.length + ((L.map Prod.snd).flatten ++ q).length := by
      rw [← Source.rest_length, hx, List.length_append]
    have hterm : ¬ e.1.toNat = Config.term := fun h => hne (BitVec.eq_of_toNat_eq h)
    rw [decodeLoop_code snk hp (code_ne_nil hp) hx (by omega), if_neg hterm,
      show src.left - e.2.length = (src.skip e.2.length).left by rw [Source.left_skip],
      ih (snk.writeBits 8 e.1.toNat) (fun d hd => hL d (List.mem_cons_of_mem e hd))
        (Source.rest_skip_append hx), Source.skip_skip, Source.left_skip]
    simp only [Sink.writeBits, writeString_writeString, unitsOf, List.flatMap_cons]
    congr 2
    omega

theorem decodeTree_cutPayload {t : PrefixTree P} {L : List (Sym × Bits)} {q : Bits} {s : State P}
    (h : t.CutPayload L q s.src.rest) :
    decodeTree t s = .raised { s with
      src := s.src.skip s.src.left, snk := s.snk.writeString (unitsOf L) }
      ⟨.truncatedStream, 0, 0⟩ := by
  cases t with
  | leaf a w =>
    obtain ⟨-, -, y, b, hy, hleaf⟩ := h
    cases hq : q ++ y with
    | nil => exact absurd (List.append_eq_nil_iff.mp hq).2 hy
    | cons c p => rw [hq] at hleaf; cases hleaf
  | node l r w => rw [decodeTree, decodeLoop_cutPayload s.snk h]

/-- With no terminator leaf every source is a payload that ends before the terminator (R61 (e)). -/
theorem cutPayload_of_no_term {l r : PrefixTree P} {w : Weight P}
    (h : 256#9 ∉ (PrefixTree.node l r w).syms) (x : Bits) :
    ∃ L q, (PrefixTree.node l r w).CutPayload L q x := by
  have hwalk : ∀ (t : PrefixTree P) (x : Bits),
      (∃ p a rest, t.leafAt p = some a ∧ x = p ++ rest) ∨
      ∃ y a, y ≠ [] ∧ t.leafAt (x ++ y) = some a := by
    intro t
    induction t with
    | leaf a w => exact fun x => .inl ⟨[], a, x, rfl, rfl⟩
    | node l r w ihl ihr =>
      intro x
      cases x with
      | nil =>
        rcases ihl [] with ⟨p, a, rest, hp, he⟩ | ⟨y, a, hy, hleaf⟩
        · exact .inr ⟨false :: p, a, by simp, hp⟩
        · exact .inr ⟨false :: y, a, by simp, hleaf⟩
      | cons b x =>
        cases b with
        | false =>
          rcases ihl x with ⟨p, a, rest, hp, he⟩ | ⟨y, a, hy, hleaf⟩
          · exact .inl ⟨false :: p, a, rest, hp, by rw [he, List.cons_append]⟩
          · exact .inr ⟨y, a, hy, hleaf⟩
        | true =>
          rcases ihr x with ⟨p, a, rest, hp, he⟩ | ⟨y, a, hy, hleaf⟩
          · exact .inl ⟨true :: p, a, rest, hp, by rw [he, List.cons_append]⟩
          · exact .inr ⟨y, a, hy, hleaf⟩
  induction hn : x.length using Nat.strong_induction_on generalizing x with
  | _ n ih =>
    rcases hwalk (.node l r w) x with ⟨p, a, rest, hp, rfl⟩ | ⟨y, a, hy, hleaf⟩
    · have hpos : 0 < p.length := List.length_pos_iff.mpr (code_ne_nil hp)
      rw [List.length_append] at hn
      obtain ⟨L, q, hL, hx, htail⟩ := ih rest.length (by omega) rest rfl
      refine ⟨(a, p) :: L, q, ?_, ?_, htail⟩
      · intro e he
        rcases List.mem_cons.mp he with rfl | he
        · exact ⟨hp, fun h' => h (h' ▸ leafAt_mem hp)⟩
        · exact hL e he
      · rw [hx, List.map_cons, List.flatten_cons, List.append_assoc]
    · exact ⟨[], x, by simp, by simp, y, a, hy, hleaf⟩

/-- The leaves behind the code words of a byte sequence. -/
theorem codeWords_leaves {ct : CodeTable} {t : PrefixTree P} {S : List Byte} {body : Bits}
    (hct : CodesArePaths ct t) (h : codeWords ct S = some body) :
    ∃ L : List (Sym × Bits), (∀ e ∈ L, t.leafAt e.2 = some e.1 ∧ e.1 ≠ 256#9) ∧
      (L.map Prod.snd).flatten = body ∧ unitsOf L = bitsOfBytes S := by
  induction S generalizing body with
  | nil => cases h; exact ⟨[], by simp, rfl, rfl⟩
  | cons b S ih =>
    rw [codeWords] at h
    cases hc : codeOf ct b.toNat with
    | none => simp [hc] at h
    | some p =>
      cases hq : codeWords ct S with
      | none => simp [hc, hq] at h
      | some q =>
        simp only [hc, hq, Option.some.injEq] at h
        subst h
        obtain ⟨L, hL, hflat, hunits⟩ := ih hq
        refine ⟨(BitVec.ofNat 9 b.toNat, p) :: L, ?_, ?_, ?_⟩
        · intro e he
          rcases List.mem_cons.mp he with rfl | he
          · refine ⟨hct _ _ hc, fun h' => ?_⟩
            have h2 := congrArg BitVec.toNat h'
            rw [byte_toSym] at h2
            have := b.isLt
            simp at h2
            omega
          · exact hL e he
        · rw [List.map_cons, List.flatten_cons, hflat]
        · rw [unitsOf, List.flatMap_cons, bitsOfBytes_cons, byte_toSym, ← hunits, unitsOf]

/-- Where a payload cut short ends: behind the code words of the first bytes, inside the next one. -/
theorem payload_cut {ct : CodeTable} {S : List Byte} {body last x y : Bits}
    (hbody : codeWords ct S = some body) (hlast : codeOf ct Config.term = some last)
    (hx : x ++ y = body ++ last) (hy : y ≠ []) :
    ∃ (S' S'' : List Byte) (whole q z : Bits), S = S' ++ S'' ∧ codeWords ct S' = some whole ∧
      x = whole ++ q ∧ z ≠ [] ∧
      ((S''.map BitVec.toNat ++ [Config.term]).head?).bind (codeOf ct) = some (q ++ z) := by
  induction S generalizing body x with
  | nil =>
    cases hbody
    exact ⟨[], [], [], x, y, rfl, rfl, rfl, hy, by simpa [hlast] using hx.symm⟩
  | cons b S ih =>
    rw [codeWords] at hbody
    cases hc : codeOf ct b.toNat with
    | none => simp [hc] at hbody
    | some p =>
      cases hq : codeWords ct S with
      | none => simp [hc, hq] at hbody
      | some q =>
        simp only [hc, hq, Option.some.injEq] at hbody
        subst hbody
        rw [List.append_assoc] at hx
        have hcut : ∀ z : Bits, p = x ++ z → z ≠ [] →
            ∃ (S' S'' : List Byte) (whole q z : Bits), b :: S = S' ++ S'' ∧
              codeWords ct S' = some whole ∧ x = whole ++ q ∧ z ≠ [] ∧
              ((S''.map BitVec.toNat ++ [Config.term]).head?).bind (codeOf ct) = some (q ++ z) :=
          fun z hz hzn => ⟨[], b :: S, [], x, z, rfl, rfl, rfl, hzn, by simp [hc, hz]⟩
        have hwhole : ∀ z : Bits, x = p ++ z → z ++ y = q ++ last →
            ∃ (S' S'' : List Byte) (whole q z : Bits), b :: S = S' ++ S'' ∧
              codeWords ct S' = some whole ∧ x = whole ++ q ∧ z ≠ [] ∧
              ((S''.map BitVec.toNat ++ [Config.term]).head?).bind (codeOf ct) = some (q ++ z) := by
          intro z hz hz'
          obtain ⟨S', S'', whole, q', z', rfl, hw, rfl, hzn, hnext⟩ := ih hq hz'
          exact ⟨b :: S', S'', p ++ whole, q', z', rfl, by simp [codeWords, hc, hw], by
            rw [hz, List.append_assoc], hzn, hnext⟩
        rcases List.append_eq_append_iff.mp hx with ⟨z, hz, hz'⟩ | ⟨z, hz, hz'⟩
        · by_cases hzn : z = []
          · subst hzn
            exact hwhole [] (by simpa using hz.symm) (by simpa using hz')
          · exact hcut z hz hzn
        · exact hwhole z hz hz'.symm

/-- A payload cut short anywhere before its end: `TruncatedStreamError` at the end of the source, after
the bytes whose code words were whole, and no others (R108, R137). -/
theorem decodeTree_cut {ct : CodeTable} {t : PrefixTree P} {S : List Byte} {body last y : Bits}
    {s : State P} (hct : CodesArePaths ct t) (hbody : codeWords ct S = some body)
    (hlast : codeOf ct Config.term = some last) (hrest : s.src.rest ++ y = body ++ last)
    (hy : y ≠ []) :
    ∃ (S' S'' : List Byte) (whole q z : Bits), S = S' ++ S'' ∧ codeWords ct S' = some whole ∧
      s.src.rest = whole ++ q ∧ z ≠ [] ∧
      ((S''.map BitVec.toNat ++ [Config.term]).head?).bind (codeOf ct) = some (q ++ z) ∧
      decodeTree t s = .raised { s with
        src := s.src.skip s.src.left, snk := s.snk.writeString (bitsOfBytes S') }
        ⟨.truncatedStream, 0, 0⟩ := by
  obtain ⟨S', S'', whole, q, z, hS, hw, hx, hz, hnext⟩ := payload_cut hbody hlast hrest hy
  obtain ⟨L, hL, hflat, hunits⟩ := codeWords_leaves hct hw
  obtain ⟨c, -, hc⟩ := Option.bind_eq_some_iff.mp hnext
  refine ⟨S', S'', whole, q, z, hS, hw, hx, hz, hnext, ?_⟩
  rw [decodeTree_cutPayload ⟨hL, by rw [hflat, hx], z, _, hz, hct _ _ hc⟩, hunits]

/-- A DECODE that reaches the terminator looked at no bit behind its cursor (R110): with any other bits
there it does the same. -/
theorem decodeLoop_local {root cur : PrefixTree P} {k : Nat} {src src' : Source} {snk snk' : Sink}
    (h : decodeLoop root k cur src snk = (src', snk', none)) :
    ∃ n, src' = src.skip n ∧ n ≤ src.left ∧ 0 < n ∧ ∀ (src2 : Source) (k2 : Nat) (x : Bits), n ≤ k2 →
      src2.rest = src.rest.take n ++ x →
      decodeLoop root k2 cur src2 snk = (src2.skip n, snk', none) := by
  induction k generalizing cur src snk with
  | zero => cases h
  | succ k ih =>
    cases hr : src.rest with
    | nil => rw [decodeLoop, readBits_of_nil hr (by omega)] at h; cases h
    | cons b rest =>
      have hleft : src.left = rest.length + 1 := by rw [← Source.rest_length, hr]; rfl
      have h1 : (src.skip 1).rest = rest := by rw [Source.rest_skip, hr]; rfl
      have hl1 : (src.skip 1).left = rest.length := by rw [← Source.rest_length, h1]
      rw [decodeLoop, readBits_one hr] at h
      simp only at h
      have next : ∀ (cur2 : PrefixTree P) (snk2 : Sink),
          decodeLoop root k cur2 (src.skip 1) snk2 = (src', snk', none) →
          (∀ (k2 : Nat) (src2 : Source) (x : Bits), src2.rest = b :: x →
            decodeLoop root (k2 + 1) cur src2 snk = decodeLoop root k2 cur2 (src2.skip 1) snk2) →
          ∃ n, src' = src.skip n ∧ n ≤ src.left ∧ 0 < n ∧
            ∀ (src2 : Source) (k2 : Nat) (x : Bits), n ≤ k2 →
            src2.rest = (b :: rest).take n ++ x →
            decodeLoop root k2 cur src2 snk = (src2.skip n, snk', none) := by
        intro cur2 snk2 hd hstep
        obtain ⟨n, hs, hn, -, hloc⟩ := ih hd
        refine ⟨n + 1, by rw [hs, Source.skip_skip, Nat.add_comm], by omega, by omega, ?_⟩
        intro src2 k2 x hk hx
        obtain ⟨j, rfl⟩ : ∃ j, k2 = j + 1 := ⟨k2 - 1, by omega⟩
        rw [List.take_succ_cons, List.cons_append] at hx
        rw [hstep j src2 _ hx, hloc (src2.skip 1) j x (by omega) (by
          rw [Source.rest_skip, hx, h1]; rfl), Source.skip_skip, Nat.add_comm]
      cases hchild : child cur b.toNat with
      | leaf s w =>
        rw [hchild] at h
        simp only at h
        by_cases hs : s.toNat = Config.term
        · rw [if_pos hs] at h
          cases h
          refine ⟨1, rfl, by omega, by omega, ?_⟩
          intro src2 k2 x hk hx
          obtain ⟨j, rfl⟩ : ∃ j, k2 = j + 1 := ⟨k2 - 1, by omega⟩
          rw [decodeLoop, readBits_one (b := b) (x := x) (by simpa using hx)]
          simp [hchild, hs]
        · rw [if_neg hs] at h
          exact next root _ h fun j src2 x hx => by
            rw [decodeLoop, readBits_one hx]; simp [hchild, hs]
      | node l r w =>
        rw [hchild] at h
        exact next _ _ h fun j src2 x hx => by
          rw [decodeLoop, readBits_one hx]; simp [hchild]

end Sys2Proof.Machine
end

