-- ==== Sys2Proof/Laws/Frame.lean ====
section
/-! SUPPORT. What no command's pseudocode changes, and the one inversion lemma of `exec`: every command
that answers a next state was CLEAR, met a latched fault, or ran a body that keeps the control registers
and the host's side, reads the source without changing its bits, and only appends to the sink. -/

namespace Sys2Proof.Machine
open Sys2Proof

variable {P : Params}

/-- What every body keeps between the state it starts in and the state it stops in. -/
structure Keeps (s s' : State P) : Prop where
  busy : s'.busy = s.busy
  done : s'.done = s.done
  fault : s'.fault = s.fault
  cause : s'.cause = s.cause
  info : s'.info = s.info
  host : s'.host = s.host
  reply : s'.reply = s.reply
  srcBits : s'.src.bits = s.src.bits
  srcPos : s.src.pos ≤ s.src.bits.length → s'.src.pos ≤ s.src.bits.length
  snkGrows : ∃ x, s'.snk.bits = s.snk.bits ++ x

theorem Keeps.refl (s : State P) : Keeps s s :=
  ⟨rfl, rfl, rfl, rfl, rfl, rfl, rfl, rfl, id, [], by simp⟩

theorem Keeps.trans {a b c : State P} (h : Keeps a b) (h' : Keeps b c) : Keeps a c := by
  obtain ⟨x, hx⟩ := h.snkGrows
  obtain ⟨y, hy⟩ := h'.snkGrows
  have hp := h'.srcPos
  rw [h.srcBits] at hp
  exact ⟨h'.busy.trans h.busy, h'.done.trans h.done, h'.fault.trans h.fault, h'.cause.trans h.cause,
    h'.info.trans h.info, h'.host.trans h.host, h'.reply.trans h.reply, h'.srcBits.trans h.srcBits,
    fun hpos => hp (h.srcPos hpos), x ++ y, by rw [hy, hx, List.append_assoc]⟩

/-- A body keeps what `Keeps` says, wherever it stops. -/
def RanKeeps (s : State P) : Ran P → Prop
  | .ended s' => Keeps s s'
  | .raised s' _ => Keeps s s'
  | .refused _ => True

theorem RanKeeps.andThen {s : State P} {x : Ran P} {f : State P → Ran P} (h : RanKeeps s x)
    (hf : ∀ s', RanKeeps s' (f s')) : RanKeeps s (x.andThen f) := by
  cases x with
  | ended s' =>
    have hs' := hf s'
    simp only [andThen_ended]
    cases hx : f s' with
    | ended t => rw [hx] at hs'; exact Keeps.trans h hs'
    | raised t r => rw [hx] at hs'; exact Keeps.trans h hs'
    | refused w => trivial
  | raised s' r => exact h
  | refused w => trivial

theorem RanKeeps.closeOnRaise {s : State P} {x : Ran P} (h : RanKeeps s x) : RanKeeps s x.closeOnRaise := by
  cases x with
  | ended s' => exact h
  | raised s' r =>
    exact Keeps.trans h ⟨rfl, rfl, rfl, rfl, rfl, rfl, rfl, rfl, id, [], by simp⟩
  | refused w => trivial

theorem readBits_keeps {src src' : Source} {n v : Nat} (h : src.readBits n = some (v, src')) :
    src'.bits = src.bits ∧ (src.pos ≤ src.bits.length → src'.pos ≤ src.bits.length) := by
  obtain ⟨hn, -, rfl⟩ := readBits_eq_some.mp h
  refine ⟨rfl, fun hp => ?_⟩
  simp only [Source.left] at hn
  simp only [Source.skip_pos]
  omega

theorem skip_keeps {src : Source} {n : Nat} (hn : n ≤ src.left) :
    src.pos ≤ src.bits.length → (src.skip n).pos ≤ src.bits.length := by
  intro hp
  simp only [Source.left] at hn
  simp only [Source.skip_pos]
  omega

/-- What ENCODE's loop keeps and which fault it can stop with. -/
theorem encodeLoop_keeps (ct : CodeTable) (k : Nat) (src : Source) (snk : Sink) {src' : Source}
    {snk' : Sink} {r : Option Raise} (h : encodeLoop ct k src snk = (src', snk', r)) :
    src'.bits = src.bits ∧ (src.pos ≤ src.bits.length → src'.pos ≤ src.bits.length) ∧
    snk'.closed = snk.closed ∧ (∃ x, snk'.bits = snk.bits ++ x) ∧
    ∀ e, r = some e → ∃ b, b < 256 ∧ e = ⟨.missingCode, 0, b⟩ := by
  induction k generalizing src snk with
  | zero => cases h; exact ⟨rfl, id, rfl, ⟨[], by simp⟩, by simp⟩
  | succ k ih =>
    rw [encodeLoop] at h
    cases hr : src.readBits 8 with
    | none => rw [hr] at h; cases h; exact ⟨rfl, id, rfl, ⟨[], by simp⟩, by simp⟩
    | some p =>
      obtain ⟨v, mid⟩ := p
      obtain ⟨hb, hp⟩ := readBits_keeps hr
      have hlt := readBits_lt hr
      rw [hr] at h
      cases hc : codeOf ct v with
      | none =>
        simp only [writeCode_none snk hc] at h
        cases h
        exact ⟨hb, hp, rfl, ⟨[], by simp⟩, fun e he => ⟨v, by omega, by cases he; rfl⟩⟩
      | some c =>
        simp only [writeCode_some snk hc] at h
        obtain ⟨h1, h2, h3, ⟨x, h4⟩, h5⟩ := ih mid (snk.writeString c) h
        exact ⟨h1.trans hb, fun hh => hb ▸ h2 (hb ▸ hp hh), h3, ⟨c ++ x, by rw [h4]; simp⟩, h5⟩

/-- What DECODE's loop keeps and which fault it can stop with. -/
theorem decodeLoop_keeps (root : PrefixTree P) (k : Nat) (cur : PrefixTree P) (src : Source) (snk : Sink)
    {src' : Source} {snk' : Sink} {r : Option Raise}
    (h : decodeLoop root k cur src snk = (src', snk', r)) :
    src'.bits = src.bits ∧ (src.pos ≤ src.bits.length → src'.pos ≤ src.bits.length) ∧
    snk'.closed = snk.closed ∧ (∃ x, snk'.bits = snk.bits ++ x) ∧
    ∀ e, r = some e → e = ⟨.truncatedStream, 0, 0⟩ := by
  induction k generalizing cur src snk with
  | zero => cases h; exact ⟨rfl, id, rfl, ⟨[], by simp⟩, fun e he => by cases he; rfl⟩
  | succ k ih =>
    rw [decodeLoop] at h
    cases hr : src.readBits 1 with
    | none =>
      rw [hr] at h; cases h
      exact ⟨rfl, id, rfl, ⟨[], by simp⟩, fun e he => by cases he; rfl⟩
    | some p =>
      obtain ⟨b, mid⟩ := p
      obtain ⟨hb, hp⟩ := readBits_keeps hr
      rw [hr] at h
      simp only at h
      split at h
      · split at h
        · cases h; exact ⟨hb, hp, rfl, ⟨[], by simp⟩, by simp⟩
        · next sym w _ _ =>
          obtain ⟨h1, h2, h3, ⟨x, h4⟩, h5⟩ := ih root mid (snk.writeBits 8 sym.toNat) h
          exact ⟨h1.trans hb, fun hh => hb ▸ h2 (hb ▸ hp hh), h3,
            ⟨bitsOf 8 sym.toNat ++ x, by rw [h4]; simp⟩, h5⟩
      · obtain ⟨h1, h2, h3, ⟨x, h4⟩, h5⟩ := ih _ mid snk h
        exact ⟨h1.trans hb, fun hh => hb ▸ h2 (hb ▸ hp hh), h3, ⟨x, h4⟩, h5⟩

theorem requireOpen_keeps (op : Nat) (s : State P) : RanKeeps s (requireOpen op s) := by
  unfold requireOpen
  split <;> exact Keeps.refl s

theorem countBody_keeps (s : State P) : RanKeeps s (countBody s) := by
  unfold countBody
  split
  · trivial
  · rw [countLoop_eq]
    exact ⟨rfl, rfl, rfl, rfl, rfl, rfl, rfl, rfl, skip_keeps (by omega), [], by simp⟩

theorem buildBody_keeps (before : PqEntry P → PqEntry P → Bool) (s : State P) :
    RanKeeps s (buildBody before s) := by
  unfold buildBody
  simp only
  split <;> exact ⟨rfl, rfl, rfl, rfl, rfl, rfl, rfl, rfl, id, [], by simp⟩

theorem gencodesBody_keeps (s : State P) : RanKeeps s (gencodesBody s) := by
  unfold gencodesBody requireTree
  split <;> exact ⟨rfl, rfl, rfl, rfl, rfl, rfl, rfl, rfl, id, [], by simp⟩

theorem wrmagicBody_keeps (s : State P) : RanKeeps s (wrmagicBody s) :=
  (requireOpen_keeps _ s).andThen fun _ => ⟨rfl, rfl, rfl, rfl, rfl, rfl, rfl, rfl, id, _, rfl⟩

theorem wrtreeBody_keeps (s : State P) : RanKeeps s (wrtreeBody s) :=
  (requireOpen_keeps _ s).andThen fun s' => by
    unfold requireTree
    split
    · exact Keeps.refl s'
    · exact ⟨rfl, rfl, rfl, rfl, rfl, rfl, rfl, rfl, id, _, rfl⟩

theorem rewindBody_keeps (s : State P) : RanKeeps s (rewindBody s) :=
  ⟨rfl, rfl, rfl, rfl, rfl, rfl, rfl, rfl, fun _ => Nat.zero_le _, [], by simp⟩

theorem closeBody_keeps (s : State P) : RanKeeps s (closeBody s) :=
  ⟨rfl, rfl, rfl, rfl, rfl, rfl, rfl, rfl, id, [], by simp⟩

theorem nopBody_keeps (s : State P) : RanKeeps s (nopBody s) := Keeps.refl s

theorem reservedBody_keeps (s : State P) : RanKeeps s (reservedBody s) := Keeps.refl s

theorem rdmagicBody_keeps (s : State P) : RanKeeps s (rdmagicBody s) := by
  unfold rdmagicBody
  split
  · exact Keeps.refl s
  · next v src h =>
    obtain ⟨hb, hp⟩ := readBits_keeps h
    split <;> exact ⟨rfl, rfl, rfl, rfl, rfl, rfl, rfl, hb, hp, [], by simp⟩

theorem rdtreeBody_keeps (s : State P) : RanKeeps s (rdtreeBody s) := by
  unfold rdtreeBody
  simp only
  rcases des_cases (cap := P.nodeCap) (depth := P.nodeCap) (count := 0) (src := s.src)
    (Nat.zero_le _) with ⟨t, h, -, -, hn, -⟩ | ⟨n, h, hn⟩ | ⟨sub, k, n, h, -, -, hn⟩ <;>
  · rw [h]
    exact ⟨rfl, rfl, rfl, rfl, rfl, rfl, rfl, rfl, skip_keeps hn, [], by simp⟩

theorem encodeBody_keeps (s : State P) : RanKeeps s (encodeBody s) := by
  refine (requireOpen_keeps _ s).andThen fun s' => ?_
  split
  · next src snk e he =>
    obtain ⟨h1, h2, -, ⟨x, h4⟩, -⟩ := encodeLoop_keeps _ _ _ _ he
    exact ⟨rfl, rfl, rfl, rfl, rfl, rfl, rfl, h1, h2, x, h4⟩
  · next src snk he =>
    obtain ⟨h1, h2, -, ⟨x, h4⟩, -⟩ := encodeLoop_keeps _ _ _ _ he
    cases hc : codeOf s'.ct Config.term with
    | none =>
      rw [writeCode_none _ hc]
      exact ⟨rfl, rfl, rfl, rfl, rfl, rfl, rfl, h1, h2, x, h4⟩
    | some c =>
      rw [writeCode_some _ hc]
      exact ⟨rfl, rfl, rfl, rfl, rfl, rfl, rfl, h1, h2, x ++ c, by simp [h4]⟩

theorem decodeBody_keeps (s : State P) : RanKeeps s (decodeBody s) := by
  refine (requireOpen_keeps _ s).andThen fun s' => ?_
  unfold requireTree
  split
  · exact Keeps.refl s'
  · unfold decodeTree
    split
    · split <;> exact Keeps.refl s'
    · split
      · next he =>
        obtain ⟨h1, h2, -, ⟨x, h4⟩, -⟩ := decodeLoop_keeps _ _ _ _ _ he
        exact ⟨rfl, rfl, rfl, rfl, rfl, rfl, rfl, h1, h2, x, h4⟩
      · next he =>
        obtain ⟨h1, h2, -, ⟨x, h4⟩, -⟩ := decodeLoop_keeps _ _ _ _ _ he
        exact ⟨rfl, rfl, rfl, rfl, rfl, rfl, rfl, h1, h2, x, h4⟩

theorem compressBody_keeps (before : PqEntry P → PqEntry P → Bool) (s : State P) :
    RanKeeps s (compressBody before s) :=
  (((((((((requireOpen_keeps _ s).andThen countBody_keeps).andThen (buildBody_keeps before)).andThen
    gencodesBody_keeps).andThen wrmagicBody_keeps).andThen wrtreeBody_keeps).andThen
    rewindBody_keeps).andThen encodeBody_keeps).andThen closeBody_keeps).closeOnRaise

theorem decompressBody_keeps (s : State P) : RanKeeps s (decompressBody s) :=
  (((((requireOpen_keeps _ s).andThen rdmagicBody_keeps).andThen rdtreeBody_keeps).andThen
    decodeBody_keeps).andThen closeBody_keeps).closeOnRaise

/-- What an answer of `exec` can be. -/
def ExecCase (i : Instr) (s t : State P) : Prop :=
  (i = .clear ∧ t = clearBlock s) ∨
  (s.fault = true ∧ i ≠ .clear ∧ (t = s ∨ (i = .close ∧ t = closeSink s))) ∨
  (s.fault = false ∧ i ≠ .clear ∧
    ∃ s', Keeps s.begin s' ∧ (t = s'.finish ∨ ∃ r, t = takeFault r s'))

theorem accept_execCase {i : Instr} {body : State P → Ran P} {s t : State P}
    (hk : ∀ s, RanKeeps s (body s)) (hc : i ≠ .clear) (h : accept body s = .next t) :
    ExecCase i s t := by
  have hb := hk s.begin
  rcases accept_cases h with ⟨hf, rfl⟩ | ⟨hf, s', he, rfl⟩ | ⟨hf, s', r, he, rfl⟩
  · exact .inr (.inl ⟨hf, hc, .inl rfl⟩)
  · rw [he] at hb; exact .inr (.inr ⟨hf, hc, s', hb, .inl rfl⟩)
  · rw [he] at hb; exact .inr (.inr ⟨hf, hc, s', hb, .inr ⟨r, rfl⟩⟩)

/-- Everything `exec` can do when it answers a next state. -/
theorem exec_cases {i : Instr} {s t : State} (h : exec i s = .next t) : ExecCase i s t := by
  cases i
  case clear => cases h; exact .inl ⟨rfl, rfl⟩
  case close =>
    change execClose s = _ at h
    unfold execClose at h
    split at h
    · next hf => cases h; exact .inr (.inl ⟨hf, by simp, .inr ⟨rfl, rfl⟩⟩)
    · exact accept_execCase closeBody_keeps (by simp) h
  case nop => exact accept_execCase nopBody_keeps (by simp) h
  case count => exact accept_execCase countBody_keeps (by simp) h
  case build => exact accept_execCase (buildBody_keeps _) (by simp) h
  case gencodes => exact accept_execCase gencodesBody_keeps (by simp) h
  case wrmagic => exact accept_execCase wrmagicBody_keeps (by simp) h
  case wrtree => exact accept_execCase wrtreeBody_keeps (by simp) h
  case rewind => exact accept_execCase rewindBody_keeps (by simp) h
  case encode => exact accept_execCase encodeBody_keeps (by simp) h
  case rdmagic => exact accept_execCase rdmagicBody_keeps (by simp) h
  case rdtree => exact accept_execCase rdtreeBody_keeps (by simp) h
  case decode => exact accept_execCase decodeBody_keeps (by simp) h
  case compress => exact accept_execCase (compressBody_keeps _) (by simp) h
  case decompress => exact accept_execCase decompressBody_keeps (by simp) h
  case reservedF => exact accept_execCase reservedBody_keeps (by simp) h
  all_goals cases h

end Sys2Proof.Machine
end

