-- ==== Sys2Proof/Laws/Commands.lean ====
section
/-! SUPPORT. What each command's pseudocode does under the conditions its rule names: one equation per
case, on a state whose checks have passed. -/

namespace Sys2Proof.Machine
open Sys2Proof

variable {P : Params}

variable {before : PqEntry P → PqEntry P → Bool} {s : State P} {t : PrefixTree P}

theorem begin_begin (s : State P) : s.begin.begin = s.begin := rfl

theorem finish_begin (s : State P) : s.finish.begin = s.begin := rfl

/-- A running state is its own start. -/
theorem begin_of_running (hb : s.busy = true) (hd : s.done = false) : s.begin = s := by
  cases s; simp_all [State.begin]

theorem andThen_assoc (x : Ran P) (f g : State P → Ran P) :
    (x.andThen f).andThen g = x.andThen fun s => (f s).andThen g := by
  cases x <;> rfl

theorem countBody_tooLong (h : P.maxInputBytes < s.src.left / 8) :
    countBody s = .refused .inputTooLong := if_pos h

theorem buildBody_some (h : buildTree before s.wt = some t) :
    buildBody before s = .ended { s with tree := some t, ct := noCodes } := by
  simp [buildBody, h]

theorem buildBody_none (h : buildTree before s.wt = none) :
    buildBody before s = .raised { s with tree := none, ct := noCodes } ⟨.emptyAlphabet, 0, 0⟩ := by
  simp [buildBody, h]

theorem gencodesBody_eq (h : s.tree = some t) :
    gencodesBody s = .ended { s with ct := codesOf t } := by
  rw [gencodesBody, requireTree_some h, walk_eq_codesOf]

theorem wrmagicBody_eq (h : s.snk.closed = false) :
    wrmagicBody s = .ended { s with
      snk := s.snk.writeString (bitsOf Config.magicW Config.magic) } := by
  rw [wrmagicBody, requireOpen_open h]; rfl

theorem wrtreeBody_eq (h : s.snk.closed = false) (ht : s.tree = some t) :
    wrtreeBody s = .ended { s with snk := s.snk.writeString (ser t) } := by
  rw [wrtreeBody, requireOpen_open h, andThen_ended, requireTree_some ht]

theorem rdmagicBody_good (h : s.src.readBits 32 = some (Config.magic, s.src.skip 32)) :
    rdmagicBody s = .ended { s with src := s.src.skip 32 } := by
  rw [rdmagicBody, h]; simp

/-- Everything RDMAGIC can do (R116). -/
theorem rdmagicBody_cases (s : State P) :
    (s.src.left < 32 ∧ rdmagicBody s = .raised s ⟨.illegalHeader, 1, 0⟩) ∨
    (32 ≤ s.src.left ∧ s.src.rest.take 32 = bitsOf 32 Config.magic ∧
      rdmagicBody s = .ended { s with src := s.src.skip 32 }) ∨
    (32 ≤ s.src.left ∧ s.src.rest.take 32 ≠ bitsOf 32 Config.magic ∧
      natOf (s.src.rest.take 32) ≠ Config.magic ∧ natOf (s.src.rest.take 32) < 2 ^ 32 ∧
      rdmagicBody s = .raised { s with src := s.src.skip 32 }
        ⟨.illegalHeader, 0, natOf (s.src.rest.take 32)⟩) := by
  by_cases hl : s.src.left < 32
  · exact .inl ⟨hl, by rw [rdmagicBody, readBits_eq_none.mpr hl]⟩
  · have hread : s.src.readBits Config.magicW = some (natOf (s.src.rest.take 32), s.src.skip 32) :=
      readBits_eq_some.mpr ⟨by simpa using hl, rfl, rfl⟩
    have hlen : (s.src.rest.take 32).length = 32 := by
      rw [List.length_take, Source.rest_length]; omega
    by_cases hv : natOf (s.src.rest.take 32) = Config.magic
    · refine .inr (.inl ⟨by omega, ?_, by rw [rdmagicBody, hread]; simp [hv]⟩)
      have := bitsOf_natOf (s.src.rest.take 32)
      rw [hlen, hv] at this
      exact this.symm
    · refine .inr (.inr ⟨by omega, fun heq => hv ?_, hv, ?_, by rw [rdmagicBody, hread]; simp [hv]⟩)
      · rw [heq]; exact natOf_bitsOf_of_lt (by decide)
      · simpa [hlen] using natOf_lt (s.src.rest.take 32)

theorem rdtreeBody_ser {x : Bits} (h : s.src.rest = ser t ++ x) (hn : t.nodes ≤ P.nodeCap) :
    rdtreeBody s = .ended { s with
      tree := some t.strip, ct := noCodes, src := s.src.skip (ser t).length } := by
  rw [rdtreeBody]
  simp only
  rw [des_ser t h (by omega) (by omega)]

/-- Everything RDTREE can do (R91 to R93). -/
theorem rdtreeBody_cases (s : State P) :
    (∃ t : PrefixTree P, t.strip = t ∧ t.nodes ≤ P.nodeCap ∧ (ser t).length ≤ s.src.left ∧
      s.src.rest = ser t ++ s.src.rest.drop (ser t).length ∧
      rdtreeBody s = .ended { s with
        tree := some t, ct := noCodes, src := s.src.skip (ser t).length }) ∨
    (∃ n, n ≤ s.src.left ∧ rdtreeBody s = .raised { s with
      tree := none, ct := noCodes, src := s.src.skip n } ⟨.treeOverflow, 0, P.nodeCap⟩) ∨
    (∃ sub k n, sub ≤ 1 ∧ k < P.nodeCap ∧ n ≤ s.src.left ∧ rdtreeBody s = .raised { s with
      tree := none, ct := noCodes, src := s.src.skip n } ⟨.truncatedHeader, sub, k⟩) := by
  rcases des_cases (cap := P.nodeCap) (depth := P.nodeCap) (count := 0) (src := s.src)
    (Nat.zero_le _) with ⟨t, h, hs, hc, hn, ht⟩ | ⟨n, h, hn⟩ | ⟨sub, k, n, h, hsub, hk, hn⟩
  · refine .inl ⟨t, hs, by omega, hn, ?_, by rw [rdtreeBody]; simp only; rw [h]⟩
    conv_lhs => rw [← List.take_append_drop (ser t).length s.src.rest, ht]
  · exact .inr (.inl ⟨n, hn, by rw [rdtreeBody]; simp only; rw [h]⟩)
  · exact .inr (.inr ⟨sub, k, n, hsub, hk, hn, by rw [rdtreeBody]; simp only; rw [h]⟩)

theorem encodeBody_all {body last : Bits} (ho : s.snk.closed = false)
    (hbody : codeWords s.ct (bytesOf s.src.rest) = some body)
    (hlast : codeOf s.ct Config.term = some last) :
    encodeBody s = .ended { s with
      src := s.src.skip (8 * (s.src.left / 8)), snk := s.snk.writeString (body ++ last) } := by
  rw [encodeBody, requireOpen_open ho, andThen_ended, encodeLoop_all s.snk hbody]
  simp only
  rw [writeCode_some _ hlast]
  simp

theorem encodeBody_missing {A B : List Byte} {b : Byte} {body : Bits} (ho : s.snk.closed = false)
    (hS : bytesOf s.src.rest = A ++ b :: B) (hA : codeWords s.ct A = some body)
    (hb : codeOf s.ct b.toNat = none) :
    encodeBody s = .raised { s with
      src := s.src.skip (8 * (A.length + 1)), snk := s.snk.writeString body }
      ⟨.missingCode, 0, b.toNat⟩ := by
  rw [encodeBody, requireOpen_open ho, andThen_ended, encodeLoop_missing s.snk hS hA hb]

theorem encodeBody_noTerm {body : Bits} (ho : s.snk.closed = false)
    (hbody : codeWords s.ct (bytesOf s.src.rest) = some body)
    (hlast : codeOf s.ct Config.term = none) :
    encodeBody s = .raised { s with
      src := s.src.skip (8 * (s.src.left / 8)), snk := s.snk.writeString body }
      ⟨.missingCode, 0, Config.term⟩ := by
  rw [encodeBody, requireOpen_open ho, andThen_ended, encodeLoop_all s.snk hbody]
  simp only
  rw [writeCode_none _ hlast]

theorem decodeBody_eq (ho : s.snk.closed = false) (ht : s.tree = some t) :
    decodeBody s = decodeTree t s := by
  rw [decodeBody, requireOpen_open ho, andThen_ended, requireTree_some ht]

/-! ### Trees and code tables of a byte sequence -/

@[simp] theorem leafAt_strip (t : PrefixTree P) (p : Bits) : t.strip.leafAt p = t.leafAt p := by
  induction t generalizing p with
  | leaf a w => cases p <;> rfl
  | node l r w ihl ihr =>
    cases p with
    | nil => rfl
    | cons b p => cases b <;> simp [PrefixTree.strip, PrefixTree.leafAt, ihl, ihr]

@[simp] theorem strip_strip (t : PrefixTree P) : t.strip.strip = t.strip := by
  induction t with
  | leaf a w => rfl
  | node l r w ihl ihr => simp [PrefixTree.strip, ihl, ihr]

theorem hardware_legal : hardware.Legal := ⟨by decide, by decide, by decide⟩

theorem weightsOf_get (S : List Byte) (i : Nat) (hi : i < 257) :
    (weightsOf S P)[i] = BitVec.ofNat P.weightW (countIn S i) := by
  simp [weightsOf]

theorem countIn_lt (hP : P.Legal) {S : List Byte} (h : S.length ≤ P.maxInputBytes) (i : Nat) :
    countIn S i < 2 ^ P.weightW := by
  have := hP.input
  unfold countIn
  split
  · omega
  · have := List.count_le_length (a := i) (l := S.map BitVec.toNat)
    rw [List.length_map] at this
    omega

theorem weightsOf_toNat (hP : P.Legal) {S : List Byte} (h : S.length ≤ P.maxInputBytes) (i : Nat)
    (hi : i < 257) : ((weightsOf S P)[i]).toNat = countIn S i := by
  rw [weightsOf_get, BitVec.toNat_ofNat, Nat.mod_eq_of_lt (countIn_lt hP h i)]

/-- The terminator's weight is positive. -/
theorem weightsOf_term (hP : P.Legal) (S : List Byte) : (weightsOf S P)[256] ≠ 0 := by
  intro h
  have hn := congrArg BitVec.toNat h
  rw [weightsOf_get, countIn, if_pos rfl, BitVec.toNat_ofNat,
    Nat.mod_eq_of_lt (by have := hP.input; omega)] at hn
  simp at hn

/-- A byte sequence always has a tree: the terminator's weight is 1. -/
theorem treeOf_isSome (hP : P.Legal) (before : PqEntry P → PqEntry P → Bool) (S : List Byte) :
    ∃ t, treeOf before S = some t := by
  rw [← Option.isSome_iff_exists, Option.isSome_iff_ne_none]
  intro h
  exact weightsOf_term hP S (buildTree_eq_none.mp h 256 (by decide))

/-- Every symbol of positive weight has a code. -/
theorem codeOf_of_weight {wt : WeightTable P} (h : buildTree before wt = some t) {i : Nat}
    (hi : i < 257) (hw : wt[i] ≠ 0) : ∃ p, codeOf (codesOf t) i = some p := by
  rw [codeOf_codesOf t hi]
  apply Option.isSome_iff_exists.mp
  rw [codeFor_isSome]
  have hnat : (BitVec.ofNat 9 i).toNat = i := by
    rw [BitVec.toNat_ofNat]; exact Nat.mod_eq_of_lt (by omega)
  exact ⟨BitVec.ofNat 9 i, (buildTree_mem h).mpr ⟨by omega, by simpa [hnat] using hw⟩, hnat⟩

/-- Every byte of an admitted sequence has a code in its own tree (R101). -/
theorem codeWords_isSome (hP : P.Legal) {S : List Byte} (hS : S.length ≤ P.maxInputBytes)
    (h : treeOf before S = some t) : ∃ p, codeWords (codesOf t) S = some p := by
  rcases codeWords_cases (codesOf t) S with hp | ⟨A, b, B, p, rfl, -, hb⟩
  · exact hp
  · exfalso
    have hlt : b.toNat < 257 := by have := b.isLt; omega
    have hpos : (weightsOf (A ++ b :: B) P)[b.toNat] ≠ 0 := by
      intro hz
      have hn := weightsOf_toNat hP hS b.toNat hlt
      simp only [hz, BitVec.ofNat_eq_ofNat, BitVec.toNat_ofNat, Nat.zero_mod] at hn
      have hne : ¬ b.toNat = Config.term := by have := b.isLt; simp only [Config.term]; omega
      rw [countIn, if_neg hne] at hn
      have : 0 < ((A ++ b :: B).map BitVec.toNat).count b.toNat := by
        rw [List.count_pos_iff]; simp
      omega
    obtain ⟨q, hq⟩ := codeOf_of_weight h hlt hpos
    rw [hq] at hb
    cases hb

/-- The terminator has a code in the tree of every byte sequence (R103). -/
theorem codeOf_term (hP : P.Legal) {S : List Byte} (h : treeOf before S = some t) :
    ∃ p, codeOf (codesOf t) Config.term = some p :=
  codeOf_of_weight h (by decide) (weightsOf_term hP S)

/-- The compressed file from its parts. -/
theorem fileOf_some {S : List Byte} {body last : Bits} (h : treeOf before S = some t)
    (hb : codeWords (codesOf t) S = some body) (hl : codeOf (codesOf t) Config.term = some last) :
    fileOf before S = some (bitsOf Config.magicW Config.magic ++ ser t ++ body ++ last) := by
  unfold fileOf
  generalize Config.term = k at hl ⊢
  generalize bitsOf Config.magicW Config.magic = m
  simp only [h, hb, hl]

/-- The parts of a compressed file. -/
theorem fileOf_parts (hP : P.Legal) {S : List Byte} {f : Bits} (h : treeOf before S = some t)
    (hf : fileOf before S = some f) :
    ∃ body last, codeWords (codesOf t) S = some body ∧ codeOf (codesOf t) Config.term = some last ∧
      f = bitsOf Config.magicW Config.magic ++ ser t ++ body ++ last := by
  obtain ⟨last, hl⟩ := codeOf_term hP h
  unfold fileOf at hf
  cases hb : codeWords (codesOf t) S with
  | none => rw [h] at hf; simp [hb] at hf
  | some body =>
    have := fileOf_some h hb hl
    unfold fileOf at this
    rw [hf] at this
    exact ⟨body, last, rfl, hl, Option.some.inj this⟩

end Sys2Proof.Machine
end

