-- ==== Sys2Proof/Laws/Composite.lean ====
section
/-! SUPPORT. The pseudocode of COMPRESS up to its last two steps, and of DECOMPRESS up to its payload, as
one state each. -/

namespace Sys2Proof.Machine
open Sys2Proof

variable {P : Params}

variable {before : PqEntry P → PqEntry P → Bool} {s : State P} {t : PrefixTree P}

/-- COMPRESS when its ENCODE begins: the tables of the counted bytes in place, the source at its start,
and the magic word and the tree header behind what the sink held. -/
def compressAtEncode (s : State P) (S : List Byte) (t : PrefixTree P) : State P :=
  { s with
    wt := weightsOf S P, tree := some t, ct := codesOf t, src := s.src.rewind
    snk := s.snk.writeString (bitsOf Config.magicW Config.magic ++ ser t) }

section AtEncode
variable (S : List Byte)
@[simp] theorem compressAtEncode_wt : (compressAtEncode s S t).wt = weightsOf S P := by
  rw [compressAtEncode]
@[simp] theorem compressAtEncode_ct : (compressAtEncode s S t).ct = codesOf t := by
  rw [compressAtEncode]
@[simp] theorem compressAtEncode_tree : (compressAtEncode s S t).tree = some t := by
  rw [compressAtEncode]
@[simp] theorem compressAtEncode_busy : (compressAtEncode s S t).busy = s.busy := by
  rw [compressAtEncode]
@[simp] theorem compressAtEncode_done : (compressAtEncode s S t).done = s.done := by
  rw [compressAtEncode]
@[simp] theorem compressAtEncode_fault : (compressAtEncode s S t).fault = s.fault := by
  rw [compressAtEncode]
@[simp] theorem compressAtEncode_src : (compressAtEncode s S t).src = s.src.rewind := by
  rw [compressAtEncode]
@[simp] theorem compressAtEncode_closed :
    (compressAtEncode s S t).snk.closed = s.snk.closed := by
  rw [compressAtEncode, writeString_closed]
end AtEncode

/-- On an open sink and an admitted input COMPRESS reaches its ENCODE: no step before it raises. -/
theorem compressBody_eq (ho : s.snk.closed = false) (hl : s.src.left / 8 ≤ P.maxInputBytes)
    (ht : treeOf before (bytesOf s.src.rest) = some t) :
    compressBody before s =
      ((encodeBody (compressAtEncode s (bytesOf s.src.rest) t)).andThen closeBody).closeOnRaise := by
  generalize hS : bytesOf s.src.rest = S at ht
  have hcount := countBody_eq hl
  rw [hS] at hcount
  generalize hsrc : s.src.skip (8 * (s.src.left / 8)) = src at hcount
  have hbuild := buildBody_some (before := before) (t := t)
    (s := { s with src := src, wt := weightsOf S P }) ht
  have hcodes := gencodesBody_eq (t := t)
    (s := { s with src := src, wt := weightsOf S P, tree := some t, ct := noCodes }) rfl
  have hmagic := wrmagicBody_eq
    (s := { s with src := src, wt := weightsOf S P, tree := some t, ct := codesOf t }) ho
  rw [compressAtEncode]
  generalize bitsOf Config.magicW Config.magic = m at hmagic ⊢
  have hheader := wrtreeBody_eq (t := t)
    (s := { s with
      src := src, wt := weightsOf S P, tree := some t, ct := codesOf t, snk := s.snk.writeString m })
    ho rfl
  have hrewind : src.rewind = s.src.rewind := by rw [← hsrc]; rfl
  rw [compressBody, requireOpen_open ho, andThen_ended, hcount, andThen_ended, hbuild, andThen_ended,
    hcodes, andThen_ended, hmagic, andThen_ended, hheader, andThen_ended, rewindBody, andThen_ended,
    writeString_writeString, hrewind]

/-- DECOMPRESS behind a good magic word. -/
theorem decompressBody_magic (ho : s.snk.closed = false)
    (hm : rdmagicBody s = .ended { s with src := s.src.skip 32 }) :
    decompressBody s =
      ((rdtreeBody { s with src := s.src.skip 32 }).andThen decodeBody |>.andThen
        closeBody).closeOnRaise := by
  rw [decompressBody, requireOpen_open ho, andThen_ended, hm, andThen_ended]

/-- DECOMPRESS behind a good magic word and a good tree header. -/
theorem decompressBody_tree {n : Nat} (ho : s.snk.closed = false)
    (hm : rdmagicBody s = .ended { s with src := s.src.skip 32 })
    (hr : rdtreeBody { s with src := s.src.skip 32 } = .ended { s with
      tree := some t, ct := noCodes, src := s.src.skip n }) :
    decompressBody s =
      ((decodeTree t { s with
        tree := some t, ct := noCodes, src := s.src.skip n }).andThen closeBody).closeOnRaise := by
  rw [decompressBody_magic ho hm, hr, andThen_ended, decodeBody_eq (t := t) (by exact ho) rfl]

/-- The magic word at the cursor. -/
theorem rdmagicBody_field {x : Bits} (h : s.src.rest = bitsOf Config.magicW Config.magic ++ x) :
    rdmagicBody s = .ended { s with src := s.src.skip 32 } := by
  apply rdmagicBody_good
  have hread := readBits_field h
  rw [bitsOf_length, natOf_bitsOf_of_lt (by decide)] at hread
  exact hread

end Sys2Proof.Machine
end

