-- ==== Sys2Proof/Laws/Encoding.lean ====
section
/-! SUPPORT. The decoder and the encoder, field by field. -/

namespace Sys2Proof

variable {P : Params}

theorem bitsOf_getElem? {n v i : Nat} (h : i < n) :
    (bitsOf n v)[i]? = some (v.testBit (n - 1 - i)) := by
  induction n generalizing i with
  | zero => omega
  | succ n ih =>
    cases i with
    | zero => simp [bitsOf]
    | succ i =>
      rw [bitsOf, List.getElem?_cons_succ, ih (by omega)]
      congr 2
      omega

/-- The word of a command (R50). -/
theorem encode_decodeCommand (op : Opcode) : encode (decodeCommand op) = bitsOf 4 op.toNat := by
  revert op; decide

/-- No two opcodes are the same instruction (R50). -/
theorem decodeCommand_injective : Function.Injective (decodeCommand (n := 4)) := by
  intro a b
  revert a b
  decide

theorem takeField_append {n v : Nat} (h : v < 2 ^ n) (x : Bits) :
    takeField n (bitsOf n v ++ x) = .ok (v, x) := by
  have htake : (bitsOf n v ++ x).take n = bitsOf n v := List.take_left' (bitsOf_length n v)
  have hdrop : (bitsOf n v ++ x).drop n = x := List.drop_left' (bitsOf_length n v)
  rw [takeField, if_neg (by simp), htake, hdrop, natOf_bitsOf_of_lt h]

/-- Everything a field read from the head of a bit string can be. -/
theorem takeField_ok {n v : Nat} {bs x : Bits} (h : takeField n bs = .ok (v, x)) :
    v < 2 ^ n ∧ bs = bitsOf n v ++ x := by
  unfold takeField at h
  split at h
  · cases h
  · cases h
    have hlen : (bs.take n).length = n := by simp; omega
    have hbits := bitsOf_natOf (bs.take n)
    have hlt := natOf_lt (bs.take n)
    rw [hlen] at hbits hlt
    exact ⟨hlt, by rw [hbits, List.take_append_drop]⟩

/-- What a walk from the root reads is put back by what it leaves. -/
theorem walkCode_append_eq {t : PrefixTree P} {bs p x : Bits} (h : walkCode t bs = some (p, x)) :
    bs = p ++ x := by
  induction t generalizing bs p with
  | leaf s w => cases h; rfl
  | node l r w ihl ihr =>
    match bs with
    | [] => cases h
    | false :: bs =>
      rw [walkCode] at h
      obtain ⟨⟨q, y⟩, hq, heq⟩ := Option.map_eq_some_iff.mp h
      cases heq
      rw [ihl hq, List.cons_append]
    | true :: bs =>
      rw [walkCode] at h
      obtain ⟨⟨q, y⟩, hq, heq⟩ := Option.map_eq_some_iff.mp h
      cases heq
      rw [ihr hq, List.cons_append]

end Sys2Proof
end

