-- ==== Sys2Proof/Laws/PerInstr.lean ====
section
/-! SUPPORT. What is said of every instruction, one lemma per constructor. -/

namespace Sys2Proof.Laws.EncodingWidth

/-- The width of an encoding: a command word has `CMD_W = 4` bits (R50), and of the records (R54) none is
longer than a code word may be, 256 bits. -/
def Statement (i : Instr) : Prop :=
  (i.StandsAt (.command : Place) → (encode i).length = hardware.cmdW) ∧
  (wellFormed i = true → (encode i).length ≤ hardware.codeMaxLen)

theorem nop : Statement .nop := ⟨fun _ => rfl, fun _ => by decide⟩
theorem count : Statement .count := ⟨fun _ => rfl, fun _ => by decide⟩
theorem build : Statement .build := ⟨fun _ => rfl, fun _ => by decide⟩
theorem gencodes : Statement .gencodes := ⟨fun _ => rfl, fun _ => by decide⟩
theorem wrmagic : Statement .wrmagic := ⟨fun _ => rfl, fun _ => by decide⟩
theorem wrtree : Statement .wrtree := ⟨fun _ => rfl, fun _ => by decide⟩
theorem rewind : Statement .rewind := ⟨fun _ => rfl, fun _ => by decide⟩
theorem encode : Statement .encode := ⟨fun _ => rfl, fun _ => by decide⟩
theorem rdmagic : Statement .rdmagic := ⟨fun _ => rfl, fun _ => by decide⟩
theorem rdtree : Statement .rdtree := ⟨fun _ => rfl, fun _ => by decide⟩
theorem decode : Statement .decode := ⟨fun _ => rfl, fun _ => by decide⟩
theorem close : Statement .close := ⟨fun _ => rfl, fun _ => by decide⟩
theorem compress : Statement .compress := ⟨fun _ => rfl, fun _ => by decide⟩
theorem decompress : Statement .decompress := ⟨fun _ => rfl, fun _ => by decide⟩
theorem clear : Statement .clear := ⟨fun _ => rfl, fun _ => by decide⟩
theorem reservedF : Statement .reservedF := ⟨fun _ => rfl, fun _ => by decide⟩
theorem streamMagic : Statement .streamMagic :=
  ⟨fun h => (nomatch h), fun _ => by simp [Sys2Proof.encode]⟩
theorem streamNodeInternal : Statement .streamNodeInternal :=
  ⟨fun h => (nomatch h), fun _ => by decide⟩
theorem streamNodeLeaf (s : Sym) : Statement (.streamNodeLeaf s) :=
  ⟨fun h => (nomatch h), fun _ => by simp [Sys2Proof.encode]⟩
theorem streamCodeword (p : Bits) : Statement (.streamCodeword p) :=
  ⟨fun ⟨_, h, _⟩ => (nomatch h), fun h => by simpa [wellFormed, Sys2Proof.encode] using h⟩
theorem streamByte (b : Byte) : Statement (.streamByte b) :=
  ⟨fun h => (nomatch h), fun _ => by simp [Sys2Proof.encode]⟩

end Sys2Proof.Laws.EncodingWidth
end

