-- ==== Sys2Proof/Laws/Raises.lean ====
section
/-! SUPPORT. Which raises each command's pseudocode can stop with (R130, R131). -/

namespace Sys2Proof.Machine
open Sys2Proof

variable {P : Params}

/-- If it stopped at a raise, the raise is one of `K`. -/
def RanRaises (K : Raise → Prop) : Ran P → Prop
  | .ended _ => True
  | .raised _ r => K r
  | .refused _ => True

theorem RanRaises.andThen {K : Raise → Prop} {x : Ran P} {f : State P → Ran P} (h : RanRaises K x)
    (hf : ∀ s, RanRaises K (f s)) : RanRaises K (x.andThen f) := by
  cases x with
  | ended s => exact hf s
  | raised s r => exact h
  | refused w => trivial

theorem RanRaises.closeOnRaise {K : Raise → Prop} {x : Ran P} (h : RanRaises K x) :
    RanRaises K x.closeOnRaise := by
  cases x <;> exact h

theorem RanRaises.mono {K Q : Raise → Prop} {x : Ran P} (h : RanRaises K x) (hKQ : ∀ r, K r → Q r) :
    RanRaises Q x := by
  cases x with
  | ended s => trivial
  | raised s r => exact hKQ r h
  | refused w => trivial

theorem requireOpen_raises (op : Nat) (s : State P) :
    RanRaises (· = ⟨.illegalCommand, 1, op⟩) (requireOpen op s) := by
  unfold requireOpen
  split
  · rfl
  · trivial

theorem nopBody_raises (K : Raise → Prop) (s : State P) : RanRaises K (nopBody s) := trivial

theorem rewindBody_raises (K : Raise → Prop) (s : State P) : RanRaises K (rewindBody s) := trivial

theorem closeBody_raises (K : Raise → Prop) (s : State P) : RanRaises K (closeBody s) := trivial

theorem reservedBody_raises (s : State P) :
    RanRaises (· = ⟨.illegalCommand, 0, 0xF⟩) (reservedBody s) := rfl

theorem countBody_raises (s : State P) : RanRaises (fun _ => False) (countBody s) := by
  unfold countBody
  split
  · trivial
  · rw [countLoop_eq]; trivial

theorem buildBody_raises (before : PqEntry P → PqEntry P → Bool) (s : State P) :
    RanRaises (· = ⟨.emptyAlphabet, 0, 0⟩) (buildBody before s) := by
  cases h : buildTree before s.wt with
  | none => rw [buildBody_none h]; rfl
  | some t => rw [buildBody_some h]; trivial

theorem gencodesBody_raises (s : State P) :
    RanRaises (· = ⟨.illegalCommand, 2, 0x3⟩) (gencodesBody s) := by
  unfold gencodesBody requireTree
  split
  · rfl
  · trivial

theorem wrmagicBody_raises (s : State P) :
    RanRaises (· = ⟨.illegalCommand, 1, 0x4⟩) (wrmagicBody s) :=
  (requireOpen_raises 0x4 s).andThen fun _ => trivial

theorem wrtreeBody_raises (s : State P) :
    RanRaises (fun r => r = ⟨.illegalCommand, 1, 0x5⟩ ∨ r = ⟨.illegalCommand, 2, 0x5⟩)
      (wrtreeBody s) := by
  refine ((requireOpen_raises 0x5 s).mono fun _ => .inl).andThen fun s' => ?_
  unfold requireTree
  split
  · exact .inr rfl
  · trivial

theorem rdmagicBody_raises (s : State P) :
    RanRaises (fun r => r = ⟨.illegalHeader, 1, 0⟩ ∨
      ∃ v, v ≠ Config.magic ∧ v < 2 ^ 32 ∧ r = ⟨.illegalHeader, 0, v⟩) (rdmagicBody s) := by
  rcases rdmagicBody_cases s with ⟨-, h⟩ | ⟨-, -, h⟩ | ⟨-, -, hv, hlt, h⟩ <;> rw [h]
  · exact .inl rfl
  · trivial
  · exact .inr ⟨_, hv, hlt, rfl⟩

theorem rdtreeBody_raises (s : State P) :
    RanRaises (fun r => r = ⟨.treeOverflow, 0, P.nodeCap⟩ ∨
      ∃ sub k, sub ≤ 1 ∧ k < P.nodeCap ∧ r = ⟨.truncatedHeader, sub, k⟩) (rdtreeBody s) := by
  rcases rdtreeBody_cases s with ⟨t, -, -, -, -, h⟩ | ⟨n, -, h⟩ | ⟨sub, k, n, hsub, hk, -, h⟩ <;>
    rw [h]
  · trivial
  · exact .inl rfl
  · exact .inr ⟨sub, k, hsub, hk, rfl⟩

theorem encodeBody_raises (s : State P) :
    RanRaises (fun r => r = ⟨.illegalCommand, 1, 0x7⟩ ∨
      ∃ sym, sym ≤ Config.term ∧ r = ⟨.missingCode, 0, sym⟩) (encodeBody s) := by
  refine ((requireOpen_raises 0x7 s).mono fun _ => .inl).andThen fun s' => ?_
  split
  · next he =>
    obtain ⟨-, -, -, -, h⟩ := encodeLoop_keeps _ _ _ _ he
    obtain ⟨b, hb, rfl⟩ := h _ rfl
    exact .inr ⟨b, by simp only [Config.term]; omega, rfl⟩
  · next snk he =>
    cases hc : codeOf s'.ct Config.term with
    | none => rw [writeCode_none snk hc]; exact .inr ⟨_, le_rfl, rfl⟩
    | some p => rw [writeCode_some snk hc]; trivial

theorem decodeTree_raises (t : PrefixTree P) (s : State P) :
    RanRaises (fun r => r = ⟨.truncatedStream, 0, 0⟩ ∨
      ∃ sym, sym < 512 ∧ sym ≠ Config.term ∧ r = ⟨.truncatedStream, 1, sym⟩) (decodeTree t s) := by
  unfold decodeTree
  split
  · next sym w =>
    split
    · trivial
    · next h => exact .inr ⟨sym.toNat, sym.isLt, h, rfl⟩
  · split
    · next he =>
      obtain ⟨-, -, -, -, h⟩ := decodeLoop_keeps _ _ _ _ _ he
      exact .inl (h _ rfl)
    · trivial

theorem decodeBody_raises (s : State P) :
    RanRaises (fun r => r = ⟨.illegalCommand, 1, 0xA⟩ ∨ r = ⟨.illegalCommand, 2, 0xA⟩ ∨
      r = ⟨.truncatedStream, 0, 0⟩ ∨
      ∃ sym, sym < 512 ∧ sym ≠ Config.term ∧ r = ⟨.truncatedStream, 1, sym⟩) (decodeBody s) := by
  refine ((requireOpen_raises 0xA s).mono fun _ => .inl).andThen fun s' => ?_
  unfold requireTree
  split
  · exact .inr (.inl rfl)
  · next t _ => exact (decodeTree_raises t s').mono fun _ h => .inr (.inr h)

end Sys2Proof.Machine
end

