-- ==== Sys2Proof/Tests/Slice0.lean ====
section
/-! SUPPORT. Small tests: the ill-formed term, words written out from the spec's encodings, single steps
with the results of `spec/95_test_vectors.md`, and for each obligation with hypotheses a concrete state
and operands that meet them. -/

namespace Sys2Proof.Tests
open Sys2Proof Sys2Proof.Machine

set_option Elab.async false

/-! ### Helpers -/

/-- The bits of a list of byte values. -/
def bytes (l : List Nat) : Bits := l.flatMap (bitsOf 8)

/-- The reset state with a source of these bits attached. -/
def start (b : Bits) : State := { State.reset with src := ⟨b, 0⟩ }

/-- The reset state with a fault latched (an `IllegalHeaderError`, `SUB = 1`). -/
def faulted : State := { State.reset with fault := true, cause := 0x11 }

/-- The reset state with a closed sink. -/
def closed : State := { State.reset with snk := ⟨[], true⟩ }

/-- The reset state with a busy block, which no run shows. -/
def busy : State := { State.reset with busy := true }

/-- A property of the next state; false of a stop. -/
def after (o : Host.Outcome State Fault Refusal) (p : State → Bool) : Bool :=
  match o with
  | .next s => p s
  | .fault _ => false
  | .refused _ => false

/-- The tree of V2 in `spec/95_test_vectors.md`. -/
def treeA : PrefixTree := .node (.leaf 0x41 1) (.leaf 256 1) 2

/-- The reset state with that tree. -/
def withTree : State := { State.reset with tree := some treeA }

/-- The weight table with one `0x41` and the terminator. -/
def weightsA : WeightTable := (noWeights.set 0x41 1).set 256 1

/-- The weights of the example of R75. -/
def withWeights : State :=
  { State.reset with wt := ((noWeights.set 0x41 15).set 0x42 1).set 256 1 }

/-- The code table of that tree. -/
def codesA : CodeTable := (noCodes.set 0x41 (some [false])).set 256 (some [true])

/-- A tree of `2n + 1` nodes: `n` internal nodes down the right side. -/
def chain : Nat → PrefixTree
  | 0 => .leaf 256 0
  | n + 1 => .node (.leaf 0 0) (chain n) 0

/-- The same down the left side: its header starts with `n` records `0`. -/
def chainLeft : Nat → PrefixTree
  | 0 => .leaf 256 0
  | n + 1 => .node (chainLeft n) (.leaf 0 0) 0

/-- A source of one byte, and the code table of its tree. -/
def encodeA : State := { start (bytes [0x41]) with ct := codesA }

/-- The payload of that byte, one pad bit after it, and its tree. -/
def decodeA : State := { start [false, true, true] with tree := some treeA }

/-- The file of the one byte `0x41`, V2 in `spec/95_test_vectors.md`. -/
def fileBitsA : Bits := bitsOf 55 0b1111101011001110100000100000000101001000001110000000001

/-- The magic word and the header of the tree that is the terminator's leaf alone (R55, R79). -/
def fileBitsZ : Bits := bitsOf 42 0b111110101100111010000010000000011100000000

/-- The compressed file of that byte (V2) and one pad bit. -/
def fileA : State :=
  start (fileBitsA ++ [false])

/-! ### Well-formedness -/

theorem test_long_codeword_ill_formed :
    wellFormed (.streamCodeword (List.replicate 257 false)) = false := by decide +kernel

theorem test_longest_codeword_well_formed :
    wellFormed (.streamCodeword (List.replicate 256 false)) = true := by decide +kernel

/-! ### Words written out from the spec's encodings (R50, R56 to R60) -/

theorem test_decode_commands :
    decodeTableWord 8 0b0000 = some .nop ∧ decodeTableWord 8 0b0001 = some .count ∧
    decodeTableWord 8 0b0010 = some .build ∧ decodeTableWord 8 0b0011 = some .gencodes ∧
    decodeTableWord 8 0b0100 = some .wrmagic ∧ decodeTableWord 8 0b0101 = some .wrtree ∧
    decodeTableWord 8 0b0110 = some .rewind ∧ decodeTableWord 8 0b0111 = some .encode ∧
    decodeTableWord 8 0b1000 = some .rdmagic ∧ decodeTableWord 8 0b1001 = some .rdtree ∧
    decodeTableWord 8 0b1010 = some .decode ∧ decodeTableWord 8 0b1011 = some .close ∧
    decodeTableWord 8 0b1100 = some .compress ∧ decodeTableWord 8 0b1101 = some .decompress ∧
    decodeTableWord 8 0b1110 = some .clear ∧ decodeTableWord 8 0b1111 = some .reservedF := by decide

theorem test_decode_magic :
    decodeTableWord 32 0b11111010110011101000001000000001 = some .streamMagic := by decide

theorem test_decode_wrong_magic : decodeTableWord 32 0xFACE8200 = none := by decide

theorem test_decode_leaf : decodeTableWord 16 0b1101000001 = some (.streamNodeLeaf 321#9) := by decide

theorem test_decode_internal :
    decodeIn (P := hardware) .node [false, true, true] = .ok (.streamNodeInternal, [true, true]) := by
  decide

theorem test_decode_codeword :
    decodeIn (P := hardware) (.code (.node (.node (.leaf 0x42 1) (.leaf 256 1) 2) (.leaf 0x41 15) 17))
      [false, true, true] = .ok (.streamCodeword [false, true], [true]) := by decide

theorem test_decode_empty_codeword : decodeTableWord 0 0 = some (.streamCodeword []) := by decide

theorem test_decode_byte : decodeTableWord 8 0x42 = some (.streamByte 0x42#8) := by decide

theorem test_decode_no_word : decodeTableWord 24 0 = none := by decide

/-! ### Single steps, with the results of `spec/95_test_vectors.md` -/

theorem test_nop_sets_done : after (exec .nop State.reset) (fun s => statusByte s == 0x02) = true := by
  decide

theorem test_nop_with_fault : exec .nop faulted = .next faulted := rfl

theorem test_count_bytes :
    after (exec .count (start (bytes [0, 0, 0xFF])))
      (fun s => s.wt[0] == 2 && s.wt[0xFF] == 1 && s.wt[256] == 1 && s.wt[1] == 0 && s.src.pos == 24)
      = true := by decide +kernel

theorem test_count_leftover_bits :
    after (exec .count (start (bytes [0x41] ++ [false, true, false])))
      (fun s => s.wt[0x41] == 1 && s.wt[256] == 1 && s.src.pos == 8) = true := by decide +kernel

theorem test_build_tie :
    after (exec .build { State.reset with wt := ((noWeights.set 0x41 2).set 0x42 1).set 256 1 })
      (fun s => s.tree == some (.node (.leaf 0x41 2) (.node (.leaf 0x42 1) (.leaf 256 1) 2) 4)
        && statusByte s == 0x0A) = true := by decide +kernel

theorem test_build_no_weights :
    after (exec .build State.reset) (fun s => statusByte s == 0x04 && s.cause == 0x04) = true := by
  decide +kernel

theorem test_gencodes_duplicate_symbol :
    after (exec .gencodes { State.reset with
        tree := some (.node (.leaf 0x41 0) (.node (.leaf 0x41 0) (.leaf 256 0) 0) 0) })
      (fun s => s.ct[0x41] == some [true, false] && s.ct[256] == some [true, true]) = true := by
  decide +kernel

theorem test_gencodes_no_tree :
    after (exec .gencodes State.reset) (fun s => s.cause == 0x27 && s.info == 3) = true := by
  decide +kernel

theorem test_wrmagic_bytes :
    after (exec .wrmagic State.reset) (fun s => s.snk.bits == bytes [0xFA, 0xCE, 0x82, 0x01]) = true := by
  decide +kernel

theorem test_wrmagic_closed :
    after (exec .wrmagic closed) (fun s => s.cause == 0x17 && s.info == 4) = true := by decide +kernel

theorem test_wrtree_bits :
    after (exec .wrtree withTree) (fun s => s.snk.bits == bitsOf 21 0b010010000011100000000) = true := by
  decide +kernel

theorem test_wrtree_closed_before_no_tree :
    after (exec .wrtree closed) (fun s => s.cause == 0x17 && s.info == 5) = true := by decide +kernel

theorem test_rewind_cursor :
    after (exec .rewind { State.reset with src := ⟨bytes [0x41], 8⟩ }) (fun s => s.src.pos == 0) = true := by
  decide +kernel

theorem test_encode_payload :
    after (exec .encode { start (bytes [0x41, 0x41]) with ct := codesA })
      (fun s => s.snk.bits == [false, false, true] && s.src.pos == 16) = true := by decide +kernel

theorem test_encode_missing :
    after (exec .encode { start (bytes [0x41, 0x43]) with ct := codesA })
      (fun s => s.cause == 0x05 && s.info == 0x43 && s.snk.bits == [false]) = true := by decide +kernel

theorem test_rdmagic_mismatch :
    after (exec .rdmagic (start (bytes [0xFA, 0xCE, 0x82, 0x00])))
      (fun s => s.cause == 0x01 && s.info == 0xFACE8200 && s.src.pos == 32) = true := by decide +kernel

theorem test_rdmagic_short :
    after (exec .rdmagic (start (bytes [0xFA, 0xCE, 0x82])))
      (fun s => s.cause == 0x11 && s.info == 0 && s.src.pos == 0) = true := by decide +kernel

theorem test_rdtree_reads_header :
    after (exec .rdtree (start (bitsOf 21 0b010010000011100000000 ++ [true])))
      (fun s => s.tree == some treeA.strip && s.src.pos == 21) = true := by decide +kernel

theorem test_rdtree_cut_field :
    after (exec .rdtree (start (bitsOf 16 0b0100100000111000)))
      (fun s => s.cause == 0x12 && s.info == 2 && s.src.pos == 12) = true := by decide +kernel

theorem test_decode_example :
    after (exec .decode { start [true, true, false, false, false, true, false, false, false, false] with
        tree := some (.node (.node (.leaf 0x42 0) (.leaf 256 0) 0) (.leaf 0x41 0) 0) })
      (fun s => s.snk.bits == bytes [0x41, 0x41, 0x42] && s.src.pos == 6) = true := by decide +kernel

theorem test_decode_foreign_symbol :
    after (exec .decode { start [false, true] with
        tree := some (.node (.leaf 321 0) (.leaf 256 0) 0) })
      (fun s => s.snk.bits == bytes [0x41]) = true := by decide +kernel

theorem test_close_example :
    after (exec .close State.reset) (fun s => statusByte s == 0x12) = true := by decide

theorem test_close_with_fault :
    after (exec .close faulted) (fun s => s.snk.closed && !s.done && s.cause == 0x11) = true := by decide

theorem test_clear_example :
    after (exec .clear { State.reset with fault := true, cause := 0x01, snk := ⟨[], true⟩ })
      (fun s => statusByte s == 0x10 && s.cause == 0x00) = true := by decide

theorem test_compress_v2 :
    after (exec .compress (start (bytes [0x41])))
      (fun s => s.snk.bits == bitsOf 55 0b1111101011001110100000100000000101001000001110000000001 &&
        statusByte s == 0x1A && s.src.pos == 8) = true := by decide +kernel

theorem test_compress_v3 :
    after (exec .compress (start (bytes [0x41, 0x41, 0x41, 0x41])))
      (fun s => s.snk.bits ++ List.replicate 6 false ==
        bytes [0xFA, 0xCE, 0x82, 0x01, 0x60, 0x12, 0x0F, 0x80]) = true := by decide +kernel

theorem test_decompress_v1 :
    after (exec .decompress (start (bytes [0xFA, 0xCE, 0x82, 0x01, 0xC0, 0x00])))
      (fun s => s.snk.bits == [] && s.src.pos == 42 && statusByte s == 0x1A) = true := by decide +kernel

theorem test_decompress_v4 :
    after (exec .decompress (start (bytes
        [0xFA, 0xCE, 0x82, 0x01, 0x24, 0x2C, 0x02, 0x41, 0xFF, 0xFE, 0x20])))
      (fun s => s.snk.bits == bytes (List.replicate 15 0x41 ++ [0x42]) && s.src.pos == 83) = true := by
  decide +kernel

theorem test_reserved_raises :
    after (exec .reservedF State.reset) (fun s => s.cause == 0x07 && s.info == 0xF) = true := by decide

theorem test_records_are_refused :
    exec (.streamByte 0x41) State.reset = .refused .streamRecordIsNoCommand ∧
    exec .streamMagic State.reset = .refused .streamRecordIsNoCommand := ⟨rfl, rfl⟩

/-! ### Host steps -/

theorem test_step_issue :
    after (step { State.reset with host := [.issue 0x0#4] }) (fun s => s.done && s.host == []) = true := by
  decide

theorem test_inspect_code :
    inspect 2 0x41 { State.reset with ct := noCodes.set 0x41 (some [true, true, false]) } =
      .code 1 3 (0xC#256 <<< 252) := by decide +kernel

theorem test_fetch_word :
    after (step (State.reset.withFetchWord 8 0xB)) (fun s => s.snk.closed && s.done) = true := by decide

/-! ### Witnesses: for each obligation with hypotheses, states and operands that meet them -/

theorem witness_DecodeUndoesEncode :
    Instr.compress.StandsAt (.command : Place) ∧ Instr.streamMagic.StandsAt (.magic : Place) ∧
    (Instr.streamNodeLeaf 511).StandsAt (.node : Place) ∧ (Instr.streamByte 0xFF).StandsAt (.symbol : Place) ∧
    (Instr.streamCodeword [true]).StandsAt (.code treeA) ∧
    (Instr.streamCodeword []).StandsAt (.code (.leaf 256 1) : Place) ∧
    wellFormed (.streamCodeword [true]) = true :=
  ⟨rfl, rfl, rfl, rfl, ⟨treeA, rfl, rfl⟩, ⟨.leaf 256 1, rfl, rfl⟩, rfl⟩

theorem witness_EncodeUndoesDecode :
    decodeIn (P := hardware) .command [true, true, false, false, true] = .ok (.compress, [true]) := by
  decide

theorem witness_ReadBitsReturnsTheNextField :
    1 ≤ 4 ∧ (start (bitsOf 4 9)).src.bits.length - (start (bitsOf 4 9)).src.pos < 5 ∧
    4 ≤ (start (bitsOf 4 9)).src.bits.length - (start (bitsOf 4 9)).src.pos := by decide

theorem witness_WriteBitsAppendsTheLowBits : 1 ≤ 1 := by decide

theorem witness_SplitReadsJoin :
    (start (bytes [0x12, 0x34])).src.readBits (8 + 8) = some (0x1234, ⟨bytes [0x12, 0x34], 16⟩) := by
  decide +kernel

theorem witness_ClearResetsTheBlock :
    faulted.fault = true ∧ Instr.nop ≠ .clear ∧ exec .nop faulted = .next faulted :=
  ⟨rfl, by decide, rfl⟩

theorem witness_HostStepsDoWhatTheyName (h : HostStep) :
    ({ State.reset with host := [h] } : State).busy = false ∧
    ({ State.reset with host := [h] } : State).host = h :: [] := ⟨rfl, rfl⟩

theorem witness_IdleKeepsStateAndBusyIsRefused :
    State.reset.busy = false ∧ State.reset.host = [] ∧ busy.busy = true := ⟨rfl, rfl, rfl⟩

theorem witness_StepRunsTheDecodedCommand :
    State.reset.busy = false ∧ decodeWord 32 0xFACE8201 = .ok .streamMagic ∧
    decodeWord 24 0 = .error .noSuchWord ∧ decodeTableWord 8 0xF = some .reservedF := by decide

theorem witness_InspectionPortShowsTheTables :
    State.reset.ct[0] = none ∧ codesA[256] = some [true] ∧ [true].length ≤ 256 ∧
    ((0 = 0 ∧ 3 ≤ 3) ∨ (0 = 1 ∧ 257 ≤ 3)) := by decide +kernel

theorem witness_NopOnlySetsDone : State.reset.fault = false ∧ faulted.fault = true := ⟨rfl, rfl⟩

theorem witness_CloseClosesTheSink : State.reset.fault = false ∧ faulted.fault = true := ⟨rfl, rfl⟩

theorem witness_ReservedOpcodeRaises : State.reset.fault = false ∧ faulted.fault = true := ⟨rfl, rfl⟩

theorem witness_RewindSetsTheCursorToZero : State.reset.fault = false ∧ faulted.fault = true :=
  ⟨rfl, rfl⟩

theorem witness_WrmagicAppendsTheMagicWord :
    State.reset.fault = false ∧ State.reset.snk.closed = false ∧ closed.fault = false ∧
    closed.snk.closed = true := ⟨rfl, rfl, rfl, rfl⟩

theorem witness_RdmagicChecksTheMagicWord :
    (start (bytes [0xFA, 0xCE, 0x82])).fault = false ∧
    (start (bytes [0xFA, 0xCE, 0x82])).src.bits.length - (start (bytes [0xFA, 0xCE, 0x82])).src.pos < 32 ∧
    (start (bytes [0xFA, 0xCE, 0x82, 0x01])).fault = false ∧
    (start (bytes [0xFA, 0xCE, 0x82, 0x01])).src.readBits 32 =
      some (0xFACE8201, ⟨bytes [0xFA, 0xCE, 0x82, 0x01], 32⟩) ∧
    (start (bytes [0xFA, 0xCE, 0x82, 0x00])).src.readBits 32 =
      some (0xFACE8200, ⟨bytes [0xFA, 0xCE, 0x82, 0x00], 32⟩) ∧
    0xFACE8200 ≠ 0xFACE8201 := by decide +kernel

theorem witness_MisusedCommandsRaise :
    closed.fault = false ∧ closed.snk.closed = true ∧ closed.tree = none ∧
    State.reset.tree = none ∧ State.reset.snk.closed = false := by decide

theorem witness_LatchedFaultIsSticky :
    faulted.fault = true ∧
    step { faulted with host := [.issue 0xB#4] } = .next (closeSink faulted) :=
  ⟨rfl, rfl⟩

theorem witness_DoneFlagAfterACommand :
    exec .clear faulted = .next (clearBlock faulted) ∧ exec .nop faulted = .next faulted ∧
    exec .nop State.reset = .next { State.reset with done := true } := ⟨rfl, rfl, rfl⟩

theorem witness_RaiseLatchesTheFault :
    State.reset.fault = false ∧
    gencodesBody State.reset.begin = .raised State.reset.begin ⟨.illegalCommand, 2, 3⟩ ∧
    State.reset.begin.fault = false ∧ (⟨.illegalCommand, 2, 3⟩ : Raise).sub < 16 :=
  ⟨rfl, rfl, rfl, by decide⟩

theorem witness_CountFillsTheWeightTable :
    (start (bytes [0x41])).fault = false ∧
    ((start (bytes [0x41])).src.bits.length - (start (bytes [0x41])).src.pos) / 8 ≤ 2 ^ 32 - 2 := by
  decide

/-- A source one byte longer than `MAX_INPUT_BYTES`. -/
theorem witness_TooLongInputIsRefused :
    ∃ s : State, s.fault = false ∧ s.snk.closed = false ∧
      2 ^ 32 - 2 < (s.src.bits.length - s.src.pos) / 8 := by
  have key : ∀ n : Nat, 2 ^ 32 - 2 < n → ∃ s : State, s.fault = false ∧ s.snk.closed = false ∧
      2 ^ 32 - 2 < (s.src.bits.length - s.src.pos) / 8 := by
    intro n hn
    refine ⟨start (List.replicate (8 * n) false), rfl, rfl, ?_⟩
    have hlen : (start (List.replicate (8 * n) false)).src.bits.length = 8 * n := List.length_replicate
    have hpos : (start (List.replicate (8 * n) false)).src.pos = 0 := rfl
    rw [hlen, hpos]
    omega
  exact key (2 ^ 32 - 1) (by decide)

theorem witness_BuildWithoutWeightsRaises :
    State.reset.fault = false ∧ (∀ i, ∀ h : i < 257, State.reset.wt[i] = 0) ∧
    closed.fault = false ∧ after (exec .compress closed) (fun t => t.fault) = true :=
  ⟨rfl, fun i h => by simp [State.reset], rfl, by decide +kernel⟩

theorem witness_BuildMakesTheTree :
    State.reset.fault = false ∧ (∃ i, ∃ h : i < 257, weightsA[i] ≠ 0) ∧
    (weightsA.toList.map BitVec.toNat).sum < 2 ^ 32 :=
  ⟨rfl, ⟨256, by decide, by decide +kernel⟩, by decide +kernel⟩

/-- The leaves of V2 in the priority collection. -/
def leafA : PqEntry := ⟨.leaf 0x41 1, 0⟩
def leafEnd : PqEntry := ⟨.leaf 256 1, 1⟩

theorem witness_MergeTakesTheTwoLightest :
    ([leafA, leafEnd].map PqEntry.seq).Nodup ∧
    removeMin tieBreak [leafA, leafEnd] = some (leafA, [leafEnd]) ∧
    removeMin tieBreak [leafEnd] = some (leafEnd, []) ∧
    (weightOf leafA.tree).toNat + (weightOf leafEnd.tree).toNat < 2 ^ 32 ∧
    (withWeights.fault = false ∧ ∃ i, ∃ h : i < 257, withWeights.wt[i] ≠ 0) :=
  ⟨by decide, by decide, by decide, by decide, rfl, 256, by decide, by decide +kernel⟩

/-- The collection of the example of R75, and its merges worked out there: the leaves of weight 1 first,
then the sum with the heavier leaf on the right. -/
theorem witness_Merges :
    startCollection withWeights.wt =
      [⟨.leaf 0x41 15, 0⟩, ⟨.leaf 0x42 1, 1⟩, ⟨.leaf 256 1, 2⟩] ∧
    Merges tieBreak [⟨.leaf 0x41 15, 0⟩, ⟨.leaf 0x42 1, 1⟩, ⟨.leaf 256 1, 2⟩] 3
      (.node (.node (.leaf 0x42 1) (.leaf 256 1) 2) (.leaf 0x41 15) 17 : PrefixTree) :=
  ⟨by decide +kernel,
    .step (a := ⟨.leaf 0x42 1, 1⟩) (b := ⟨.leaf 256 1, 2⟩) (others := [⟨.leaf 0x41 15, 0⟩])
      (by decide) (by decide) (by decide)
      (.step (a := ⟨.node (.leaf 0x42 1) (.leaf 256 1) 2, 3⟩) (b := ⟨.leaf 0x41 15, 0⟩)
        (others := []) (by decide) (by decide) (by decide) (.done _ _))⟩

theorem witness_SmallAlphabetTrees : 2 ≤ 2 ^ 32 - 2 ∧ 2 ^ 32 - 2 ≤ 2 ^ 32 - 2 := by decide

theorem witness_StaleCodesAreCaught :
    ({ start (bytes [0x41]) with wt := weightsA, ct := codesA } : State).fault = false ∧
    ({ start (bytes [0x41]) with wt := weightsA, ct := codesA } : State).snk.closed = false ∧
    after (exec .build { start (bytes [0x41]) with wt := weightsA, ct := codesA })
      (fun t => !t.fault && bytesOf (t.src.bits.drop t.src.pos) == [0x41#8]) = true ∧
    after (exec .rdtree { start (ser treeA) with ct := codesA })
      (fun t => !t.fault && bytesOf (t.src.bits.drop t.src.pos) == []) = true := by decide +kernel

theorem witness_GencodesRecordsThePaths : withTree.fault = false ∧ withTree.tree = some treeA :=
  ⟨rfl, rfl⟩

theorem witness_CodesArePrefixFree :
    treeA.leafAt [true] = some 256#9 ∧ treeA.leafAt ([true] ++ []) = some 256#9 ∧
    after (exec .gencodes withTree) (fun t => !t.fault && codeOf t.ct 256 == some [true] &&
      codeOf t.ct 256 == some ([true] ++ [])) = true ∧
    after (exec .build { State.reset with wt := weightsA })
      (fun t => !t.fault && after (exec .gencodes t) (fun u => u.ct == codesA)) = true := by
  decide +kernel

theorem witness_WrtreeAppendsTheHeader :
    withTree.fault = false ∧ withTree.snk.closed = false ∧ withTree.tree = some treeA :=
  ⟨rfl, rfl, rfl⟩

theorem witness_HeaderLength :
    after (exec .build { State.reset with wt := weightsA }) (fun u => u.tree == some treeA) = true := by
  decide +kernel

theorem witness_HeaderRoundTrip :
    (start (ser treeA ++ [true])).fault = false ∧ treeA.nodes ≤ 513 ∧ (chain 256).nodes ≤ 513 ∧
    (start (ser treeA ++ [true])).src.bits.drop (start (ser treeA ++ [true])).src.pos =
      ser treeA ++ [true] ∧
    (start (ser (chain 256))).src.bits.drop (start (ser (chain 256))).src.pos =
      ser (chain 256) ++ [] ∧
    ser treeA ++ [true] = ser treeA.strip ++ [true] := by decide +kernel

theorem witness_RdtreeOutcomes : State.reset.fault = false := rfl

theorem witness_BadHeadersRaise :
    (start (bitsOf 11 0b01001000001)).fault = false ∧
    2 < treeA.nodes ∧ 512 < (chainLeft 600).nodes ∧ 512 < 513 ∧
    (start (bitsOf 512 0)).src.bits.drop (start (bitsOf 512 0)).src.pos =
      ((chainLeft 600).records.take 512).flatten ∧
    (start (bitsOf 11 0b01001000001)).src.bits.drop (start (bitsOf 11 0b01001000001)).src.pos =
      (treeA.records.take 2).flatten ∧
    (start (bitsOf 16 0b0100100000111000)).src.bits.drop 0 =
      (treeA.records.take 2).flatten ++ true :: [true, false, false, false] ∧
    ([true, false, false, false] : Bits).length < 9 ∧
    513 < (chain 257).nodes ∧
    (start (ser (chain 257))).src.bits.drop (start (ser (chain 257))).src.pos =
      ((chain 257).records.take 513).flatten ++ (ser (chain 257)).drop 2817 := by decide +kernel

theorem witness_EncodeWritesThePayload :
    encodeA.fault = false ∧ encodeA.snk.closed = false ∧
    codeWords encodeA.ct (bytesOf (encodeA.src.bits.drop encodeA.src.pos)) = some [false] ∧
    encodeA.ct[256] = some [true] := by decide +kernel

theorem witness_EncodeRaisesAtAMissingCode :
    ({ start (bytes [0x41, 0x43]) with ct := codesA } : State).fault = false ∧
    ({ start (bytes [0x41, 0x43]) with ct := codesA } : State).snk.closed = false ∧
    bytesOf ((start (bytes [0x41, 0x43])).src.bits.drop (start (bytes [0x41, 0x43])).src.pos) =
      [0x41#8] ++ 0x43#8 :: [] ∧
    codeWords codesA [0x41#8] = some [false] ∧ codeOf codesA (0x43#8).toNat = none ∧
    State.reset.fault = false ∧ State.reset.snk.closed = false ∧
    codeWords State.reset.ct (bytesOf (State.reset.src.bits.drop State.reset.src.pos)) = some [] ∧
    State.reset.ct[256] = none := by decide +kernel

theorem witness_ForgottenRewindIsSilent :
    encodeA.fault = false ∧ encodeA.snk.closed = false ∧ encodeA.ct[256] = some [true] ∧
    after (exec .count encodeA) (fun _ => true) = true := by decide +kernel

theorem witness_DecodeTakesOneCodeAtATime :
    decodeA.fault = false ∧ decodeA.snk.closed = false ∧ decodeA.tree = some treeA ∧
    treeA.leafAt [false] = some 0x41#9 ∧ 0x41#9 ≠ 256#9 ∧
    decodeA.src.bits.drop decodeA.src.pos = [false] ++ [true, true] ∧
    treeA.leafAt [true] = some 256#9 ∧
    ({ decodeA with src := ⟨[true], 0⟩ } : State).src.bits.drop 0 = [true] ++ [] := by decide +kernel

theorem witness_DecodeInvertsEncode :
    decodeA.fault = false ∧ decodeA.snk.closed = false ∧ decodeA.tree = some treeA ∧
    codeWords (codesOf treeA) [0x41#8] = some [false] ∧ codeOf (codesOf treeA) 256 = some [true] ∧
    decodeA.src.bits.drop decodeA.src.pos = [false] ++ [true] ++ [true] := by decide +kernel

theorem witness_DecodeOfALeafRoot :
    ({ State.reset with tree := some (.leaf 256 0) } : State).fault = false ∧
    ({ State.reset with tree := some (.leaf 256 0) } : State).snk.closed = false ∧
    ({ State.reset with tree := some (.leaf 256 0) } : State).tree = some (.leaf 256#9 0) ∧
    ({ State.reset with tree := some (.leaf 511 0) } : State).tree = some (.leaf 511#9 0) ∧
    511#9 ≠ 256#9 := by decide +kernel

/-- A tree whose left leaf is not a byte. -/
def treeHigh : PrefixTree := .node (.leaf 511 0) (.leaf 256 0) 0

theorem witness_ExhaustedPayloadRaises :
    ({ start [false] with tree := some treeA } : State).fault = false ∧
    ({ start [false] with tree := some treeA } : State).snk.closed = false ∧
    (start [false]).src.pos ≤ (start [false]).src.bits.length ∧
    codeWords (codesOf treeA) [0x41#8] = some [false] ∧ codeOf (codesOf treeA) 256 = some [true] ∧
    ([true] : Bits) ≠ [] ∧
    (start [false]).src.bits.drop (start [false]).src.pos ++ [true] = [false] ++ [true] ∧
    256#9 ∉ (.node (.leaf 0 0) (.leaf 1 0) 0 : PrefixTree).syms := by decide +kernel

theorem witness_ExhaustedPayloadRaises_high :
    ({ start [false, false] with tree := some treeHigh } : State).tree = some treeHigh ∧
    treeHigh.CutPayload [(511#9, [false]), (511#9, [false])] []
      ((start [false, false]).src.bits.drop (start [false, false]).src.pos) :=
  ⟨rfl, by decide, rfl, [true], 256#9, by decide, rfl⟩

theorem witness_PadBitsNeverMatter :
    decodeA.fault = false ∧
    after (exec .decode decodeA) (fun t => !t.fault && t.src.pos == 2) = true := by decide +kernel

theorem witness_CompositesAreTheirSteps :
    State.reset.fault = false ∧ State.reset.snk.closed = false := ⟨rfl, rfl⟩

/-- On a closed sink; at the first step; in DECODE after one byte was written; in ENCODE after the magic
word and the header were written (R153: COMPRESS not from the start of the source). -/
theorem witness_FailedCompositeClosesTheSink :
    after (exec .compress closed) (fun t => t.fault) = true ∧
    after (exec .decompress State.reset) (fun t => t.fault) = true ∧
    after (exec .decompress (start (fileBitsA.take 54)))
      (fun t => t.fault && t.snk == { bits := bytes [0x41], closed := true }) = true ∧
    after (exec .compress { State.reset with src := { bits := bytes [0x41], pos := 8 } })
      (fun t => t.fault && t.snk == { bits := fileBitsZ, closed := true }) = true := by
  decide +kernel

theorem witness_CompressWritesTheFile :
    (start (bytes [0x41])).fault = false ∧ (start (bytes [0x41])).src.pos = 0 ∧
    (start (bytes [0x41])).src.bits.length / 8 ≤ 2 ^ 32 - 2 ∧
    (start (bytes [0x41])).snk = { bits := [], closed := false } := by decide

theorem witness_DecompressReadsTheFile :
    treeOf (P := hardware) tieBreak [0x41#8] = some treeA ∧
    fileOf (P := hardware) tieBreak [0x41#8] = some fileBitsA ∧
    fileA.fault = false ∧ fileA.snk.closed = false ∧
    fileA.src = { bits := fileBitsA ++ [false], pos := 0 } := by decide +kernel

theorem witness_CompressThenDecompressIsTheInput :
    ([0x41#8] : List Byte).length ≤ hardware.maxInputBytes ∧ (start (bytes [0x41])).fault = false ∧
    (start (bytes [0x41])).src = { bits := bitsOfBytes [0x41#8], pos := 0 } ∧
    (start (bytes [0x41])).snk = { bits := [], closed := false } ∧
    fileOf (P := hardware) tieBreak [0x41#8] = some fileBitsA ∧
    fileA.fault = false ∧ fileA.snk = { bits := [], closed := false } ∧
    fileA.src = { bits := fileBitsA ++ [false], pos := 0 } := by decide +kernel

theorem witness_CompressThenDecompressIsTheInput_builds :
    hardware.Legal ∧ Params.Legal { weightW := 8, nodeCap := 600, codeMaxLen := 300 } ∧
    ([0x41#8] : List Byte).length ≤ ({ weightW := 8, nodeCap := 600 } : Params).maxInputBytes :=
  ⟨⟨by decide, by decide, by decide⟩, ⟨by decide, by decide, by decide⟩, by decide⟩

theorem witness_CorruptFilesAreRejected :
    (start (bytes [0xFA, 0xCE, 0x82, 0x00])).fault = false ∧
    (start (bytes [0xFA, 0xCE, 0x82, 0x00])).snk.closed = false ∧
    (start (bytes [0xFA, 0xCE, 0x82, 0x00])).src.pos = 0 ∧
    (start (bytes [0xFA, 0xCE, 0x82, 0x00])).src.bits.take 32 ≠ bitsOf 32 0xFACE8201 ∧
    treeOf (P := hardware) tieBreak [] = some (.leaf 256 1) ∧
    fileOf (P := hardware) tieBreak [] = some ((bitsOf 32 0xFACE8201 ++ bitsOf 9 0b110000000) ++ [false]) ∧
    ([false] : Bits) ≠ [] ∧
    (start (bitsOf 32 0xFACE8201 ++ bitsOf 9 0b110000000)).src =
      { bits := bitsOf 32 0xFACE8201 ++ bitsOf 9 0b110000000, pos := 0 } := by decide +kernel

theorem witness_CorruptFilesAreRejected_cuts :
    fileOf (P := hardware) tieBreak [0x41#8] = some fileBitsA ∧
    fileBitsA = fileBitsA.take 31 ++ fileBitsA.drop 31 ∧ fileBitsA.drop 31 ≠ [] ∧
    fileBitsA = fileBitsA.take 32 ++ fileBitsA.drop 32 ∧ fileBitsA.drop 32 ≠ [] ∧
    32 + (ser treeA).length = 53 ∧
    fileBitsA = fileBitsA.take 53 ++ fileBitsA.drop 53 ∧ fileBitsA.drop 53 ≠ [] ∧
    fileBitsA = fileBitsA.take 54 ++ fileBitsA.drop 54 ∧ fileBitsA.drop 54 ≠ [] ∧
    (start (fileBitsA.take 54)).src = { bits := fileBitsA.take 54, pos := 0 } := by decide +kernel

theorem witness_CommandsRaiseOnlyTheirFaults :
    after (exec .compress closed) (fun t => t.fault) = true ∧ closed.src.pos = 0 ∧
    after (exec .encode State.reset) (fun t => t.fault) = true := by decide +kernel

theorem witness_CommandsLeaveTheRestUnchanged :
    after (exec .decompress State.reset) (fun _ => true) = true := by decide +kernel

theorem witness_TheSinkOnlyGrows :
    exec .clear closed = .next (clearBlock closed) ∧ closed.snk.closed = true ∧
    after (exec .close State.reset) (fun t => t.snk.closed != State.reset.snk.closed) = true :=
  ⟨rfl, rfl, by decide⟩

theorem witness_StepKeepsControlLegal : ControlLegal State.reset ∧ step State.reset = .next State.reset :=
  ⟨⟨rfl, fun _ => rfl, fun _ => ⟨rfl, rfl⟩, fun h => nomatch h⟩, rfl⟩

theorem witness_StepKeepsTablesLegal : TablesLegal State.reset := by
  refine ⟨fun t h => (nomatch h), fun sym p h => ?_⟩
  unfold codeOf at h
  split at h <;> simp [State.reset] at h

theorem witness_StepKeepsWeightsAndCursorLegal : WeightsLegal State.reset ∧ SourceLegal State.reset := by
  refine ⟨⟨.inl rfl, ?_⟩, Nat.le_refl 0⟩
  decide +kernel

theorem witness_DecompressStopsInABadHeader :
    State.reset.fault = false ∧ State.reset.snk.closed = false ∧ 512 < (chainLeft 600).nodes ∧
    bitsOf 32 0xFACE8201 ++ bitsOf 512 0 =
      bitsOf 32 0xFACE8201 ++ ((chainLeft 600).records.take 512).flatten ∧
    2 < treeA.nodes ∧
    bitsOf 32 0xFACE8201 ++ bitsOf 16 0b0100100000111000 =
      bitsOf 32 0xFACE8201 ++ ((treeA.records.take 2).flatten ++ true :: [true, false, false, false]) ∧
    ([true, false, false, false] : Bits).length < 9 ∧ 513 < (chainLeft 600).nodes ∧
    bitsOf 32 0xFACE8201 ++ bitsOf 514 0 =
      bitsOf 32 0xFACE8201 ++ (((chainLeft 600).records.take 513).flatten ++ [false]) := by decide +kernel

end Sys2Proof.Tests
end

section
/-! What a command's body can do, packaged once for the proofs below: the body behind each command word,
the inversion of `exec` onto it, the five data fields a body can write, and the induction that carries a
relation from the bodies to `exec` and an invariant from `exec` to `step`. -/

namespace Sys2Proof.Machine
open Sys2Proof

variable {P : Params}

/-! ### The body of a command -/

/-- The pseudocode of the commands that are no composites and run under `accept` (R113). -/
def primitiveBody : Instr → Option (State → Ran)
  | .nop => some nopBody
  | .count => some countBody
  | .build => some (buildBody tieBreak)
  | .gencodes => some gencodesBody
  | .wrmagic => some wrmagicBody
  | .wrtree => some wrtreeBody
  | .rewind => some rewindBody
  | .encode => some encodeBody
  | .rdmagic => some rdmagicBody
  | .rdtree => some rdtreeBody
  | .decode => some decodeBody
  | .close => some closeBody
  | .reservedF => some reservedBody
  | .compress | .decompress | .clear => none
  | .streamMagic | .streamNodeInternal | .streamNodeLeaf _ | .streamCodeword _ | .streamByte _ => none

/-- The pseudocode of every command but CLEAR, which has no acceptance (R113, R118). -/
def commandBody : Instr → Option (State → Ran)
  | .compress => some (compressBody tieBreak)
  | .decompress => some decompressBody
  | i => primitiveBody i

theorem commandBody_cases {i : Instr} {body : State → Ran} (hb : commandBody i = some body) :
    primitiveBody i = some body ∨ (i = .compress ∧ body = compressBody tieBreak) ∨
      (i = .decompress ∧ body = decompressBody) := by
  unfold commandBody at hb
  split at hb
  · cases hb; exact .inr (.inl ⟨rfl, rfl⟩)
  · cases hb; exact .inr (.inr ⟨rfl, rfl⟩)
  · exact .inl hb

theorem commandBody_of_primitive {i : Instr} {body : State → Ran} (hb : primitiveBody i = some body) :
    commandBody i = some body := by
  cases i
  case compress => cases hb
  case decompress => cases hb
  all_goals exact hb

theorem exec_of_commandBody {i : Instr} {body : State → Ran} (hb : commandBody i = some body) {s : State}
    (hs : i ≠ .close ∨ s.fault = false) : exec i s = accept body s := by
  cases i <;> cases hb
  case close =>
    have hf : s.fault = false := hs.resolve_left fun h => h rfl
    exact if_neg (by simp [hf])
  all_goals rfl

/-- Only CLEAR answers a next state without a body. -/
theorem eq_clear_of_commandBody_none {i : Instr} (hb : commandBody i = none) {s t : State}
    (h : exec i s = .next t) : i = .clear := by
  cases i <;> cases hb
  case clear => rfl
  all_goals cases h

/-- Every answer of `exec`, with the run of the body that gave it. -/
theorem exec_run {i : Instr} {s t : State} (h : exec i s = .next t) :
    (i = .clear ∧ t = clearBlock s) ∨
    (s.fault = true ∧ (t = s ∨ (i = .close ∧ t = closeSink s))) ∨
    (s.fault = false ∧ ∃ body, commandBody i = some body ∧
      ((∃ s', body s.begin = .ended s' ∧ t = s'.finish) ∨
        ∃ s' r, body s.begin = .raised s' r ∧ t = takeFault r s')) := by
  cases hb : commandBody i with
  | none =>
    obtain rfl := eq_clear_of_commandBody_none hb h
    cases h
    exact .inl ⟨rfl, rfl⟩
  | some body =>
    by_cases hc : i = .close ∧ s.fault = true
    · obtain ⟨rfl, hf⟩ := hc
      have hclose : exec .close s = .next (closeSink s) := if_pos hf
      rw [hclose] at h
      cases h
      exact .inr (.inl ⟨hf, .inr ⟨rfl, rfl⟩⟩)
    · have hs : i ≠ .close ∨ s.fault = false := by
        cases hf : s.fault <;> simp_all
      rw [exec_of_commandBody hb hs] at h
      rcases accept_cases h with ⟨hf, ht⟩ | ⟨hf, hrun⟩ | ⟨hf, hrun⟩
      · exact .inr (.inl ⟨hf, .inl ht⟩)
      · exact .inr (.inr ⟨hf, body, rfl, .inl hrun⟩)
      · exact .inr (.inr ⟨hf, body, rfl, .inr hrun⟩)

theorem commandBody_keeps {i : Instr} {body : State → Ran} (hb : commandBody i = some body) (s : State) :
    RanKeeps s (body s) := by
  cases i <;> cases hb
  case nop => exact nopBody_keeps s
  case count => exact countBody_keeps s
  case build => exact buildBody_keeps _ s
  case gencodes => exact gencodesBody_keeps s
  case wrmagic => exact wrmagicBody_keeps s
  case wrtree => exact wrtreeBody_keeps s
  case rewind => exact rewindBody_keeps s
  case encode => exact encodeBody_keeps s
  case rdmagic => exact rdmagicBody_keeps s
  case rdtree => exact rdtreeBody_keeps s
  case decode => exact decodeBody_keeps s
  case close => exact closeBody_keeps s
  case compress => exact compressBody_keeps _ s
  case decompress => exact decompressBody_keeps s
  case reservedF => exact reservedBody_keeps s

/-! ### The data fields -/

/-- What a body can write: the two tables, the tree, the source, the sink, and, apart from the rest of
the sink, the level of its `closed` wire. -/
inductive DataField where
  | wt
  | ct
  | tree
  | src
  | snk
  | level

/-- Of the data fields only those in `W` can differ. -/
structure Frame (W : List DataField) (s t : State P) : Prop where
  wt : .wt ∉ W → t.wt = s.wt
  ct : .ct ∉ W → t.ct = s.ct
  tree : .tree ∉ W → t.tree = s.tree
  src : .src ∉ W → t.src = s.src
  snk : .snk ∉ W → t.snk = s.snk
  level : .level ∉ W → t.snk.closed = s.snk.closed

theorem frame_of_same (W : List DataField) {s t : State P} (hwt : t.wt = s.wt) (hct : t.ct = s.ct)
    (htree : t.tree = s.tree) (hsrc : t.src = s.src) (hsnk : t.snk = s.snk) : Frame W s t :=
  ⟨fun _ => hwt, fun _ => hct, fun _ => htree, fun _ => hsrc, fun _ => hsnk,
    fun _ => congrArg Sink.closed hsnk⟩

theorem Frame.refl (W : List DataField) (s : State P) : Frame W s s := frame_of_same W rfl rfl rfl rfl rfl

theorem Frame.trans {W : List DataField} {a b c : State P} (h : Frame W a b) (h' : Frame W b c) :
    Frame W a c :=
  ⟨fun n => (h'.wt n).trans (h.wt n), fun n => (h'.ct n).trans (h.ct n),
    fun n => (h'.tree n).trans (h.tree n), fun n => (h'.src n).trans (h.src n),
    fun n => (h'.snk n).trans (h.snk n), fun n => (h'.level n).trans (h.level n)⟩

theorem Frame.mono {V W : List DataField} {s t : State P} (h : Frame V s t) (hVW : V ⊆ W) : Frame W s t :=
  ⟨fun n => h.wt fun m => n (hVW m), fun n => h.ct fun m => n (hVW m), fun n => h.tree fun m => n (hVW m),
    fun n => h.src fun m => n (hVW m), fun n => h.snk fun m => n (hVW m),
    fun n => h.level fun m => n (hVW m)⟩

theorem frame_begin (s : State P) : Frame [] s s.begin := frame_of_same _ rfl rfl rfl rfl rfl

theorem frame_finish (s : State P) : Frame [] s s.finish := frame_of_same _ rfl rfl rfl rfl rfl

theorem frame_takeFault (r : Raise) (s : State P) : Frame [] s (takeFault r s) :=
  frame_of_same _ rfl rfl rfl rfl rfl

theorem frame_clearBlock (s : State P) : Frame [.wt, .ct, .tree] s (clearBlock s) :=
  ⟨by simp, by simp, by simp, fun _ => rfl, fun _ => rfl, fun _ => rfl⟩

theorem frame_src (s : State P) (src : Source) : Frame [.src] s { s with src := src } :=
  ⟨fun _ => rfl, fun _ => rfl, fun _ => rfl, by simp, fun _ => rfl, fun _ => rfl⟩

theorem frame_snk (s : State P) {snk : Sink} (h : snk.closed = s.snk.closed) :
    Frame [.snk] s { s with snk := snk } :=
  ⟨fun _ => rfl, fun _ => rfl, fun _ => rfl, fun _ => rfl, by simp, fun _ => h⟩

theorem frame_streams (s : State P) (src : Source) {snk : Sink} (h : snk.closed = s.snk.closed) :
    Frame [.src, .snk] s { s with src := src, snk := snk } :=
  ⟨fun _ => rfl, fun _ => rfl, fun _ => rfl, by simp, by simp, fun _ => h⟩

theorem frame_closeSink (s : State P) : Frame [.snk, .level] s (closeSink s) :=
  ⟨fun _ => rfl, fun _ => rfl, fun _ => rfl, fun _ => rfl, by simp, by simp⟩

/-! ### From the bodies to `exec` -/

/-- The relation `R` holds between `s` and the state a body stops in. -/
def RanRel (R : State P → State P → Prop) (s : State P) : Ran P → Prop
  | .ended s' => R s s'
  | .raised s' _ => R s s'
  | .refused _ => True

/-- A relation on the data fields that can be chained along a sequence of statements. -/
structure DataRel (R : State P → State P → Prop) : Prop where
  same : ∀ {s t}, Frame [] s t → R s t
  trans : ∀ {a b c}, R a b → R b c → R a c

section DataRel
variable {R : State P → State P → Prop}

theorem RanRel.mono {Q : State P → State P → Prop} {a b : State P} {x : Ran P} (h : RanRel R a x)
    (hRQ : ∀ t, R a t → Q b t) : RanRel Q b x := by
  cases x with
  | ended t => exact hRQ t h
  | raised t r => exact hRQ t h
  | refused w => trivial

theorem RanRel.andThen (hR : DataRel R) {s : State P} {x : Ran P} {f : State P → Ran P}
    (h : RanRel R s x) (hf : ∀ s', RanRel R s' (f s')) : RanRel R s (x.andThen f) := by
  cases x with
  | ended s' => exact (hf s').mono fun _ => hR.trans h
  | raised s' r => exact h
  | refused w => trivial

theorem RanRel.closeOnRaise (hR : DataRel R) (hclose : ∀ s, R s (closeSink s)) {s : State P} {x : Ran P}
    (h : RanRel R s x) : RanRel R s x.closeOnRaise := by
  cases x with
  | ended s' => exact h
  | raised s' r => exact hR.trans h (hclose s')
  | refused w => trivial

theorem requireOpen_rel (hR : DataRel R) (op : Nat) (s : State P) : RanRel R s (requireOpen op s) := by
  unfold requireOpen
  split <;> exact hR.same (Frame.refl _ s)

theorem requireTree_rel (hR : DataRel R) (op : Nat) {work : PrefixTree P → State P → Ran P} {s : State P}
    (hwork : ∀ t, s.tree = some t → RanRel R s (work t s)) : RanRel R s (requireTree op work s) := by
  cases h : s.tree with
  | none => rw [requireTree_none h]; exact hR.same (Frame.refl _ s)
  | some t => rw [requireTree_some h]; exact hwork t h

/-- DECOMPRESS does only what its four steps do (R120). -/
theorem decompressBody_rel (hR : DataRel R) (hrdmagic : ∀ s, RanRel R s (rdmagicBody s))
    (hrdtree : ∀ s, RanRel R s (rdtreeBody s)) (hdecode : ∀ s, RanRel R s (decodeBody s))
    (hclose : ∀ s, R s (closeSink s)) (s : State P) : RanRel R s (decompressBody s) :=
  .closeOnRaise hR hclose <|
    .andThen hR (.andThen hR (.andThen hR (.andThen hR (requireOpen_rel hR _ s) hrdmagic) hrdtree) hdecode)
      hclose
end DataRel

/-- A relation that every primitive body keeps is kept by every body: the composites only run
primitives (R119 to R121). -/
theorem commandBody_rel {R : State → State → Prop} (hR : DataRel R)
    (hprim : ∀ i body, primitiveBody i = some body → ∀ s, RanRel R s (body s)) {i : Instr}
    {body : State → Ran} (hb : commandBody i = some body) (s : State) : RanRel R s (body s) := by
  have hclose : ∀ s, R s (closeSink s) := hprim .close _ rfl
  rcases commandBody_cases hb with hp | ⟨rfl, rfl⟩ | ⟨rfl, rfl⟩
  · exact hprim i body hp s
  · exact .closeOnRaise hR hclose <|
      .andThen hR (.andThen hR (.andThen hR (.andThen hR (.andThen hR (.andThen hR (.andThen hR
        (.andThen hR (requireOpen_rel hR _ s) (hprim .count _ rfl)) (hprim .build _ rfl))
        (hprim .gencodes _ rfl)) (hprim .wrmagic _ rfl)) (hprim .wrtree _ rfl)) (hprim .rewind _ rfl))
        (hprim .encode _ rfl)) hclose
  · exact decompressBody_rel hR (hprim .rdmagic _ rfl) (hprim .rdtree _ rfl) (hprim .decode _ rfl) hclose s

/-- A relation on the data fields that a command's body keeps is kept by the command. -/
theorem exec_rel {R : State → State → Prop} (hR : DataRel R) {i : Instr}
    (hbody : ∀ body, commandBody i = some body → ∀ s, RanRel R s (body s))
    (hclear : i = .clear → ∀ s, R s (clearBlock s)) {s t : State} (h : exec i s = .next t) : R s t := by
  rcases exec_run h with ⟨hi, rfl⟩ | ⟨-, rfl | ⟨rfl, rfl⟩⟩ |
    ⟨-, body, hb, ⟨s', hrun, rfl⟩ | ⟨s', r, hrun, rfl⟩⟩
  · exact hclear hi s
  · exact hR.same (Frame.refl _ t)
  · exact hbody closeBody rfl s
  · have hs' : RanRel R s.begin (body s.begin) := hbody body hb s.begin
    rw [hrun] at hs'
    exact hR.trans (hR.same (frame_begin s)) (hR.trans hs' (hR.same (frame_finish s')))
  · have hs' : RanRel R s.begin (body s.begin) := hbody body hb s.begin
    rw [hrun] at hs'
    exact hR.trans (hR.same (frame_begin s)) (hR.trans hs' (hR.same (frame_takeFault r s')))

/-! ### From `exec` to `step` -/

/-- An invariant of `exec` that the host's own steps keep is an invariant of `step`; the reset input is
the write of CLEAR (R150). -/
theorem step_keeps {I : State → Prop}
    (hexec : ∀ i s t, I s → exec i s = .next t → I t)
    (hhost : ∀ s rest reply, I s → I { s with host := rest, reply := reply })
    (hsource : ∀ b s, I s → I (attachSource b s)) (hsink : ∀ s, I s → I (attachSink s))
    {s t : State} (hs : I s) (h : step s = .next t) : I t := by
  have hrest : ∀ rest, I { s with host := rest } := fun rest => hhost s rest s.reply hs
  unfold step at h
  split at h
  · cases h
  · split at h
    · cases h; exact hs
    · exact hexec _ _ t (hrest _) h
    · split at h
      · exact hexec _ _ t (hrest _) h
      · cases h
    · cases h; exact hhost s _ _ hs
    · cases h; exact hhost s _ _ hs
    · cases h; exact hsource _ _ (hrest _)
    · cases h; exact hsink _ (hrest _)
    · cases h; exact hexec .clear _ _ (hrest _) rfl

end Sys2Proof.Machine
end

section
/-! Who writes what (R11 to R13, R22, R23, R28), and what the sink can become (R23, R35, R41). -/

namespace Sys2Proof.Machine
open Sys2Proof

variable {P : Params}

/-! ### The frame of each command -/

/-- The data fields the spec names a command as a writer of. -/
def writes : Instr → List DataField
  | .nop | .reservedF => []
  | .count => [.wt, .src]
  | .build => [.ct, .tree]
  | .gencodes => [.ct]
  | .wrmagic | .wrtree => [.snk]
  | .close => [.snk, .level]
  | .rewind | .rdmagic => [.src]
  | .encode | .decode => [.src, .snk]
  | .rdtree => [.ct, .tree, .src]
  | .compress => [.wt, .ct, .tree, .src, .snk, .level]
  | .decompress => [.ct, .tree, .src, .snk, .level]
  | .clear => [.wt, .ct, .tree]
  | .streamMagic | .streamNodeInternal | .streamNodeLeaf _ | .streamCodeword _ | .streamByte _ => []

theorem frame_dataRel (W : List DataField) : DataRel (Frame (P := P) W) :=
  ⟨fun h => h.mono (List.nil_subset W), Frame.trans⟩

theorem countBody_frame (s : State P) : RanRel (Frame [.wt, .src]) s (countBody s) := by
  by_cases h : s.src.left / 8 ≤ P.maxInputBytes
  · rw [countBody_eq h]
    exact ⟨by simp, fun _ => rfl, fun _ => rfl, by simp, fun _ => rfl, fun _ => rfl⟩
  · rw [countBody_tooLong (by omega)]
    trivial

theorem frame_newTree (s : State P) (tree : Option (PrefixTree P)) :
    Frame [.ct, .tree] s { s with tree := tree, ct := noCodes } :=
  ⟨fun _ => rfl, by simp, by simp, fun _ => rfl, fun _ => rfl, fun _ => rfl⟩

theorem buildBody_frame (before : PqEntry P → PqEntry P → Bool) (s : State P) :
    RanRel (Frame [.ct, .tree]) s (buildBody before s) := by
  cases h : buildTree before s.wt with
  | none => rw [buildBody_none h]; exact frame_newTree s none
  | some t => rw [buildBody_some h]; exact frame_newTree s (some t)

theorem gencodesBody_frame (s : State P) : RanRel (Frame [.ct]) s (gencodesBody s) :=
  requireTree_rel (frame_dataRel _) _ fun _ _ =>
    ⟨fun _ => rfl, by simp, fun _ => rfl, fun _ => rfl, fun _ => rfl, fun _ => rfl⟩

theorem wrmagicBody_frame (s : State P) : RanRel (Frame [.snk]) s (wrmagicBody s) :=
  (requireOpen_rel (frame_dataRel _) _ s).andThen (frame_dataRel _) fun s' =>
    frame_snk s' (writeBits_closed _ _ _)

theorem wrtreeBody_frame (s : State P) : RanRel (Frame [.snk]) s (wrtreeBody s) :=
  (requireOpen_rel (frame_dataRel _) _ s).andThen (frame_dataRel _) fun s' =>
    requireTree_rel (frame_dataRel _) _ fun _ _ => frame_snk s' (writeString_closed _ _)

theorem rdmagicBody_frame (s : State P) : RanRel (Frame [.src]) s (rdmagicBody s) := by
  rcases rdmagicBody_cases s with ⟨-, h⟩ | ⟨-, -, h⟩ | ⟨-, -, -, -, h⟩ <;> rw [h]
  · exact Frame.refl _ s
  · exact frame_src s _
  · exact frame_src s _

theorem rdtreeBody_frame (s : State P) : RanRel (Frame [.ct, .tree, .src]) s (rdtreeBody s) := by
  have hframe : ∀ tree src, Frame [.ct, .tree, .src] s { s with tree := tree, ct := noCodes, src := src } :=
    fun _ _ => ⟨fun _ => rfl, by simp, by simp, by simp, fun _ => rfl, fun _ => rfl⟩
  rcases rdtreeBody_cases s with ⟨t, -, -, -, -, h⟩ | ⟨n, -, h⟩ | ⟨sub, k, n, -, -, -, h⟩ <;> rw [h]
  · exact hframe _ _
  · exact hframe _ _
  · exact hframe _ _

theorem encodeBody_frame (s : State P) : RanRel (Frame [.src, .snk]) s (encodeBody s) := by
  refine (requireOpen_rel (frame_dataRel _) _ s).andThen (frame_dataRel _) fun s' => ?_
  split
  · next he =>
    obtain ⟨-, -, hlevel, -⟩ := encodeLoop_keeps _ _ _ _ he
    exact frame_streams s' _ hlevel
  · next snk he =>
    obtain ⟨-, -, hlevel, -⟩ := encodeLoop_keeps _ _ _ _ he
    cases hc : codeOf s'.ct Config.term with
    | none => rw [writeCode_none snk hc]; exact frame_streams s' _ hlevel
    | some p => rw [writeCode_some snk hc]; exact frame_streams s' _ hlevel

theorem decodeTree_frame (t : PrefixTree P) (s : State P) :
    RanRel (Frame [.src, .snk]) s (decodeTree t s) := by
  cases t with
  | leaf sym w =>
    rw [decodeTree]
    split
    · exact Frame.refl _ s
    · exact Frame.refl _ s
  | node l r w =>
    rw [decodeTree]
    split
    · next he =>
      obtain ⟨-, -, hlevel, -⟩ := decodeLoop_keeps _ _ _ _ _ he
      exact frame_streams s _ hlevel
    · next he =>
      obtain ⟨-, -, hlevel, -⟩ := decodeLoop_keeps _ _ _ _ _ he
      exact frame_streams s _ hlevel

theorem decodeBody_frame (s : State P) : RanRel (Frame [.src, .snk]) s (decodeBody s) :=
  (requireOpen_rel (frame_dataRel _) _ s).andThen (frame_dataRel _) fun s' =>
    requireTree_rel (frame_dataRel _) _ fun t _ => decodeTree_frame t s'

theorem decompressBody_frame (s : State P) :
    RanRel (Frame [.ct, .tree, .src, .snk, .level]) s (decompressBody s) :=
  decompressBody_rel (frame_dataRel _)
    (fun s => (rdmagicBody_frame s).mono fun _ h => h.mono (by simp))
    (fun s => (rdtreeBody_frame s).mono fun _ h => h.mono (by simp))
    (fun s => (decodeBody_frame s).mono fun _ h => h.mono (by simp))
    (fun s => (frame_closeSink s).mono (by simp)) s

/-- COMPRESS is named as a writer of every field. -/
theorem compressBody_frame (before : PqEntry P → PqEntry P → Bool) (s : State P) :
    RanRel (Frame [.wt, .ct, .tree, .src, .snk, .level]) s (compressBody before s) := by
  have hall : ∀ t, Frame [.wt, .ct, .tree, .src, .snk, .level] s t := fun _ =>
    ⟨by simp, by simp, by simp, by simp, by simp, by simp⟩
  cases compressBody before s with
  | ended t => exact hall t
  | raised t r => exact hall t
  | refused w => trivial

theorem commandBody_frame {i : Instr} {body : State → Ran} (hb : commandBody i = some body) (s : State) :
    RanRel (Frame (writes i)) s (body s) := by
  cases i <;> cases hb
  case nop => exact Frame.refl _ s
  case count => exact countBody_frame s
  case build => exact buildBody_frame _ s
  case gencodes => exact gencodesBody_frame s
  case wrmagic => exact wrmagicBody_frame s
  case wrtree => exact wrtreeBody_frame s
  case rewind => exact frame_src s _
  case encode => exact encodeBody_frame s
  case rdmagic => exact rdmagicBody_frame s
  case rdtree => exact rdtreeBody_frame s
  case decode => exact decodeBody_frame s
  case close => exact frame_closeSink s
  case compress => exact compressBody_frame _ s
  case decompress => exact decompressBody_frame s
  case reservedF => exact Frame.refl _ s

/-- The frame of every command. -/
theorem exec_frame {i : Instr} {s t : State} (h : exec i s = .next t) : Frame (writes i) s t :=
  exec_rel (frame_dataRel _) (fun _ hb => commandBody_frame hb)
    (by rintro rfl s; exact frame_clearBlock s) h

/-- No command writes the bits of the source or the host's side (R22, R26). -/
theorem exec_keeps_host {i : Instr} {s t : State} (h : exec i s = .next t) :
    t.src.bits = s.src.bits ∧ t.host = s.host ∧ t.reply = s.reply := by
  rcases exec_cases h with ⟨-, rfl⟩ | ⟨-, -, rfl | ⟨-, rfl⟩⟩ | ⟨-, -, s', hk, rfl | ⟨r, rfl⟩⟩
  · exact ⟨rfl, rfl, rfl⟩
  · exact ⟨rfl, rfl, rfl⟩
  · exact ⟨rfl, rfl, rfl⟩
  · exact ⟨hk.srcBits, hk.host, hk.reply⟩
  · exact ⟨hk.srcBits, hk.host, hk.reply⟩

/-- Settles O53: a command that is not in a field's list of writers does not have the field among its
`writes`. -/
theorem commandsLeaveTheRestUnchanged : Obligations.CommandsLeaveTheRestUnchanged := by
  intro i s t h
  obtain ⟨hwt, hct, htree, hsrc, hsnk, -⟩ := exec_frame h
  refine ⟨fun hi => hwt ?_, fun hi => hct ?_, fun hi => htree ?_, fun hi => hsrc ?_, fun hi => hsnk ?_,
    exec_keeps_host h⟩
  all_goals cases i <;> simp_all [writes]

/-! ### The sink -/

/-- A closed sink stays as it is (R41). -/
def ClosedStays (s t : State P) : Prop := s.snk.closed = true → t.snk = s.snk

theorem closedStays_of_snk_eq {s t : State P} (h : t.snk = s.snk) : ClosedStays s t := fun _ => h

theorem closedStays_of_open {s : State P} (h : s.snk.closed = false) (t : State P) : ClosedStays s t := by
  intro hc
  rw [h] at hc
  cases hc

theorem closedStays_dataRel : DataRel (ClosedStays (P := P)) where
  same h := closedStays_of_snk_eq (h.snk (by simp))
  trans hab hbc hc := by
    have hb := hab hc
    exact (hbc (hb ▸ hc)).trans hb

theorem closedStays_closeSink (s : State P) : ClosedStays s (closeSink s) := by
  intro h
  simp [closeSink, Sink.close, ← h]

/-- A body that starts with the check "sink closed" stops there before it can write. -/
theorem requireOpen_closedStays (op : Nat) (work : State P → Ran P) (s : State P) :
    RanRel ClosedStays s ((requireOpen op s).andThen work) := by
  cases h : s.snk.closed with
  | true => rw [requireOpen_closed h]; exact closedStays_of_snk_eq rfl
  | false =>
    cases (requireOpen op s).andThen work with
    | ended t => exact closedStays_of_open h t
    | raised t r => exact closedStays_of_open h t
    | refused w => trivial

theorem primitiveBody_closedStays (i : Instr) (body : State → Ran) (hb : primitiveBody i = some body)
    (s : State) : RanRel ClosedStays s (body s) := by
  have hframe : .snk ∉ writes i → RanRel ClosedStays s (body s) := fun hw =>
    (commandBody_frame (commandBody_of_primitive hb) s).mono fun t h => closedStays_of_snk_eq (h.snk hw)
  cases i
  case wrmagic => cases hb; exact requireOpen_closedStays _ _ s
  case wrtree => cases hb; exact requireOpen_closedStays _ _ s
  case encode => cases hb; exact requireOpen_closedStays _ _ s
  case decode => cases hb; exact requireOpen_closedStays _ _ s
  case close => cases hb; exact closedStays_closeSink s
  case compress => cases hb
  case decompress => cases hb
  all_goals exact hframe (by simp [writes])

theorem exec_closedStays {i : Instr} {s t : State} (h : exec i s = .next t) : ClosedStays s t :=
  exec_rel closedStays_dataRel (fun _ => commandBody_rel closedStays_dataRel primitiveBody_closedStays)
    (fun _ _ => closedStays_of_snk_eq rfl) h

theorem exec_appends {i : Instr} {s t : State} (h : exec i s = .next t) :
    ∃ x, t.snk.bits = s.snk.bits ++ x := by
  have hsame : s.snk.bits = s.snk.bits ++ [] := (List.append_nil _).symm
  rcases exec_cases h with ⟨-, rfl⟩ | ⟨-, -, rfl | ⟨-, rfl⟩⟩ | ⟨-, -, s', hk, rfl | ⟨r, rfl⟩⟩
  · exact ⟨[], hsame⟩
  · exact ⟨[], hsame⟩
  · exact ⟨[], hsame⟩
  · exact hk.snkGrows
  · exact hk.snkGrows

/-- Settles O54: every body appends, stops at a closed sink, and only CLOSE and the composites are writers
of the `closed` wire. -/
theorem theSinkOnlyGrows : Obligations.TheSinkOnlyGrows := by
  intro i s t h
  refine ⟨exec_appends h, exec_closedStays h, fun hne => ?_⟩
  by_contra hi
  apply hne
  apply (exec_frame h).level
  cases i <;> simp_all [writes]

end Sys2Proof.Machine
end

section
/-! The control registers (R15 to R17, R130, R134, R135): every raise is a row of R130, and between two
steps the block is idle with `CAUSE` and `INFO` as the latched fault wrote them. -/

namespace Sys2Proof.Machine
open Sys2Proof

/-! ### Every raise is a row of R130 -/

/-- A raise that the registers can show and that is a row of R130. -/
def LegalRaise (r : Raise) : Prop :=
  r.sub < 16 ∧ r.info < 2 ^ 32 ∧ LegalFault (faultCode r.name) r.sub r.info

theorem legalRaise_sinkClosed {op : Nat} (h : op ∈ [0x4, 0x5, 0x7, 0xA, 0xC, 0xD]) :
    LegalRaise ⟨.illegalCommand, 1, op⟩ := by
  have hlt : op < 2 ^ 32 := by simp at h; omega
  exact ⟨by norm_num, hlt, by simp_all [LegalFault, faultCode]⟩

theorem legalRaise_noTree {op : Nat} (h : op ∈ [0x3, 0x5, 0xA]) : LegalRaise ⟨.illegalCommand, 2, op⟩ := by
  have hlt : op < 2 ^ 32 := by simp at h; omega
  exact ⟨by norm_num, hlt, by simp_all [LegalFault, faultCode]⟩

theorem legalRaise_reserved : LegalRaise ⟨.illegalCommand, 0, 0xF⟩ :=
  ⟨by decide, by decide, by simp [LegalFault, faultCode]⟩

theorem legalRaise_emptyAlphabet : LegalRaise ⟨.emptyAlphabet, 0, 0⟩ :=
  ⟨by decide, by decide, by simp [LegalFault, faultCode]⟩

theorem legalRaise_missingCode {sym : Nat} (h : sym ≤ Config.term) : LegalRaise ⟨.missingCode, 0, sym⟩ :=
  ⟨by norm_num, lt_of_le_of_lt h (by decide), by simp_all [LegalFault, faultCode]⟩

theorem legalRaise_shortMagic : LegalRaise ⟨.illegalHeader, 1, 0⟩ :=
  ⟨by decide, by decide, by simp [LegalFault, faultCode]⟩

theorem legalRaise_wrongMagic {v : Nat} (h : v ≠ Config.magic) (hlt : v < 2 ^ 32) :
    LegalRaise ⟨.illegalHeader, 0, v⟩ :=
  ⟨by norm_num, hlt, .inl ⟨rfl, rfl, h⟩⟩

theorem legalRaise_treeOverflow : LegalRaise ⟨.treeOverflow, 0, hardware.nodeCap⟩ :=
  ⟨by decide, by decide, by simp [LegalFault, faultCode]⟩

theorem legalRaise_truncatedHeader {sub k : Nat} (hsub : sub ≤ 1) (hk : k < hardware.nodeCap) :
    LegalRaise ⟨.truncatedHeader, sub, k⟩ :=
  ⟨lt_of_le_of_lt hsub (by decide), hk.trans (by decide), .inr (.inr (.inl ⟨rfl, hsub, hk⟩))⟩

theorem legalRaise_truncatedStream : LegalRaise ⟨.truncatedStream, 0, 0⟩ :=
  ⟨by decide, by decide, by simp [LegalFault, faultCode]⟩

theorem legalRaise_foreignLeaf {sym : Nat} (hlt : sym < 512) (h : sym ≠ Config.term) :
    LegalRaise ⟨.truncatedStream, 1, sym⟩ :=
  ⟨by norm_num, hlt.trans (by decide), by simp_all [LegalFault, faultCode]⟩

theorem gencodesBody_legalRaise (s : State) : RanRaises LegalRaise (gencodesBody s) :=
  (gencodesBody_raises s).mono <| by rintro _ rfl; exact legalRaise_noTree (by simp)

theorem buildBody_legalRaise (before : PqEntry → PqEntry → Bool) (s : State) :
    RanRaises LegalRaise (buildBody before s) :=
  (buildBody_raises before s).mono <| by rintro _ rfl; exact legalRaise_emptyAlphabet

theorem wrmagicBody_legalRaise (s : State) : RanRaises LegalRaise (wrmagicBody s) :=
  (wrmagicBody_raises s).mono <| by rintro _ rfl; exact legalRaise_sinkClosed (by simp)

theorem wrtreeBody_legalRaise (s : State) : RanRaises LegalRaise (wrtreeBody s) :=
  (wrtreeBody_raises s).mono <| by
    rintro _ (rfl | rfl)
    · exact legalRaise_sinkClosed (by simp)
    · exact legalRaise_noTree (by simp)

theorem rdmagicBody_legalRaise (s : State) : RanRaises LegalRaise (rdmagicBody s) :=
  (rdmagicBody_raises s).mono <| by
    rintro _ (rfl | ⟨v, hv, hlt, rfl⟩)
    · exact legalRaise_shortMagic
    · exact legalRaise_wrongMagic hv hlt

theorem rdtreeBody_legalRaise (s : State) : RanRaises LegalRaise (rdtreeBody s) :=
  (rdtreeBody_raises s).mono <| by
    rintro _ (rfl | ⟨sub, k, hsub, hk, rfl⟩)
    · exact legalRaise_treeOverflow
    · exact legalRaise_truncatedHeader hsub hk

theorem encodeBody_legalRaise (s : State) : RanRaises LegalRaise (encodeBody s) :=
  (encodeBody_raises s).mono <| by
    rintro _ (rfl | ⟨sym, hsym, rfl⟩)
    · exact legalRaise_sinkClosed (by simp)
    · exact legalRaise_missingCode hsym

theorem decodeBody_legalRaise (s : State) : RanRaises LegalRaise (decodeBody s) :=
  (decodeBody_raises s).mono <| by
    rintro _ (rfl | rfl | rfl | ⟨sym, hlt, hsym, rfl⟩)
    · exact legalRaise_sinkClosed (by simp)
    · exact legalRaise_noTree (by simp)
    · exact legalRaise_truncatedStream
    · exact legalRaise_foreignLeaf hlt hsym

theorem countBody_legalRaise (s : State) : RanRaises LegalRaise (countBody s) :=
  (countBody_raises s).mono fun _ => False.elim

theorem requireOpen_legalRaise {op : Nat} (h : op ∈ [0x4, 0x5, 0x7, 0xA, 0xC, 0xD]) (s : State) :
    RanRaises LegalRaise (requireOpen op s) :=
  (requireOpen_raises op s).mono <| by rintro _ rfl; exact legalRaise_sinkClosed h

theorem compressBody_legalRaise (before : PqEntry → PqEntry → Bool) (s : State) :
    RanRaises LegalRaise (compressBody before s) :=
  (((((((((requireOpen_legalRaise (by simp) s).andThen countBody_legalRaise).andThen
    (buildBody_legalRaise before)).andThen gencodesBody_legalRaise).andThen
    wrmagicBody_legalRaise).andThen wrtreeBody_legalRaise).andThen (rewindBody_raises _)).andThen
    encodeBody_legalRaise).andThen (closeBody_raises _)).closeOnRaise

theorem decompressBody_legalRaise (s : State) : RanRaises LegalRaise (decompressBody s) :=
  (((((requireOpen_legalRaise (by simp) s).andThen rdmagicBody_legalRaise).andThen
    rdtreeBody_legalRaise).andThen decodeBody_legalRaise).andThen (closeBody_raises _)).closeOnRaise

theorem commandBody_legalRaise {i : Instr} {body : State → Ran} (hb : commandBody i = some body)
    (s : State) : RanRaises LegalRaise (body s) := by
  cases i <;> cases hb
  case nop => exact nopBody_raises _ s
  case count => exact countBody_legalRaise s
  case build => exact buildBody_legalRaise _ s
  case gencodes => exact gencodesBody_legalRaise s
  case wrmagic => exact wrmagicBody_legalRaise s
  case wrtree => exact wrtreeBody_legalRaise s
  case rewind => exact rewindBody_raises _ s
  case encode => exact encodeBody_legalRaise s
  case rdmagic => exact rdmagicBody_legalRaise s
  case rdtree => exact rdtreeBody_legalRaise s
  case decode => exact decodeBody_legalRaise s
  case close => exact closeBody_raises _ s
  case compress => exact compressBody_legalRaise _ s
  case decompress => exact decompressBody_legalRaise s
  case reservedF => exact legalRaise_reserved

/-! ### The registers of an idle block -/

theorem controlLegal_clear {s : State} (hb : s.busy = false) (hf : s.fault = false) (hc : s.cause = 0)
    (hi : s.info = 0) : ControlLegal s :=
  ⟨hb, fun _ => hf, fun _ => ⟨hc, hi⟩, fun h => by rw [hf] at h; cases h⟩

/-- The control registers alone decide whether they are legal. -/
theorem ControlLegal.congr {s t : State} (h : ControlLegal s) (hb : t.busy = s.busy)
    (hd : t.done = s.done) (hf : t.fault = s.fault) (hc : t.cause = s.cause) (hi : t.info = s.info) :
    ControlLegal t := by
  simpa only [ControlLegal, causeCode, causeSub, hb, hd, hf, hc, hi] using h

theorem faultCode_lt (n : FaultName) : faultCode n < 16 := by cases n <;> decide

/-- The layout of `CAUSE` read back (R16). -/
theorem cause_toNat {r : Raise} (h : r.sub < 16) : r.cause.toNat = 16 * r.sub + faultCode r.name := by
  have hcode := faultCode_lt r.name
  rw [Raise.cause, BitVec.toNat_ofNat]
  exact Nat.mod_eq_of_lt (by omega)

/-- A legal raise latched on a block without a fault shows its row of R130. -/
theorem takeFault_controlLegal {r : Raise} {s : State} (hr : LegalRaise r) (hd : s.done = false)
    (hf : s.fault = false) : ControlLegal (takeFault r s) := by
  obtain ⟨hsub, hinfo, hlegal⟩ := hr
  have hcode := faultCode_lt r.name
  have hshown : causeCode (takeFault r s) = faultCode r.name ∧ causeSub (takeFault r s) = r.sub ∧
      (takeFault r s).info.toNat = r.info := by
    rw [causeCode, causeSub, takeFault_cause_first r s hf, takeFault_info_first r s hf,
      cause_toNat hsub, BitVec.toNat_ofNat, Nat.mod_eq_of_lt hinfo]
    exact ⟨by omega, by omega, rfl⟩
  obtain ⟨h1, h2, h3⟩ := hshown
  refine ⟨rfl, fun h => ?_, fun h => (nomatch h), fun _ => ?_⟩
  · rw [takeFault_done, hd] at h
    cases h
  · rw [h1, h2, h3]
    exact hlegal

theorem exec_controlLegal {i : Instr} {s t : State} (hs : ControlLegal s) (h : exec i s = .next t) :
    ControlLegal t := by
  rcases exec_run h with ⟨-, rfl⟩ | ⟨-, rfl | ⟨-, rfl⟩⟩ |
    ⟨hf, body, hb, ⟨s', hrun, rfl⟩ | ⟨s', r, hrun, rfl⟩⟩
  · exact controlLegal_clear rfl rfl rfl rfl
  · exact hs
  · exact hs.congr rfl rfl rfl rfl rfl
  · have hk : Keeps s.begin s' := by simpa [RanKeeps, hrun] using commandBody_keeps hb s.begin
    obtain ⟨-, -, hclear, -⟩ := hs
    obtain ⟨hc, hi⟩ := hclear hf
    exact controlLegal_clear rfl (hk.fault.trans hf) (hk.cause.trans hc) (hk.info.trans hi)
  · have hk : Keeps s.begin s' := by simpa [RanKeeps, hrun] using commandBody_keeps hb s.begin
    have hr : LegalRaise r := by simpa [RanRaises, hrun] using commandBody_legalRaise hb s.begin
    exact takeFault_controlLegal hr hk.done (hk.fault.trans hf)

/-- Settles O57: a command leaves the registers cleared, as they were, or showing a raise, and every raise
is a row of R130. -/
theorem stepKeepsControlLegal : Obligations.StepKeepsControlLegal := by
  intro s t hs h
  exact step_keeps (I := ControlLegal) (fun _ _ _ hs h => exec_controlLegal hs h)
    (fun _ _ _ hs => hs.congr rfl rfl rfl rfl rfl) (fun _ _ hs => hs.congr rfl rfl rfl rfl rfl)
    (fun _ hs => hs.congr rfl rfl rfl rfl rfl) hs h

end Sys2Proof.Machine
end

section
/-! The tables, the weights and the cursor (R11, R12, R14, R22, R28, R71): what every step keeps legal. -/

namespace Sys2Proof.Machine
open Sys2Proof

variable {P : Params}

/-! ### The tree and the code table -/

theorem tablesLegal_noCodes {s : State P} (hct : s.ct = noCodes)
    (htree : ∀ t, s.tree = some t → t.nodes ≤ P.nodeCap) : TablesLegal s := by
  refine ⟨htree, fun sym p h => ?_⟩
  rw [hct, codeOf_noCodes] at h
  cases h

theorem tablesLegal_empty {s : State P} (hct : s.ct = noCodes) (htree : s.tree = none) : TablesLegal s :=
  tablesLegal_noCodes hct fun t h => by rw [htree] at h; cases h

theorem TablesLegal.congr {s t : State P} (h : TablesLegal s) (hct : t.ct = s.ct) (htree : t.tree = s.tree) :
    TablesLegal t := by
  simpa only [TablesLegal, hct, htree] using h

/-- The codes of a tree that fits this hardware are legal beside it: no leaf is deeper than the number of
internal nodes. -/
theorem tablesLegal_codesOf {s : State} {t : PrefixTree} (htree : s.tree = some t)
    (ht : t.nodes ≤ hardware.nodeCap) (hct : s.ct = codesOf t) : TablesLegal s := by
  refine ⟨fun t' h => ?_, fun sym p h => ?_⟩
  · rw [htree] at h
    cases h
    exact ht
  · rw [hct] at h
    have hleaf := codesArePaths_codesOf t sym p h
    have hlen := leafAt_length hleaf
    have hfits : t.nodes ≤ 513 := ht
    have hshort : p.length ≤ 256 := by omega
    exact ⟨hshort, t, htree, hleaf⟩

/-- Legal tables stay legal. -/
def KeepsTables (s t : State P) : Prop := TablesLegal s → TablesLegal t

theorem keepsTables_of_frame {W : List DataField} {s t : State P} (h : Frame W s t) (hct : .ct ∉ W)
    (htree : .tree ∉ W) : KeepsTables s t :=
  fun hs => hs.congr (h.ct hct) (h.tree htree)

theorem keepsTables_dataRel : DataRel (KeepsTables (P := P)) where
  same h := keepsTables_of_frame h (by simp) (by simp)
  trans hab hbc := hbc ∘ hab

theorem buildBody_keepsTables (before : PqEntry → PqEntry → Bool) (s : State) :
    RanRel KeepsTables s (buildBody before s) := by
  cases h : buildTree before s.wt with
  | none => rw [buildBody_none h]; exact fun _ => tablesLegal_empty rfl rfl
  | some t =>
    rw [buildBody_some h]
    refine fun _ => tablesLegal_noCodes rfl fun t' ht' => ?_
    cases ht'
    exact buildTree_nodes h

theorem gencodesBody_keepsTables (s : State) : RanRel KeepsTables s (gencodesBody s) := by
  refine requireTree_rel keepsTables_dataRel _ fun t ht hs => ?_
  obtain ⟨hfits, -⟩ := hs
  exact tablesLegal_codesOf ht (hfits t ht) (walk_eq_codesOf t)

theorem rdtreeBody_keepsTables (s : State P) : RanRel KeepsTables s (rdtreeBody s) := by
  rcases rdtreeBody_cases s with ⟨t, -, ht, -, -, h⟩ | ⟨n, -, h⟩ | ⟨sub, k, n, -, -, -, h⟩ <;> rw [h]
  · refine fun _ => tablesLegal_noCodes rfl fun t' ht' => ?_
    cases ht'
    exact ht
  · exact fun _ => tablesLegal_empty rfl rfl
  · exact fun _ => tablesLegal_empty rfl rfl

theorem primitiveBody_keepsTables (i : Instr) (body : State → Ran) (hb : primitiveBody i = some body)
    (s : State) : RanRel KeepsTables s (body s) := by
  have hframe : .ct ∉ writes i → .tree ∉ writes i → RanRel KeepsTables s (body s) := fun hct htree =>
    (commandBody_frame (commandBody_of_primitive hb) s).mono fun _ h => keepsTables_of_frame h hct htree
  cases i
  case build => cases hb; exact buildBody_keepsTables _ s
  case gencodes => cases hb; exact gencodesBody_keepsTables s
  case rdtree => cases hb; exact rdtreeBody_keepsTables s
  case compress => cases hb
  case decompress => cases hb
  case clear => cases hb
  all_goals exact hframe (by simp [writes]) (by simp [writes])

theorem exec_keepsTables {i : Instr} {s t : State} (h : exec i s = .next t) : KeepsTables s t :=
  exec_rel keepsTables_dataRel (fun _ => commandBody_rel keepsTables_dataRel primitiveBody_keepsTables)
    (fun _ _ _ => tablesLegal_empty rfl rfl) h

/-- Settles O58: the two commands that make a tree empty the code table (R28), and GENCODES fills it with
the paths of the tree at hand. -/
theorem stepKeepsTablesLegal : Obligations.StepKeepsTablesLegal := by
  intro s t hs h
  exact step_keeps (I := TablesLegal) (fun _ _ _ hs h => exec_keepsTables h hs)
    (fun _ _ _ hs => hs.congr rfl rfl) (fun _ _ hs => hs.congr rfl rfl) (fun _ hs => hs.congr rfl rfl) hs h

/-! ### The weights -/

/-- A sum over a range of symbols, as a sum over a list. -/
theorem sum_map_range (f : ℕ → ℕ) (n : ℕ) : ((List.range n).map f).sum = ∑ i ∈ Finset.range n, f i := rfl

/-- The weights of an input sum to its length and the terminator's 1. -/
theorem sum_countIn (S : List Byte) : ∑ i ∈ Finset.range 257, countIn S i = S.length + 1 := by
  have hbytes : ∀ i ∈ Finset.range 256, countIn S i = (S.map BitVec.toNat : Multiset ℕ).count i := by
    intro i hi
    rw [countIn, if_neg (by simp only [Finset.mem_range] at hi; simp only [Config.term]; omega),
      Multiset.coe_count]
  have hmem : ∀ a ∈ (S.map BitVec.toNat : Multiset ℕ), a ∈ Finset.range 256 := by
    intro a ha
    obtain ⟨b, -, rfl⟩ := List.mem_map.mp (Multiset.mem_coe.mp ha)
    exact Finset.mem_range.mpr b.isLt
  rw [Finset.sum_range_succ, Finset.sum_congr rfl hbytes, Multiset.sum_count_eq_card hmem]
  simp [countIn]

theorem weightsOf_sum (hP : P.Legal) {S : List Byte} (hS : S.length ≤ P.maxInputBytes) :
    ((weightsOf S P).toList.map BitVec.toNat).sum = S.length + 1 := by
  have hlist : (weightsOf S P).toList.map BitVec.toNat = (List.range 257).map (countIn S) := by
    apply List.ext_getElem
    · simp
    · intro i hi _
      have hi : i < 257 := by simpa using hi
      simpa using weightsOf_toNat hP hS i hi
  rw [hlist, sum_map_range, sum_countIn]

theorem weightsLegal_noWeights {s : State P} (h : s.wt = noWeights) : WeightsLegal s := by
  refine ⟨.inl h, ?_⟩
  rw [h, noWeights, Vector.toList_replicate, List.map_replicate, List.sum_replicate]
  simp

theorem WeightsLegal.congr {s t : State P} (h : WeightsLegal s) (hwt : t.wt = s.wt) : WeightsLegal t := by
  simpa only [WeightsLegal, hwt] using h

theorem weightsLegal_weightsOf (hP : P.Legal) {S : List Byte} (hS : S.length ≤ P.maxInputBytes)
    {s : State P} (h : s.wt = weightsOf S P) : WeightsLegal s := by
  have hinput := hP.input
  refine ⟨.inr ?_, ?_⟩
  · rw [h, weightsOf_get, countIn, if_pos rfl]
    rfl
  · rw [h, weightsOf_sum hP hS]
    omega

/-- Legal weights stay legal. -/
def KeepsWeights (s t : State P) : Prop := WeightsLegal s → WeightsLegal t

theorem keepsWeights_of_frame {W : List DataField} {s t : State P} (h : Frame W s t) (hwt : .wt ∉ W) :
    KeepsWeights s t :=
  fun hs => hs.congr (h.wt hwt)

theorem keepsWeights_dataRel : DataRel (KeepsWeights (P := P)) where
  same h := keepsWeights_of_frame h (by simp)
  trans hab hbc := hbc ∘ hab

/-- COUNT refuses the inputs whose weights would not fit (R71). -/
theorem countBody_keepsWeights (hP : P.Legal) (s : State P) : RanRel KeepsWeights s (countBody s) := by
  by_cases h : s.src.left / 8 ≤ P.maxInputBytes
  · rw [countBody_eq h]
    have hS : (bytesOf s.src.rest).length ≤ P.maxInputBytes := by
      rw [bytesOf_length, Source.rest_length]
      exact h
    exact fun _ => weightsLegal_weightsOf hP hS rfl
  · rw [countBody_tooLong (by omega)]
    trivial

theorem primitiveBody_keepsWeights (i : Instr) (body : State → Ran) (hb : primitiveBody i = some body)
    (s : State) : RanRel KeepsWeights s (body s) := by
  have hframe : .wt ∉ writes i → RanRel KeepsWeights s (body s) := fun hwt =>
    (commandBody_frame (commandBody_of_primitive hb) s).mono fun _ h => keepsWeights_of_frame h hwt
  cases i
  case count => cases hb; exact countBody_keepsWeights hardware_legal s
  case compress => cases hb
  case clear => cases hb
  all_goals exact hframe (by simp [writes])

theorem exec_keepsWeights {i : Instr} {s t : State} (h : exec i s = .next t) : KeepsWeights s t :=
  exec_rel keepsWeights_dataRel (fun _ => commandBody_rel keepsWeights_dataRel primitiveBody_keepsWeights)
    (fun _ _ _ => weightsLegal_noWeights rfl) h

/-! ### The cursor -/

theorem SourceLegal.congr {s t : State P} (h : SourceLegal s) (hsrc : t.src = s.src) : SourceLegal t := by
  simpa only [SourceLegal, hsrc] using h

theorem exec_sourceLegal {i : Instr} {s t : State} (hs : SourceLegal s) (h : exec i s = .next t) :
    SourceLegal t := by
  rcases exec_cases h with ⟨-, rfl⟩ | ⟨-, -, rfl | ⟨-, rfl⟩⟩ | ⟨-, -, s', hk, ht⟩
  · exact hs.congr rfl
  · exact hs
  · exact hs.congr rfl
  · have hs' : SourceLegal s' := by
      rw [SourceLegal, hk.srcBits]
      exact hk.srcPos hs
    rcases ht with rfl | ⟨r, rfl⟩
    · exact hs'.congr rfl
    · exact hs'.congr rfl

/-- Settles O59: COUNT alone writes weights, and only those of an admitted input; every read stops at the
end of the source. -/
theorem stepKeepsWeightsAndCursorLegal : Obligations.StepKeepsWeightsAndCursorLegal := by
  constructor
  · intro s t hs h
    exact step_keeps (I := WeightsLegal) (fun _ _ _ hs h => exec_keepsWeights h hs)
      (fun _ _ _ hs => hs.congr rfl) (fun _ _ hs => hs.congr rfl) (fun _ hs => hs.congr rfl) hs h
  · intro s t hs h
    exact step_keeps (I := SourceLegal) (fun _ _ _ hs h => exec_sourceLegal hs h)
      (fun _ _ _ hs => hs.congr rfl) (fun _ _ _ => Nat.zero_le _) (fun _ hs => hs.congr rfl) hs h

/-- Settles O56: at reset the tables are empty, no fault is latched and the source is empty. -/
theorem resetMeetsTheInvariants : Obligations.ResetMeetsTheInvariants :=
  ⟨controlLegal_clear rfl rfl rfl rfl, tablesLegal_empty rfl rfl, weightsLegal_noWeights rfl, Nat.le_refl 0⟩

/-! ### Codes left behind by an older tree -/

/-- The code table is empty wherever the body stops. -/
def EmptiesCodes (_ t : State P) : Prop := t.ct = noCodes

theorem buildBody_emptiesCodes (before : PqEntry P → PqEntry P → Bool) (s : State P) :
    RanRel EmptiesCodes s (buildBody before s) := by
  cases h : buildTree before s.wt with
  | none => rw [buildBody_none h]; rfl
  | some t => rw [buildBody_some h]; rfl

theorem rdtreeBody_emptiesCodes (s : State P) : RanRel EmptiesCodes s (rdtreeBody s) := by
  rcases rdtreeBody_cases s with ⟨t, -, -, -, -, h⟩ | ⟨n, -, h⟩ | ⟨sub, k, n, -, -, -, h⟩ <;> rw [h] <;> rfl

theorem accept_emptiesCodes {body : State P → Ran P} (hbody : ∀ s, RanRel EmptiesCodes s (body s))
    {s t : State P} (hf : s.fault = false) (h : accept body s = .next t) : t.ct = noCodes := by
  have hb := hbody s.begin
  rcases accept_cases h with ⟨hf', -⟩ | ⟨-, s', hrun, rfl⟩ | ⟨-, s', r, hrun, rfl⟩
  · rw [hf] at hf'
    cases hf'
  · rw [hrun] at hb
    exact hb
  · rw [hrun] at hb
    exact hb

/-- BUILD and RDTREE leave no code and the sink as it was (R28). -/
theorem exec_newTree {s t : State} (hf : s.fault = false)
    (h : exec .build s = .next t ∨ exec .rdtree s = .next t) : t.ct = noCodes ∧ t.snk = s.snk := by
  rcases h with h | h
  · exact ⟨accept_emptiesCodes (buildBody_emptiesCodes _) hf h, (exec_frame h).snk (by simp [writes])⟩
  · exact ⟨accept_emptiesCodes rdtreeBody_emptiesCodes hf h, (exec_frame h).snk (by simp [writes])⟩

/-- ENCODE with an empty code table raises at its first byte. -/
theorem exec_encode_noCodes_byte {s : State} (hf : s.fault = false) (ho : s.snk.closed = false)
    (hct : s.ct = noCodes) {b : Byte} {S : List Byte} (hS : bytesOf s.src.rest = b :: S) :
    exec .encode s = .next (takeFault ⟨.missingCode, 0, b.toNat⟩ { s.begin with src := s.src.skip 8 }) := by
  have hb : codeOf s.begin.ct b.toNat = none := by rw [begin_ct, hct, codeOf_noCodes]
  have hrun := encodeBody_missing (s := s.begin) (A := []) (body := []) ho hS rfl hb
  rw [writeString_nil] at hrun
  have haccept : exec .encode s = accept encodeBody s := rfl
  rw [haccept, accept_run hf, hrun]
  rfl

/-- ENCODE with an empty code table and no byte to read raises at the terminator. -/
theorem exec_encode_noCodes_term {s : State} (hf : s.fault = false) (ho : s.snk.closed = false)
    (hct : s.ct = noCodes) (hS : bytesOf s.src.rest = []) :
    exec .encode s = .next (takeFault ⟨.missingCode, 0, Config.term⟩ s.begin) := by
  have hlast : codeOf s.begin.ct Config.term = none := by rw [begin_ct, hct, codeOf_noCodes]
  have hnone : s.src.left / 8 = 0 := by rw [← Source.rest_length, ← bytesOf_length, hS]; rfl
  have hrun := encodeBody_noTerm (s := s.begin) (body := []) ho
    (by rw [begin_src, hS]; rfl) hlast
  rw [writeString_nil, begin_src, hnone, Nat.mul_zero, Source.skip_zero] at hrun
  have haccept : exec .encode s = accept encodeBody s := rfl
  rw [haccept, accept_run hf, hrun]
  rfl

/-- Settles O30: after BUILD or RDTREE the code table is empty, so the first symbol has no code. -/
theorem staleCodesAreCaught : Obligations.StaleCodesAreCaught := by
  intro s t hf ho hrun hft
  obtain ⟨hct, hsnk⟩ := exec_newTree hf hrun
  have hot : t.snk.closed = false := by rw [hsnk, ho]
  constructor
  · intro b S hS
    rw [exec_encode_noCodes_byte hft hot hct hS]
    simp [takeFault, hft, State.begin, Raise.cause, faultCode, Source.skip]
  · intro hS
    rw [exec_encode_noCodes_term hft hot hct hS]
    simp [takeFault, hft, State.begin, Raise.cause, faultCode]

end Sys2Proof.Machine
end

section
/-! The ports of the host: the reset values, what each host step does, `STATUS` and the inspection port
(R12, R15, R18, R25, R26, R139). -/

namespace Sys2Proof.Machine
open Sys2Proof

variable {P : Params}

/-! ### Reset and the host's steps -/

/-- Settles O7: the tables are replicated entries, and every other value is the one written in
`State.reset`. -/
theorem resetStateValues : Obligations.ResetStateValues := by
  have hentries : ∀ i, ∀ h : i < 257, State.reset.wt[i] = 0 ∧ State.reset.ct[i] = none := fun i h =>
    ⟨Vector.getElem_replicate h, Vector.getElem_replicate h⟩
  exact ⟨hentries, rfl, rfl, rfl, rfl, rfl, rfl, rfl, rfl, rfl, rfl, rfl⟩

section HostSteps
variable {s : State} {rest : List HostStep}

theorem step_issue {op : Opcode} (hb : s.busy = false) (h : s.host = .issue op :: rest) :
    step s = exec (decodeCommand op) { s with host := rest } := by
  simp [step, hb, h]

theorem step_offer_ok {nbits w : Nat} {i : Instr} (hb : s.busy = false) (h : s.host = .offer nbits w :: rest)
    (hw : decodeWord nbits w = .ok i) : step s = exec i { s with host := rest } := by
  simp [step, hb, h, hw]

theorem step_offer_error {nbits w : Nat} {e : DecodeError} (hb : s.busy = false)
    (h : s.host = .offer nbits w :: rest) (hw : decodeWord nbits w = .error e) :
    step s = .fault .noSuchWord := by
  simp [step, hb, h, hw]

theorem step_inspect {space index : Nat} (hb : s.busy = false) (h : s.host = .inspect space index :: rest) :
    step s = .next (hostInspect space index { s with host := rest }) := by
  simp [step, hb, h]

theorem step_readOut (hb : s.busy = false) (h : s.host = .readOut :: rest) :
    step s = .next (hostReadOut { s with host := rest }) := by
  simp [step, hb, h]

theorem step_attachSource {b : Bits} (hb : s.busy = false) (h : s.host = .attachSource b :: rest) :
    step s = .next (attachSource b { s with host := rest }) := by
  simp [step, hb, h]

theorem step_attachSink (hb : s.busy = false) (h : s.host = .attachSink :: rest) :
    step s = .next (attachSink { s with host := rest }) := by
  simp [step, hb, h]

theorem step_reset (hb : s.busy = false) (h : s.host = .reset :: rest) :
    step s = .next (clearBlock { s with host := rest }) := by
  simp [step, hb, h]
end HostSteps

/-- The inspection port does not show the host's pending steps (R18). -/
theorem inspect_host (space index : Nat) (s : State P) (rest : List (HostStep P)) :
    inspect space index { s with host := rest } = inspect space index s := by
  unfold inspect
  split <;> rfl

/-- Settles O9: each host step runs the operation of its name on the state with that step taken off. -/
theorem hostStepsDoWhatTheyName : Obligations.HostStepsDoWhatTheyName := by
  intro s rest hb
  refine ⟨fun b h => step_attachSource hb h, fun h => step_attachSink hb h, fun h => step_readOut hb h,
    fun space index h => ?_, fun h => step_reset hb h⟩
  rw [step_inspect hb h, hostInspect, inspect_host]

/-! ### The command word -/

theorem decodeTableWord_eq_some {nbits w : Nat} {i : Instr} :
    decodeTableWord nbits w = some i ↔ decodeWord nbits w = .ok i := by
  unfold decodeTableWord
  cases decodeWord nbits w <;> simp

/-- One byte below 16 is the command word in its low four bits (R50). -/
theorem decodeWord_command {w : Nat} (hw : w < 16) :
    decodeWord 8 w = .ok (decodeCommand (BitVec.ofNat 4 w)) := by
  have hfield := takeField_append (n := 4) (v := w) hw []
  rw [List.append_nil] at hfield
  have hbranch : decodeWord 8 w = (decodeIn (P := hardware) .command (bitsOf 4 w)).map Prod.fst := by
    unfold decodeWord
    rw [if_neg (by decide), if_pos ⟨rfl, hw⟩]
  rw [hbranch, decodeIn]
  simp only [hardware_cmdW]
  rw [hfield]
  rfl

/-- A table word put in front of the host's steps is what the next step runs. -/
theorem step_withFetchWord {s : State} {nbits w : Nat} {i : Instr} (hb : s.busy = false)
    (hw : decodeTableWord nbits w = some i) : step (s.withFetchWord nbits w) = exec i s := by
  have hword := decodeTableWord_eq_some.mp hw
  by_cases hc : nbits = 8 ∧ w < 2 ^ hardware.cmdW
  · have hhost : (s.withFetchWord nbits w).host = .issue (BitVec.ofNat 4 w) :: s.host := by
      rw [State.withFetchWord, hostWord, if_pos hc]
    obtain ⟨rfl, hlt⟩ := hc
    rw [decodeWord_command hlt] at hword
    cases hword
    exact step_issue hb hhost
  · have hhost : (s.withFetchWord nbits w).host = .offer nbits w :: s.host := by
      rw [State.withFetchWord, hostWord, if_neg hc]
    exact step_offer_ok hb hhost hword

/-- Settles O11: the word on the port decides the instruction, and `step` runs its `exec`. -/
theorem stepRunsTheDecodedCommand : Obligations.StepRunsTheDecodedCommand := by
  intro s rest hb
  exact ⟨fun _ h => step_issue hb h, fun _ _ _ h hw => step_offer_ok hb h hw,
    fun _ _ _ h hw => step_offer_error hb h hw, fun _ _ _ hw => step_withFetchWord hb hw⟩

/-! ### `STATUS` -/

/-- The weights 1, 2, 4, 8 and 16 put five flags at the bits 0 to 4 of a byte. -/
theorem flags_bits (b d f t c : Bool) (k : Nat) (hk : k < 8) :
    (BitVec.ofNat 8 (b.toNat + 2 * d.toNat + 4 * f.toNat + 8 * t.toNat + 16 * c.toNat))[k] =
      [b, d, f, t, c, false, false, false][k] := by
  revert b d f t c k
  decide

/-- Settles O12: `STATUS` is the sum of its flags at their weights. -/
theorem statusShowsTheFlags : Obligations.StatusShowsTheFlags := by
  intro s
  have hbit : ∀ k, ∀ hk : k < 8, (statusByte s)[k] =
      [s.busy, s.done, s.fault, s.tree.isSome, s.snk.closed, false, false, false][k] :=
    flags_bits s.busy s.done s.fault s.tree.isSome s.snk.closed
  exact ⟨hbit 0 _, hbit 1 _, hbit 2 _, hbit 3 _, hbit 4 _, hbit 5 _, hbit 6 _, hbit 7 _,
    (hbit 1 _).symm, (hbit 2 _).symm⟩

/-! ### The inspection port -/

/-- A bit of the number that a field holds is the bit of the field. -/
theorem testBit_natOf {p : Bits} {k : Nat} (hk : k < p.length) :
    (natOf p).testBit (p.length - 1 - k) = p[k] := by
  have h := bitsOf_getElem? (v := natOf p) hk
  rw [bitsOf_natOf, List.getElem?_eq_getElem hk] at h
  exact (Option.some.inj h).symm

/-- Code bit `k` stands at bit `255 - k` of the entry's field, and the bits below the code are 0 (R12). -/
theorem codeField_bits {p : Bits} (hp : p.length ≤ 256) :
    (∀ k, ∀ hk : k < p.length,
      (BitVec.ofNat 256 (natOf p * 2 ^ (256 - p.length))).getLsbD (255 - k) = p[k]) ∧
    ∀ k, k < 256 - p.length →
      (BitVec.ofNat 256 (natOf p * 2 ^ (256 - p.length))).getLsbD k = false := by
  constructor
  · intro k hk
    rw [BitVec.getLsbD_ofNat, ← Nat.shiftLeft_eq, Nat.testBit_shiftLeft, ← testBit_natOf hk]
    have hlt : 255 - k < 256 := by omega
    have hge : 255 - k ≥ 256 - p.length := by omega
    have hpos : 255 - k - (256 - p.length) = p.length - 1 - k := by omega
    rw [hpos]
    simp [hlt, hge]
  · intro k hk
    rw [BitVec.getLsbD_ofNat, ← Nat.shiftLeft_eq, Nat.testBit_shiftLeft]
    have hge : ¬ k ≥ 256 - p.length := by omega
    simp [hge]

theorem inspect_weight (s : State P) {i : Nat} (hi : i < 257) : inspect 1 i s = .weight s.wt[i] := by
  simp [inspect, hi]

theorem inspect_code (s : State P) {i : Nat} (hi : i < 257) : inspect 2 i s = codeReply s.ct[i] := by
  simp [inspect, hi]

/-- Every other item reads as 0 (R18). -/
theorem inspect_undefined (s : State P) {space index : Nat}
    (h : (space = 0 ∧ 3 ≤ index) ∨ (space = 1 ∧ 257 ≤ index) ∨ (space = 2 ∧ 257 ≤ index) ∨ 3 ≤ space) :
    inspect space index s = .undefinedItem 0 := by
  unfold inspect
  split
  · omega
  · omega
  · omega
  · exact dif_neg (by omega)
  · exact dif_neg (by omega)
  · rfl

/-- Settles O13: the fields of a code table entry are read off bit by bit. -/
theorem inspectionPortShowsTheTables : Obligations.InspectionPortShowsTheTables := by
  intro s
  refine ⟨rfl, rfl, rfl, fun i hi => inspect_weight s hi, fun i hi hnone => ?_, fun i p hi hsome hp => ?_,
    fun space index h => inspect_undefined s h⟩
  · rw [inspect_code s hi, hnone]
    rfl
  · have hlen : (BitVec.ofNat 9 p.length).toNat = p.length := by
      rw [BitVec.toNat_ofNat]
      exact Nat.mod_eq_of_lt (by omega)
    exact ⟨_, _, by rw [inspect_code s hi, hsome]; rfl, hlen, codeField_bits hp⟩

end Sys2Proof.Machine
end

section
/-! The bit source and the bit sink (R31, R33, R36, R37): what one read and one write do, that DECODE looks
at nothing behind its final cursor (R110), and what DECOMPRESS makes of a compressed file (R120, R122). -/

namespace Sys2Proof

variable {P : Params}

/-! ### Reads and writes -/

/-- The number a field holds is the sum of its bits at their weights, first bit most significant (R31). -/
theorem natOf_eq_sum (p : Bits) :
    natOf p = ∑ i ∈ Finset.range p.length, (p.getD i false).toNat * 2 ^ (p.length - 1 - i) := by
  induction p with
  | nil => rfl
  | cons b q ih =>
    rw [natOf_cons, ih, List.length_cons, Finset.sum_range_succ', Nat.add_comm]
    simp only [List.getD_cons_succ, List.getD_cons_zero, Nat.add_sub_cancel, Nat.sub_zero,
      Nat.sub_sub, Nat.add_comm 1]

namespace Machine

theorem Source.length_take_rest {src : Source} {n : Nat} (h : n ≤ src.left) :
    (src.rest.take n).length = n := by
  rw [List.length_take, Source.rest_length, Nat.min_eq_left h]

/-- A bit of the next field is the bit of the source as far behind the cursor. -/
theorem Source.getD_take_rest (src : Source) {n i : Nat} (h : i < n) :
    (src.rest.take n).getD i false = src.bits.getD (src.pos + i) false := by
  simp [Source.rest, List.getD_eq_getElem?_getD, List.getElem?_take_of_lt h]

theorem natOf_take_rest {src : Source} {n : Nat} (h : n ≤ src.left) :
    natOf (src.rest.take n) =
      ∑ i ∈ Finset.range n, (src.bits.getD (src.pos + i) false).toNat * 2 ^ (n - 1 - i) := by
  rw [natOf_eq_sum, Source.length_take_rest h]
  exact Finset.sum_congr rfl fun i hi => by rw [src.getD_take_rest (Finset.mem_range.mp hi)]

/-- Settles O4: a read of `n` bits succeeds exactly when `n` bits remain, and then it is the field at the
cursor. -/
theorem readBitsReturnsTheNextField : Obligations.ReadBitsReturnsTheNextField := by
  intro src n _
  refine ⟨readBits_eq_none.mpr, fun hn => ?_⟩
  have hread : src.readBits n = some (natOf (src.rest.take n), src.skip n) :=
    readBits_eq_some.mpr ⟨hn, rfl, rfl⟩
  exact ⟨_, hread, natOf_take_rest hn, readBits_lt hread⟩

/-- Settles O5: what is appended is the field of `n` bits of `v`. -/
theorem writeBitsAppendsTheLowBits : Obligations.WriteBitsAppendsTheLowBits := by
  intro snk n v _
  exact ⟨bitsOf n v, rfl, bitsOf_length n v, fun _ => bitsOf_getElem?⟩

/-- Settles O6: the field of both widths is the one field followed by the other. -/
theorem splitReadsJoin : Obligations.SplitReadsJoin := by
  intro src src' m n v h
  obtain ⟨hleft, rfl, rfl⟩ := readBits_eq_some.mp h
  have hrest : n ≤ (src.skip m).left := by rw [Source.left_skip]; omega
  refine ⟨_, _, src.skip m, readBits_eq_some.mpr ⟨by omega, rfl, rfl⟩,
    readBits_eq_some.mpr ⟨hrest, rfl, (Source.skip_skip src m n).symm⟩, ?_⟩
  rw [List.take_add, natOf_append, ← Source.rest_skip, Source.length_take_rest hrest]

/-! ### What stands behind the cursor -/

/-- The source with the bits from bit `n` on replaced by `x`. -/
def Source.replaceFrom (src : Source) (n : Nat) (x : Bits) : Source :=
  { src with bits := src.bits.take n ++ x }

/-- Replacing what stands behind the next `n` bits leaves those `n` bits. -/
theorem Source.rest_replaceFrom {src : Source} (h : src.pos ≤ src.bits.length) (n : Nat) (x : Bits) :
    (src.replaceFrom (src.pos + n) x).rest = src.rest.take n ++ x := by
  have hpos : src.pos ≤ (src.bits.take (src.pos + n)).length := by
    rw [List.length_take]
    omega
  change (src.bits.take (src.pos + n) ++ x).drop src.pos = _
  rw [List.drop_append_of_le_length hpos, List.drop_take, Nat.add_sub_cancel_left, Source.rest]

/-- A DECODE that reaches the terminator does the same whatever stands behind its cursor (R110). -/
theorem decodeTree_replaceFrom {root : PrefixTree P} {s s' : State P} (h : decodeTree root s = .ended s')
    (x : Bits) :
    decodeTree root { s with src := s.src.replaceFrom s'.src.pos x } =
      .ended { s' with src := { s.src.replaceFrom s'.src.pos x with pos := s'.src.pos } } := by
  cases root with
  | leaf sym w =>
    rw [decodeTree] at h ⊢
    split at h
    · next hterm => cases h; exact if_pos hterm
    · cases h
  | node l r w =>
    rw [decodeTree] at h
    split at h
    · cases h
    · next src snk hloop =>
      cases h
      obtain ⟨n, rfl, hn, hpos, hlocal⟩ := decodeLoop_local hloop
      have hlegal : s.src.pos ≤ s.src.bits.length := by
        simp only [Source.left] at hn
        omega
      have hrest := Source.rest_replaceFrom hlegal n x
      have hleft : n ≤ (s.src.replaceFrom (s.src.pos + n) x).left := by
        rw [← Source.rest_length, hrest, List.length_append, Source.length_take_rest hn]
        omega
      rw [decodeTree]
      simp only [Source.skip_pos, hlocal _ _ x hleft hrest]
      rfl

/-- DECODE ends only on an open sink and with a tree (R105, R113). -/
theorem decodeBody_ended {s s' : State P} (h : decodeBody s = .ended s') :
    s.snk.closed = false ∧ ∃ t, s.tree = some t ∧ decodeTree t s = .ended s' := by
  cases ho : s.snk.closed with
  | true => rw [decodeBody, requireOpen_closed ho] at h; cases h
  | false =>
    cases ht : s.tree with
    | none => rw [decodeBody, requireOpen_open ho, andThen_ended, requireTree_none ht] at h; cases h
    | some t => exact ⟨rfl, t, rfl, (decodeBody_eq ho ht).symm.trans h⟩

/-- DECODE with its checks passed ends where its work on the tree ends. -/
theorem exec_decode_ended {s s' : State} {root : PrefixTree} (hf : s.fault = false)
    (ho : s.snk.closed = false) (ht : s.tree = some root) (hrun : decodeTree root s.begin = .ended s') :
    exec .decode s = .next s'.finish := by
  have hbody : decodeBody s.begin = .ended s' := (decodeBody_eq (s := s.begin) ho ht).trans hrun
  exact (accept_run hf).trans (congrArg Ran.outcome hbody)

/-- A command that leaves no fault latched ran to its end. -/
theorem accept_ended {body : State P → Ran P} {s t : State P} (h : accept body s = .next t)
    (hf : s.fault = false) (ht : t.fault = false) :
    ∃ s', body s.begin = .ended s' ∧ t = s'.finish := by
  rcases accept_cases h with ⟨hfault, -⟩ | ⟨-, hended⟩ | ⟨-, s', r, -, rfl⟩
  · rw [hf] at hfault; cases hfault
  · exact hended
  · cases ht

/-- Settles O45: the walk of DECODE is local to the bits up to its final cursor. -/
theorem padBitsNeverMatter : Obligations.PadBitsNeverMatter := by
  intro s t x hf h ht
  obtain ⟨s', hbody, rfl⟩ := accept_ended h hf ht
  obtain ⟨ho, root, htree, hrun⟩ := decodeBody_ended hbody
  exact exec_decode_ended (s := { s with src := s.src.replaceFrom s'.src.pos x }) hf ho htree
    (decodeTree_replaceFrom hrun x)

/-! ### DECOMPRESS on a compressed file -/

/-- A tree without its weights has the same codes, so they are its paths too (R94). -/
theorem codesArePaths_strip (t : PrefixTree P) : CodesArePaths (codesOf t) t.strip :=
  codesOf_strip t ▸ codesArePaths_codesOf t.strip

/-- DECOMPRESS at the start of a compressed file: magic word, header and payload are read, and nothing
behind them. -/
theorem decompressBody_file (hP : P.Legal) {before : PqEntry P → PqEntry P → Bool} {S : List Byte}
    {t : PrefixTree P} {f x : Bits} {s : State P} (ht : treeOf before S = some t)
    (hf : fileOf before S = some f) (ho : s.snk.closed = false) (hrest : s.src.rest = f ++ x) :
    decompressBody s = .ended { s with
      tree := some t.strip, ct := noCodes, src := s.src.skip f.length
      snk := (s.snk.writeString (bitsOfBytes S)).close } := by
  obtain ⟨body, last, hbody, hlast, rfl⟩ := fileOf_parts hP ht hf
  simp only [List.append_assoc] at hrest
  have hmagic := rdmagicBody_field hrest
  have hheader : (s.src.skip 32).rest = ser t ++ (body ++ (last ++ x)) := Source.rest_skip_append hrest
  have hpayload : ((s.src.skip 32).skip (ser t).length).rest = body ++ last ++ x := by
    rw [Source.rest_skip_append hheader, List.append_assoc]
  have hnodes : t.nodes ≤ P.nodeCap := (buildTree_nodes ht).trans hP.cap
  have htree := rdtreeBody_ser (s := { s with src := s.src.skip 32 }) hheader hnodes
  rw [Source.skip_skip] at htree hpayload
  rw [decompressBody_tree ho hmagic htree,
    decodeTree_payload (codesArePaths_strip t) hbody hlast hpayload, andThen_ended]
  have hskip : s.src.skip (bitsOf Config.magicW Config.magic ++ ser t ++ body ++ last).length =
      (s.src.skip (32 + (ser t).length)).skip (body ++ last).length := by
    simp only [Source.skip_skip, List.length_append, bitsOf_length, Nat.add_assoc]
  rw [hskip]
  rfl

/-- Settles O49: this hardware is a legal build, so DECOMPRESS runs to its end on every file. -/
theorem decompressReadsTheFile : Obligations.DecompressReadsTheFile := by
  intro before S t f pad s ht hf hfault hsrc ho
  have hbody := decompressBody_file hardware_legal (s := s.begin) (x := pad) ht hf ho (by
    rw [begin_src, hsrc]; rfl)
  have hend : s.begin.src.skip f.length = { bits := f ++ pad, pos := f.length } := by
    rw [begin_src, hsrc, Source.skip, Nat.zero_add]
  rw [hend] at hbody
  exact (accept_run hfault).trans (congrArg Ran.outcome hbody)

end Machine
end Sys2Proof
end

section
/-! The decoder and the encoder (R50, R51, R54 to R63): at each place the decoder accepts exactly the
encodings of the instructions that stand there, whatever follows, so that each of the two undoes the other;
and what WRTREE writes with the same encoder (R57, R62, R90). -/

namespace Sys2Proof
open Sys2Proof.Machine

variable {P : Params}

/-! ### Fields and code words -/

/-- A field is read exactly from its own bits. -/
theorem takeField_eq_ok {n v : Nat} {bs x : Bits} :
    takeField n bs = .ok (v, x) ↔ v < 2 ^ n ∧ bs = bitsOf n v ++ x :=
  ⟨takeField_ok, fun ⟨hv, hbs⟩ => hbs ▸ takeField_append hv x⟩

/-- A record that is one field of `n` bits, read by a function of that field. -/
theorem takeField_map_eq_ok {n : Nat} {f : BitVec n → Instr} {bs x : Bits} {i : Instr} :
    (takeField n bs).map (fun e => (f (BitVec.ofNat n e.1), e.2)) = .ok (i, x) ↔
      ∃ v : BitVec n, f v = i ∧ bs = bitsOf n v.toNat ++ x := by
  constructor
  · intro h
    cases hf : takeField n bs with
    | error e => rw [hf] at h; cases h
    | ok e =>
      rw [hf] at h
      cases h
      obtain ⟨hlt, hbs⟩ := takeField_ok hf
      exact ⟨BitVec.ofNat n e.1, rfl, by rwa [BitVec.toNat_ofNat, Nat.mod_eq_of_lt hlt]⟩
  · rintro ⟨v, rfl, hbs⟩
    rw [takeField_eq_ok.mpr ⟨v.isLt, hbs⟩]
    simp [Except.map]

/-- The walk from the root along the path of a leaf reads that path and leaves the rest (R63). -/
theorem walkCode_leafAt {t : PrefixTree P} {p : Bits} {a : Sym} (h : t.leafAt p = some a) (x : Bits) :
    walkCode t (p ++ x) = some (p, x) := by
  induction t generalizing p with
  | leaf s w =>
    cases p with
    | nil => rfl
    | cons b p => cases h
  | node l r w ihl ihr =>
    match p with
    | [] => cases h
    | false :: p => rw [List.cons_append, walkCode, ihl h]; rfl
    | true :: p => rw [List.cons_append, walkCode, ihr h]; rfl

/-- What a walk from the root reads is the path of a leaf (R63). -/
theorem leafAt_walkCode {t : PrefixTree P} {bs p x : Bits} (h : walkCode t bs = some (p, x)) :
    (t.leafAt p).isSome = true := by
  induction t generalizing bs p with
  | leaf s w => cases h; rfl
  | node l r w ihl ihr =>
    match bs with
    | [] => cases h
    | false :: bs =>
      obtain ⟨⟨q, y⟩, hq, heq⟩ := Option.map_eq_some_iff.mp h
      cases heq
      exact ihl hq
    | true :: bs =>
      obtain ⟨⟨q, y⟩, hq, heq⟩ := Option.map_eq_some_iff.mp h
      cases heq
      exact ihr hq

/-- The walk from the root accepts exactly the paths of the leaves. -/
theorem walkCode_eq_some {t : PrefixTree P} {bs p x : Bits} :
    walkCode t bs = some (p, x) ↔ (t.leafAt p).isSome = true ∧ bs = p ++ x := by
  constructor
  · exact fun h => ⟨leafAt_walkCode h, walkCode_append_eq h⟩
  · rintro ⟨hleaf, rfl⟩
    obtain ⟨a, ha⟩ := Option.isSome_iff_exists.mp hleaf
    exact walkCode_leafAt ha x

/-! ### What stands at each place -/

/-- What stands on the command port is named by an opcode (R50, R51). -/
theorem standsAt_command {i : Instr} :
    i.StandsAt (.command : Place) ↔ ∃ op : Opcode, decodeCommand op = i := by
  constructor
  · intro h
    cases i
    case nop => exact ⟨0x0#4, rfl⟩
    case count => exact ⟨0x1#4, rfl⟩
    case build => exact ⟨0x2#4, rfl⟩
    case gencodes => exact ⟨0x3#4, rfl⟩
    case wrmagic => exact ⟨0x4#4, rfl⟩
    case wrtree => exact ⟨0x5#4, rfl⟩
    case rewind => exact ⟨0x6#4, rfl⟩
    case encode => exact ⟨0x7#4, rfl⟩
    case rdmagic => exact ⟨0x8#4, rfl⟩
    case rdtree => exact ⟨0x9#4, rfl⟩
    case decode => exact ⟨0xA#4, rfl⟩
    case close => exact ⟨0xB#4, rfl⟩
    case compress => exact ⟨0xC#4, rfl⟩
    case decompress => exact ⟨0xD#4, rfl⟩
    case clear => exact ⟨0xE#4, rfl⟩
    case reservedF => exact ⟨0xF#4, rfl⟩
    case streamCodeword p => obtain ⟨t, ht, -⟩ := h; cases ht
    all_goals cases h
  · rintro ⟨op, rfl⟩
    unfold decodeCommand
    split <;> rfl

theorem standsAt_magic {i : Instr} : i.StandsAt (.magic : Place P) ↔ i = .streamMagic := by
  cases i <;> simp [Instr.StandsAt]

theorem standsAt_node {i : Instr} :
    i.StandsAt (.node : Place P) ↔ i = .streamNodeInternal ∨ ∃ s, i = .streamNodeLeaf s := by
  cases i <;> simp [Instr.StandsAt]

theorem standsAt_code {i : Instr} {t : PrefixTree P} :
    i.StandsAt (.code t) ↔ ∃ p, i = .streamCodeword p ∧ (t.leafAt p).isSome = true := by
  cases i <;> simp [Instr.StandsAt]

theorem standsAt_symbol {i : Instr} : i.StandsAt (.symbol : Place P) ↔ ∃ b, i = .streamByte b := by
  cases i <;> simp [Instr.StandsAt]

/-! ### The decoder at each place -/

theorem decodeIn_command {bs x : Bits} {i : Instr} :
    decodeIn (.command : Place) bs = .ok (i, x) ↔
      i.StandsAt (.command : Place) ∧ bs = encode i ++ x := by
  have hfield : decodeIn (.command : Place) bs = .ok (i, x) ↔
      ∃ op : Opcode, decodeCommand op = i ∧ bs = bitsOf 4 op.toNat ++ x := takeField_map_eq_ok
  rw [hfield, standsAt_command]
  constructor
  · rintro ⟨op, rfl, hbs⟩
    exact ⟨⟨op, rfl⟩, by rw [encode_decodeCommand, hbs]⟩
  · rintro ⟨⟨op, rfl⟩, hbs⟩
    exact ⟨op, rfl, by rw [hbs, encode_decodeCommand]⟩

theorem decodeIn_magic {bs x : Bits} {i : Instr} :
    decodeIn (.magic : Place P) bs = .ok (i, x) ↔
      i.StandsAt (.magic : Place P) ∧ bs = encode i P ++ x := by
  have hmagic : Config.magic < 2 ^ 32 := by decide
  rw [standsAt_magic]
  constructor
  · intro h
    rw [decodeIn] at h
    cases hf : takeField Config.magicW bs with
    | error e => rw [hf] at h; cases h
    | ok e =>
      obtain ⟨v, rest⟩ := e
      rw [hf] at h
      by_cases hv : v = Config.magic
      · simp only [hv, if_true, Except.ok.injEq, Prod.mk.injEq] at h
        obtain ⟨rfl, rfl⟩ := h
        rw [hv] at hf
        exact ⟨rfl, (takeField_ok hf).2⟩
      · simp only [hv, if_false] at h
        cases h
  · rintro ⟨rfl, hbs⟩
    rw [decodeIn, takeField_eq_ok.mpr ⟨hmagic, hbs⟩]
    exact if_pos rfl

theorem decodeIn_node {bs x : Bits} {i : Instr} :
    decodeIn (.node : Place P) bs = .ok (i, x) ↔
      i.StandsAt (.node : Place P) ∧ bs = encode i P ++ x := by
  rw [standsAt_node]
  match bs with
  | [] =>
    constructor
    · intro h; cases h
    · rintro ⟨rfl | ⟨s, rfl⟩, hbs⟩ <;> cases hbs
  | false :: bs =>
    constructor
    · intro h; cases h; exact ⟨.inl rfl, rfl⟩
    · rintro ⟨rfl | ⟨s, rfl⟩, hbs⟩ <;> cases hbs
      rfl
  | true :: bs =>
    have hfield : decodeIn (.node : Place P) (true :: bs) = .ok (i, x) ↔
        ∃ s : Sym, Instr.streamNodeLeaf s = i ∧ bs = bitsOf 9 s.toNat ++ x := takeField_map_eq_ok
    rw [hfield]
    constructor
    · rintro ⟨s, rfl, hbs⟩
      exact ⟨.inr ⟨s, rfl⟩, congrArg (true :: ·) hbs⟩
    · rintro ⟨rfl | ⟨s, rfl⟩, hbs⟩
      · cases hbs
      · exact ⟨s, rfl, (List.cons.inj hbs).2⟩

theorem decodeIn_code {t : PrefixTree P} {bs x : Bits} {i : Instr} :
    decodeIn (.code t) bs = .ok (i, x) ↔ i.StandsAt (.code t) ∧ bs = encode i P ++ x := by
  rw [standsAt_code]
  constructor
  · intro h
    rw [decodeIn] at h
    cases hw : walkCode t bs with
    | none => rw [hw] at h; cases h
    | some e =>
      rw [hw] at h
      cases h
      obtain ⟨hleaf, hbs⟩ := walkCode_eq_some.mp hw
      exact ⟨⟨e.1, rfl, hleaf⟩, hbs⟩
  · rintro ⟨⟨p, rfl, hleaf⟩, hbs⟩
    rw [decodeIn, walkCode_eq_some.mpr ⟨hleaf, hbs⟩]

theorem decodeIn_symbol {bs x : Bits} {i : Instr} :
    decodeIn (.symbol : Place P) bs = .ok (i, x) ↔
      i.StandsAt (.symbol : Place P) ∧ bs = encode i P ++ x := by
  have hfield : decodeIn (.symbol : Place P) bs = .ok (i, x) ↔
      ∃ b : Byte, Instr.streamByte b = i ∧ bs = bitsOf 8 b.toNat ++ x := takeField_map_eq_ok
  rw [hfield, standsAt_symbol]
  constructor
  · rintro ⟨b, rfl, hbs⟩
    exact ⟨⟨b, rfl⟩, hbs⟩
  · rintro ⟨⟨b, rfl⟩, hbs⟩
    exact ⟨b, rfl, hbs⟩

/-- At every place the decoder accepts exactly the encodings of the instructions that stand there. -/
theorem decodeIn_eq_ok {place : Place} {bs x : Bits} {i : Instr} :
    decodeIn place bs = .ok (i, x) ↔ i.StandsAt place ∧ bs = encode i ++ x := by
  cases place with
  | command => exact decodeIn_command
  | magic => exact decodeIn_magic
  | node => exact decodeIn_node
  | code t => exact decodeIn_code
  | symbol => exact decodeIn_symbol

/-! ### A place for every code word -/

/-- The tree whose internal nodes stand on the path `p` alone: its deepest leaf is at the end of `p`. -/
def spine : Bits → PrefixTree P
  | [] => .leaf 0 0
  | false :: p => .node (spine p) (.leaf 0 0) 0
  | true :: p => .node (.leaf 0 0) (spine p) 0

theorem leafAt_spine (p : Bits) : (spine p : PrefixTree P).leafAt p = some 0 := by
  induction p with
  | nil => rfl
  | cons b p ih => cases b <;> exact ih

theorem nodes_spine (p : Bits) : (spine p : PrefixTree P).nodes = 2 * p.length + 1 := by
  induction p with
  | nil => rfl
  | cons b p ih =>
    cases b <;> simp only [spine, PrefixTree.nodes, ih, List.length_cons] <;> omega

/-- Every well-formed instruction stands somewhere, a code word in the payload of a tree that fits the
block (R54, R59). -/
theorem exists_standsAt {i : Instr} (h : wellFormed i = true) :
    ∃ place : Place, i.StandsAt place ∧ ∀ t, place = .code t → t.nodes ≤ 513 := by
  cases i
  case streamMagic => exact ⟨.magic, rfl, nofun⟩
  case streamNodeInternal => exact ⟨.node, rfl, nofun⟩
  case streamNodeLeaf s => exact ⟨.node, rfl, nofun⟩
  case streamByte b => exact ⟨.symbol, rfl, nofun⟩
  case streamCodeword p =>
    have hlen : p.length ≤ 256 := of_decide_eq_true h
    refine ⟨.code (spine p), ⟨spine p, rfl, by rw [leafAt_spine]; rfl⟩, ?_⟩
    rintro t ht
    cases ht
    rw [nodes_spine]
    omega
  all_goals exact ⟨.command, rfl, nofun⟩

/-- Settles O2: the decoder accepts exactly the encodings of what stands at its place, and a code word
stands in the payload of the tree that has it as its only long path. -/
theorem decodeUndoesEncode : Obligations.DecodeUndoesEncode :=
  ⟨fun _ _ _ hstands => decodeIn_eq_ok.mpr ⟨hstands, rfl⟩, fun _ => exists_standsAt⟩

/-- Settles O3: the same equivalence, read from left to right. -/
theorem encodeUndoesDecode : Obligations.EncodeUndoesDecode :=
  fun _ _ _ _ hdecode => (decodeIn_eq_ok.mp hdecode).2

/-- Settles O1: the decoder run on each word. -/
theorem writtenOutWordsDecode : Obligations.WrittenOutWordsDecode := by
  unfold Obligations.WrittenOutWordsDecode
  decide

end Sys2Proof
end

section
/-! Single commands: the reserved opcode and the stream records (R50, R51, R54), the tree header that WRTREE
writes (R57, R62, R90), and DECODE on a payload that ends too early (R61, R108, R137). -/

namespace Sys2Proof.Machine
open Sys2Proof

variable {P : Params}

/-! ### The reserved opcode and the stream records as instructions -/

/-- A command that raises with no fault latched latches the fault it raises (R134). -/
theorem accept_raised {body : State P → Ran P} {s s' : State P} {r : Raise}
    (hf : s.fault = false) (hrun : body s.begin = .raised s' r) (hf' : s'.fault = false) :
    accept body s = .next { s' with
      busy := false, fault := true, cause := r.cause, info := BitVec.ofNat 32 r.info } := by
  rw [accept_run hf, hrun, outcome_raised, takeFault, hf']
  rfl

/-- Settles O16: the reserved opcode's body is one raise, and no two opcodes are the same instruction. -/
theorem reservedOpcodeRaises : Obligations.ReservedOpcodeRaises := by
  refine ⟨fun s => ⟨fun hf => ?_, fun hf => accept_fault hf⟩, fun op => ?_⟩
  · exact accept_raised (body := reservedBody) (s' := s.begin) hf rfl hf
  · exact decodeCommand_injective.eq_iff' (b := 0xF#4) rfl

/-- Settles O55: the arm of each record is its refusal. -/
theorem streamRecordsAreNoCommands : Obligations.StreamRecordsAreNoCommands :=
  fun _ => ⟨rfl, rfl, fun _ => rfl, fun _ => rfl, fun _ => rfl⟩

/-! ### The tree header -/

/-- The bits of a field, listed by their weights (R7, R33). -/
theorem bitsOf_eq_map (n v : Nat) : bitsOf n v = (List.range n).map fun i => v.testBit (n - 1 - i) := by
  apply List.ext_getElem?
  intro i
  by_cases hi : i < n
  · rw [bitsOf_getElem? hi, List.getElem?_map, List.getElem?_range hi]
    rfl
  · rw [List.getElem?_eq_none (by simpa using hi), List.getElem?_eq_none (by simpa using hi)]

/-- Settles O33: WRTREE's checks pass, and the serialization is its own recursion, the leaf's symbol
written out bit by bit. -/
theorem wrtreeAppendsTheHeader : Obligations.WrtreeAppendsTheHeader := by
  refine ⟨fun s t hf ho ht => ?_, fun l r w => ser_node l r w, fun sym w => ?_⟩
  · have hrun := wrtreeBody_eq (s := s.begin) ho ht
    exact (accept_run hf).trans (congrArg Ran.outcome hrun)
  · exact congrArg (true :: ·) (bitsOf_eq_map 9 sym.toNat)

/-- Wherever BUILD's body stops, the tree register holds the tree of the weight table, or none (R75, R80). -/
theorem buildBody_tree (before : PqEntry P → PqEntry P → Bool) (s : State P) :
    RanRel (fun s t => t.tree = buildTree before s.wt) s (buildBody before s) := by
  cases h : buildTree before s.wt with
  | none => rw [buildBody_none h]; exact h.symm
  | some t => rw [buildBody_some h]; exact h.symm

/-- A command accepted with no fault latched leaves the data fields as its body left them. -/
theorem accept_ranRel {R : State P → State P → Prop} {body : State P → Ran P} {s t : State P}
    (hbody : RanRel R s.begin (body s.begin)) (hf : s.fault = false) (h : accept body s = .next t) :
    ∃ s', R s.begin s' ∧ Frame [] s' t := by
  rcases accept_cases h with ⟨hf', -⟩ | ⟨-, s', hrun, rfl⟩ | ⟨-, s', r, hrun, rfl⟩
  · rw [hf] at hf'
    cases hf'
  · rw [hrun] at hbody
    exact ⟨s', hbody, frame_finish s'⟩
  · rw [hrun] at hbody
    exact ⟨s', hbody, frame_takeFault r s'⟩

/-- The tree a BUILD leaves is that of the weight table. -/
theorem exec_build_tree {s u : State} (hf : s.fault = false) (h : exec .build s = .next u) :
    u.tree = buildTree tieBreak s.wt := by
  obtain ⟨s', htree, hframe⟩ := accept_ranRel (buildBody_tree tieBreak s.begin) hf h
  exact (hframe.tree List.not_mem_nil).trans htree

/-- Settles O34: a built tree has at most 513 nodes, and so at most 257 leaves. -/
theorem headerLength : Obligations.HeaderLength := by
  refine ⟨ser_length, fun s u hf hrun t ht => ?_⟩
  have hnodes : t.nodes ≤ 513 := buildTree_nodes ((exec_build_tree hf hrun).symm.trans ht)
  have hleaves := nodes_leaves t
  have hlen := ser_length t
  omega

/-! ### A payload that ends too early -/

/-- DECODE that raises on its tree latches the fault, with the streams where its loop stopped. -/
theorem exec_decode_raised {s s' : State} {t : PrefixTree} {r : Raise} (hf : s.fault = false)
    (ho : s.snk.closed = false) (ht : s.tree = some t) (hrun : decodeTree t s.begin = .raised s' r)
    (hf' : s'.fault = false) :
    exec .decode s = .next { s' with
      busy := false, fault := true, cause := r.cause, info := BitVec.ofNat 32 r.info } :=
  accept_raised hf ((decodeBody_eq (s := s.begin) ho ht).trans hrun) hf'

/-- Skipping all that is left puts the cursor at the end of the source. -/
theorem Source.skip_left {src : Source} (h : src.pos ≤ src.bits.length) :
    src.skip src.left = { src with pos := src.bits.length } := by
  rw [Source.skip, Source.left, Nat.add_sub_cancel' h]

/-- DECODE that meets the end of the source behind the units `w`. -/
theorem exec_decode_exhausted {s : State} {t : PrefixTree} {w : Bits} (hf : s.fault = false)
    (ho : s.snk.closed = false) (ht : s.tree = some t) (hpos : s.src.pos ≤ s.src.bits.length)
    (hrun : decodeTree t s.begin = .raised { s.begin with
      src := s.src.skip s.src.left, snk := s.snk.writeString w } ⟨.truncatedStream, 0, 0⟩) :
    exec .decode s = .next { s with
      busy := false, done := false, fault := true, cause := 0x03, info := 0
      src := { s.src with pos := s.src.bits.length }
      snk := { s.snk with bits := s.snk.bits ++ w } } := by
  rw [Source.skip_left hpos] at hrun
  exact exec_decode_raised hf ho ht hrun hf

/-- Settles O44: DECODE's loop writes the unit of each whole code word and raises at the end of the source;
the payload of a byte sequence is cut inside the code word of one of its symbols. -/
theorem exhaustedPayloadRaises : Obligations.ExhaustedPayloadRaises := by
  refine ⟨fun s t L q hf ho ht hpos hcut => ?_,
    fun s t S body last y hf ho ht hpos hbody hlast hy hrest => ?_, fun l r w x hterm => ?_⟩
  · exact exec_decode_exhausted hf ho ht hpos (decodeTree_cutPayload (s := s.begin) hcut)
  · obtain ⟨S', S'', whole, q, z, hS, hwhole, hx, hz, hnext, hrun⟩ :=
      decodeTree_cut (s := s.begin) (codesArePaths_codesOf t) hbody hlast hrest hy
    exact ⟨S', S'', whole, q, z, hS, hwhole, hx, hz, hnext, exec_decode_exhausted hf ho ht hpos hrun⟩
  · exact cutPayload_of_no_term hterm x

end Sys2Proof.Machine
end

section
/-! The composite commands: COMPRESS and DECOMPRESS are their primitive steps issued one after another (R53,
R119 to R121), and what COMPRESS makes of its input (R55, R122). -/

namespace Sys2Proof.Machine
open Sys2Proof

variable {P : Params}

/-! ### Primitive steps one after another -/

theorem runAll_next {i : Instr} {steps : List Instr} {s t : State} (h : exec i s = .next t) :
    runAll (i :: steps) s = runAll steps t := by
  rw [runAll, h]

theorem runAll_refused {i : Instr} {steps : List Instr} {s : State} {w : Refusal}
    (h : exec i s = .refused w) : runAll (i :: steps) s = .refused w := by
  rw [runAll, h]

/-- A composite's pseudocode behind its check: its steps in order, then CLOSE, with R121's failure path. -/
def runBodies (bodies : List (State P → Ran P)) (x : Ran P) : Ran P :=
  ((bodies.foldl Ran.andThen x).andThen closeBody).closeOnRaise

@[simp] theorem runBodies_cons (body : State P → Ran P) (bodies : List (State P → Ran P)) (s : State P) :
    runBodies (body :: bodies) (.ended s) = runBodies bodies (body s) := rfl

@[simp] theorem runBodies_raised (bodies : List (State P → Ran P)) (s : State P) (r : Raise) :
    runBodies bodies (.raised s r) = .raised (closeSink s) r := by
  induction bodies with
  | nil => rfl
  | cons body bodies ih => exact ih

@[simp] theorem runBodies_refused (bodies : List (State P → Ran P)) (w : Refusal) :
    runBodies bodies (.refused w) = .refused w := by
  induction bodies with
  | nil => rfl
  | cons body bodies ih => exact ih

/-- `i` is a primitive step before the last CLOSE, with this body. -/
structure IsStep (i : Instr) (body : State → Ran) : Prop where
  body_eq : primitiveBody i = some body
  ne_close : i ≠ .close

theorem IsStep.exec {i : Instr} {body : State → Ran} (h : IsStep i body) (s : State) :
    exec i s = accept body s :=
  exec_of_commandBody (commandBody_of_primitive h.body_eq) (.inl h.ne_close)

/-- With a fault latched the steps are ignored and the last CLOSE closes the sink (R113, R117). -/
theorem runAll_faulted {steps : List Instr} {bodies : List (State → Ran)}
    (h : List.Forall₂ IsStep steps bodies) {s : State} (hf : s.fault = true) :
    runAll (steps ++ [.close]) s = .next (closeSink s) := by
  induction h with
  | nil =>
    have hclose : exec .close s = .next (closeSink s) := if_pos hf
    exact runAll_next hclose
  | cons hstep _ ih => exact (runAll_next ((hstep.exec s).trans (accept_fault hf))).trans ih

/-- Steps issued one after another, each with its own acceptance, do what their bodies do in one command:
between two of them only `BUSY` and `DONE` differ, and acceptance writes both. -/
theorem runAll_eq_runBodies {steps : List Instr} {bodies : List (State → Ran)}
    (h : List.Forall₂ IsStep steps bodies) {s : State} (hf : s.fault = false) :
    runAll (steps ++ [.close]) s = (runBodies bodies (.ended s.begin)).outcome := by
  induction h generalizing s with
  | nil =>
    have hclose : exec .close s = .next (closeSink s.begin).finish :=
      (exec_of_commandBody (i := .close) rfl (.inr hf)).trans (accept_run hf)
    exact runAll_next hclose
  | cons hstep hrest ih =>
    next i body steps bodies =>
    have hkeeps := commandBody_keeps (commandBody_of_primitive hstep.body_eq) s.begin
    have hexec : exec i s = (body s.begin).outcome := (hstep.exec s).trans (accept_run hf)
    rw [List.cons_append, runBodies_cons]
    cases hrun : body s.begin with
    | ended s' =>
      rw [hrun] at hkeeps hexec
      have hbegin : s'.finish.begin = s' := begin_of_running hkeeps.busy hkeeps.done
      have hrest' := ih (s := s'.finish) (hkeeps.fault.trans hf)
      rw [hbegin] at hrest'
      exact (runAll_next hexec).trans hrest'
    | raised s' r =>
      rw [hrun] at hexec
      rw [runBodies_raised, runAll_next hexec]
      exact runAll_faulted hrest (takeFault_fault r s')
    | refused w =>
      rw [hrun] at hexec
      rw [runBodies_refused, runAll_refused hexec, outcome_refused]

theorem compressBody_eq_runBodies {before : PqEntry P → PqEntry P → Bool} {s : State P}
    (ho : s.snk.closed = false) :
    compressBody before s = runBodies [countBody, buildBody before, gencodesBody, wrmagicBody, wrtreeBody,
      rewindBody, encodeBody] (.ended s) := by
  rw [compressBody, requireOpen_open ho]
  rfl

theorem decompressBody_eq_runBodies {s : State P} (ho : s.snk.closed = false) :
    decompressBody s = runBodies [rdmagicBody, rdtreeBody, decodeBody] (.ended s) := by
  rw [decompressBody, requireOpen_open ho]
  rfl

/-- The steps of COMPRESS before its CLOSE, with their bodies (R119). -/
theorem compress_isStep :
    List.Forall₂ IsStep [.count, .build, .gencodes, .wrmagic, .wrtree, .rewind, .encode]
      [countBody, buildBody tieBreak, gencodesBody, wrmagicBody, wrtreeBody, rewindBody, encodeBody] :=
  .cons ⟨rfl, nofun⟩ <| .cons ⟨rfl, nofun⟩ <| .cons ⟨rfl, nofun⟩ <| .cons ⟨rfl, nofun⟩ <|
    .cons ⟨rfl, nofun⟩ <| .cons ⟨rfl, nofun⟩ <| .cons ⟨rfl, nofun⟩ .nil

/-- The steps of DECOMPRESS before its CLOSE, with their bodies (R120). -/
theorem decompress_isStep :
    List.Forall₂ IsStep [.rdmagic, .rdtree, .decode] [rdmagicBody, rdtreeBody, decodeBody] :=
  .cons ⟨rfl, nofun⟩ <| .cons ⟨rfl, nofun⟩ <| .cons ⟨rfl, nofun⟩ .nil

/-- Settles O46: behind its check a composite runs the bodies of its steps, and so do the steps issued one
after another. -/
theorem compositesAreTheirSteps : Obligations.CompositesAreTheirSteps := by
  intro s hf ho
  constructor
  · have hsteps : runAll compressSteps s = _ := runAll_eq_runBodies compress_isStep hf
    rw [hsteps, ← compressBody_eq_runBodies (s := s.begin) ho]
    exact accept_run hf
  · have hsteps : runAll decompressSteps s = _ := runAll_eq_runBodies decompress_isStep hf
    rw [hsteps, ← decompressBody_eq_runBodies (s := s.begin) ho]
    exact accept_run hf

/-! ### COMPRESS on an admitted input -/

/-- COMPRESS from a source at its start appends the compressed file of the source's bytes (R55, R119). -/
theorem compressBody_file (hP : P.Legal) {before : PqEntry P → PqEntry P → Bool} {s : State P}
    (ho : s.snk.closed = false) (hpos : s.src.pos = 0) (hlen : s.src.bits.length / 8 ≤ P.maxInputBytes) :
    ∃ t f, treeOf before (bytesOf s.src.bits) = some t ∧ fileOf before (bytesOf s.src.bits) = some f ∧
      compressBody before s = .ended { s with
        wt := weightsOf (bytesOf s.src.bits) P, tree := some t, ct := codesOf t
        src := { s.src with pos := 8 * (s.src.bits.length / 8) }
        snk := { bits := s.snk.bits ++ f, closed := true } } := by
  have hrest : s.src.rest = s.src.bits := by rw [Source.rest, hpos, List.drop_zero]
  have hleft : s.src.left = s.src.bits.length := by rw [← Source.rest_length, hrest]
  have hbytes : (bytesOf s.src.bits).length ≤ P.maxInputBytes := by rwa [bytesOf_length]
  obtain ⟨t, ht⟩ := treeOf_isSome hP before (bytesOf s.src.bits)
  obtain ⟨body, hbody⟩ := codeWords_isSome hP hbytes ht
  obtain ⟨last, hlast⟩ := codeOf_term hP ht
  have hat := compressBody_eq (before := before) (t := t) ho (hleft ▸ hlen) (hrest ▸ ht)
  have hrewind : s.src.rewind = s.src := by rw [Source.rewind, ← hpos]
  have hclosed := (compressAtEncode_closed (s := s) (t := t) (bytesOf s.src.bits)).trans ho
  have hpayload : codeWords (compressAtEncode s (bytesOf s.src.bits) t).ct
      (bytesOf (compressAtEncode s (bytesOf s.src.bits) t).src.rest) = some body := by
    rw [compressAtEncode_ct, compressAtEncode_src, hrewind, hrest, hbody]
  have hterm : codeOf (compressAtEncode s (bytesOf s.src.bits) t).ct Config.term = some last := by
    rw [compressAtEncode_ct, hlast]
  have hencode := encodeBody_all hclosed hpayload hterm
  refine ⟨t, _, ht, fileOf_some ht hbody hlast, ?_⟩
  rw [hat, hrest, hencode, compressAtEncode, hrewind]
  generalize bitsOf Config.magicW Config.magic = m
  simp [closeBody, closeSink, Sink.close, Sink.writeString, Source.skip, hleft, hpos]

/-- Settles O48: this hardware is a legal build, so every symbol of the input and the terminator have codes
and COMPRESS runs to its end. -/
theorem compressWritesTheFile : Obligations.CompressWritesTheFile := by
  intro before s hf hpos hlen hsnk
  have ho : s.snk.closed = false := by rw [hsnk]
  obtain ⟨t, f, ht, hfile, hrun⟩ :=
    compressBody_file hardware_legal (before := before) (s := s.begin) ho hpos hlen
  refine ⟨t, f, ht, hfile, _, rfl, ?_⟩
  have haccept := (accept_run hf).trans (congrArg Ran.outcome hrun)
  rw [begin_snk, hsnk] at haccept
  exact ⟨haccept, by rintro rfl; exact haccept⟩

end Sys2Proof.Machine
end

section
/-! The frequency counter: what holds of the weight table after COUNT (R70 to R73), and the input that COUNT
and COMPRESS refuse (R71). -/

namespace Sys2Proof.Machine
open Sys2Proof

variable {P : Params}

/-! ### The weight table of a byte sequence -/

theorem countIn_of_byte (S : List Byte) {i : Nat} (hi : i < 256) :
    countIn S i = (S.map BitVec.toNat).count i :=
  if_neg hi.ne

/-- The symbols with a positive count are the terminator and the byte values that occur. -/
theorem countIn_ne_zero {S : List Byte} {i : Nat} :
    countIn S i ≠ 0 ↔ i = Config.term ∨ i ∈ S.map BitVec.toNat := by
  unfold countIn
  split
  · next hi => simp [hi]
  · next hi => simp only [hi, false_or, ne_eq, List.count_eq_zero, not_not]

theorem lt_of_mem_bytes {S : List Byte} {i : Nat} (h : i ∈ S.map BitVec.toNat) : i < 256 := by
  obtain ⟨b, -, rfl⟩ := List.mem_map.mp h
  exact b.isLt

/-- `countIn_ne_zero` over the range of the table's indices. -/
theorem filter_countIn_ne_zero (S : List Byte) :
    (Finset.range 257).filter (fun i => countIn S i ≠ 0) =
      insert Config.term (S.map BitVec.toNat).toFinset := by
  ext i
  simp only [Finset.mem_filter, Finset.mem_range, countIn_ne_zero, Finset.mem_insert, List.mem_toFinset,
    and_iff_right_iff_imp]
  rintro (rfl | hi)
  · decide
  · exact (lt_of_mem_bytes hi).trans (by decide)

theorem card_countIn_ne_zero (S : List Byte) :
    ((Finset.range 257).filter fun i => countIn S i ≠ 0).card = S.dedup.length + 1 := by
  have hterm : Config.term ∉ (S.map BitVec.toNat).toFinset :=
    fun h => (lt_of_mem_bytes (List.mem_toFinset.mp h)).ne rfl
  rw [filter_countIn_ne_zero, Finset.card_insert_of_notMem hterm, List.card_toFinset,
    List.dedup_map_of_injective (fun _ _ => BitVec.eq_of_toNat_eq), List.length_map]

theorem weightsOf_toList (S : List Byte) :
    (weightsOf S P).toList = (List.range 257).map fun i => BitVec.ofNat P.weightW (countIn S i) := by
  apply List.ext_getElem
  · simp
  · intro i hi _
    have hi : i < 257 := by simpa using hi
    simpa using weightsOf_get S i hi

theorem ofNat_countIn_ne_zero (hP : P.Legal) {S : List Byte} (hS : S.length ≤ P.maxInputBytes) (i : Nat) :
    BitVec.ofNat P.weightW (countIn S i) ≠ 0 ↔ countIn S i ≠ 0 := by
  rw [ne_eq, ← BitVec.toNat_inj, BitVec.toNat_ofNat, Nat.mod_eq_of_lt (countIn_lt hP hS i)]
  simp

/-- The table has one positive weight for each distinct byte value, and the terminator's (R72). -/
theorem weightsOf_positive_length (hP : P.Legal) {S : List Byte} (hS : S.length ≤ P.maxInputBytes) :
    ((weightsOf S P).toList.filter fun w => w ≠ 0).length = S.dedup.length + 1 := by
  rw [← card_countIn_ne_zero, weightsOf_toList, List.filter_map, List.length_map]
  simp only [Function.comp_def, ofNat_countIn_ne_zero hP hS]
  rfl

theorem weightsOf_term_eq (S : List Byte) : (weightsOf S P)[256] = 1 := by
  rw [weightsOf_get, countIn, if_pos rfl]
  rfl

/-- The sum of a weight table, with the terminator's weight apart. -/
theorem sum_weights_eq (wt : WeightTable P) :
    (wt.toList.map BitVec.toNat).sum =
      ((wt.toList.take 256).map BitVec.toNat).sum + wt[256].toNat := by
  have hlen : (wt.toList.map BitVec.toNat).length = 257 := by
    rw [List.length_map, Vector.length_toList]
  have hsum := List.sum_take_succ (wt.toList.map BitVec.toNat) 256 (by rw [hlen]; decide)
  rw [List.take_of_length_le hlen.le, List.getElem_map, Vector.getElem_toList] at hsum
  rw [hsum, List.map_take]

/-- The weights of the byte values sum to the number of bytes. -/
theorem weightsOf_bytes_sum (hP : P.Legal) {S : List Byte} (hS : S.length ≤ P.maxInputBytes) :
    (((weightsOf S P).toList.take 256).map BitVec.toNat).sum = S.length := by
  have hterm : ((weightsOf S P)[256]).toNat = 1 := weightsOf_toNat hP hS 256 (by decide)
  have hsum := weightsOf_sum hP hS
  rw [sum_weights_eq, hterm] at hsum
  exact Nat.add_right_cancel hsum

/-! ### COUNT -/

/-- COUNT on an input the block admits. -/
theorem exec_count {s : State} (hf : s.fault = false) (hlen : s.src.left / 8 ≤ hardware.maxInputBytes) :
    exec .count s = .next { s with
      busy := false, done := true, wt := weightsOf (bytesOf s.src.rest)
      src := s.src.skip (8 * (s.src.left / 8)) } :=
  (accept_run hf).trans (congrArg Ran.outcome (countBody_eq (s := s.begin) hlen))

/-- Settles O24: COUNT leaves the weight table of the bytes it read, and R72's facts hold of that table for
every byte sequence short enough. -/
theorem countFillsTheWeightTable : Obligations.CountFillsTheWeightTable := by
  intro s hf hlen
  have hS : (bytesOf s.src.rest).length ≤ hardware.maxInputBytes := by
    rw [bytesOf_length, Source.rest_length]
    exact hlen
  refine ⟨weightsOf (bytesOf s.src.rest), exec_count hf hlen, fun i hi => ?_, weightsOf_term_eq _,
    weightsOf_bytes_sum hardware_legal hS, weightsOf_positive_length hardware_legal hS⟩
  exact (weightsOf_toNat hardware_legal hS i (by omega)).trans (countIn_of_byte _ hi)

/-- Settles O25: COUNT's body refuses before its loop, and COMPRESS runs that body first. -/
theorem tooLongInputIsRefused : Obligations.TooLongInputIsRefused := by
  intro s hf hlen
  have hcount : countBody s.begin = .refused .inputTooLong := countBody_tooLong hlen
  refine ⟨(accept_run hf).trans (congrArg Ran.outcome hcount), fun ho => ?_⟩
  have hcompress : compressBody tieBreak s.begin = .refused .inputTooLong := by
    rw [compressBody_eq_runBodies (s := s.begin) ho, runBodies_cons, hcount, runBodies_refused]
  exact (accept_run hf).trans (congrArg Ran.outcome hcompress)

end Sys2Proof.Machine
end

section
/-! The tree builder: BUILD with and without a positive weight (R75, R80, R81), its merges (R76 to R78, R82),
and the trees of the smallest alphabets (R79, R123). -/

namespace Sys2Proof.Machine
open Sys2Proof

variable {P : Params} {before : PqEntry P → PqEntry P → Bool}

/-! ### BUILD without a positive weight -/

theorem faultCode_eq_four {n : FaultName} : faultCode n = 4 ↔ n = .emptyAlphabet := by
  cases n <;> decide

/-- `CAUSE.CODE` is the fault's code, whatever its `SUB` (R16). -/
theorem cause_code (r : Raise) : r.cause.toNat % 16 = faultCode r.name := by
  have hcode := faultCode_lt r.name
  rw [Raise.cause, BitVec.toNat_ofNat]
  omega

/-- A fault that is latched after a command accepted without one is a raise of the command's body. -/
theorem accept_fault_raised {body : State P → Ran P} {K : Raise → Prop} {s t : State P}
    (hkeeps : RanKeeps s.begin (body s.begin)) (hraises : RanRaises K (body s.begin))
    (hf : s.fault = false) (h : accept body s = .next t) (ht : t.fault = true) :
    ∃ r, K r ∧ t.cause = r.cause := by
  rcases accept_cases h with ⟨hf', -⟩ | ⟨-, s', hrun, rfl⟩ | ⟨-, s', r, hrun, rfl⟩
  · rw [hf] at hf'
    cases hf'
  · rw [hrun] at hkeeps
    rw [finish_fault, hkeeps.fault, begin_fault, hf] at ht
    cases ht
  · rw [hrun] at hkeeps hraises
    exact ⟨r, hraises, takeFault_cause_first r s' (hkeeps.fault.trans hf)⟩

/-- BUILD inside COMPRESS never raises: COUNT has given the terminator a positive weight (R70, R80). -/
theorem compressBody_raises_ne_emptyAlphabet (hP : P.Legal) (before : PqEntry P → PqEntry P → Bool)
    (s : State P) : RanRaises (fun r => r.name ≠ .emptyAlphabet) (compressBody before s) := by
  cases ho : s.snk.closed with
  | true =>
    rw [compressBody, requireOpen_closed ho]
    exact FaultName.noConfusion
  | false =>
    by_cases hlen : s.src.left / 8 ≤ P.maxInputBytes
    · obtain ⟨t, ht⟩ := treeOf_isSome hP before (bytesOf s.src.rest)
      rw [compressBody_eq ho hlen ht]
      refine (((encodeBody_raises _).mono ?_).andThen (closeBody_raises _)).closeOnRaise
      rintro r (rfl | ⟨sym, -, rfl⟩) <;> exact FaultName.noConfusion
    · rw [compressBody, requireOpen_open ho, andThen_ended, countBody_tooLong (not_le.mp hlen)]
      trivial

/-- Settles O26: without a positive weight there is no tree and BUILD's body raises; COMPRESS raises only at
its own check or in its ENCODE. -/
theorem buildWithoutWeightsRaises : Obligations.BuildWithoutWeightsRaises := by
  refine ⟨fun s hf hzero => ?_, fun s t hf hrun ht hcode => ?_⟩
  · have hnone : buildTree tieBreak s.begin.wt = none := buildTree_eq_none.mpr hzero
    exact accept_raised hf (buildBody_none hnone) hf
  · obtain ⟨r, hname, hcause⟩ := accept_fault_raised (compressBody_keeps tieBreak s.begin)
      (compressBody_raises_ne_emptyAlphabet hardware_legal tieBreak s.begin) hf hrun ht
    rw [causeCode, hcause, cause_code, faultCode_eq_four] at hcode
    exact hname hcode

/-! ### The tree of a BUILD -/

theorem exists_buildTree (before : PqEntry P → PqEntry P → Bool) {wt : WeightTable P}
    (h : ∃ i, ∃ h : i < 257, wt[i] ≠ 0) : ∃ t, buildTree before wt = some t := by
  obtain ⟨i, hi, hw⟩ := h
  exact Option.ne_none_iff_exists'.mp fun hnone => hw (buildTree_eq_none.mp hnone i hi)

/-- BUILD with a positive weight keeps the tree, empties the codes and changes nothing else (R75). -/
theorem accept_buildBody_some {s : State P} {t : PrefixTree P} (hf : s.fault = false)
    (h : buildTree before s.wt = some t) :
    accept (buildBody before) s = .next { s with
      busy := false, done := true, tree := some t, ct := noCodes } :=
  (accept_run hf).trans (congrArg Ran.outcome (buildBody_some (s := s.begin) h))

theorem exec_build_some {before : PqEntry → PqEntry → Bool} {s : State} {t : PrefixTree}
    (hf : s.fault = false) (h : buildTree before s.wt = some t) :
    ∃ u : State, u = { s with
        busy := false, done := true, tree := some t, ct := Vector.replicate 257 none } ∧
      accept (buildBody before) s = .next u ∧ (before = tieBreak → exec .build s = .next u) := by
  have haccept := accept_buildBody_some hf h
  exact ⟨_, rfl, haccept, by rintro rfl; exact haccept⟩

/-- Settles O27: BUILD ends with the tree of the weight table, whose leaves are those of the positive
weights; the rest are facts of strict binary trees. -/
theorem buildMakesTheTree : Obligations.BuildMakesTheTree := by
  intro before s hf hpos
  obtain ⟨t, ht⟩ := exists_buildTree before hpos
  obtain ⟨hleaves, hweights⟩ := buildTree_spec ht
  have hnodes := nodes_leaves t
  refine ⟨t, exec_build_some hf ht, buildTree_nodup ht,
    fun sym w => hleaves.mem_iff.trans mem_positiveLeaves, hnodes, buildTree_nodes ht,
    fun p sym hp => ?_, hweights⟩
  have hdepth := leafAt_length hp
  omega

/-! ### The merges of a BUILD -/

/-- This hardware's order, spelled out (R77). -/
theorem tieBreak_iff {a b : PqEntry P} : tieBreak a b = true ↔
    (weightOf a.tree).toNat < (weightOf b.tree).toNat ∨
    ((weightOf a.tree).toNat = (weightOf b.tree).toNat ∧ a.seq < b.seq) := by
  simp only [tieBreak, Bool.or_eq_true, Bool.and_eq_true, decide_eq_true_eq]

/-- One turn of the loop on a collection of at least two elements (R78). -/
theorem mergeLoop_turn {n seq : Nat} {pq rest others : List (PqEntry P)} {a b : PqEntry P}
    (ha : removeMin before pq = some (a, rest)) (hb : removeMin before rest = some (b, others)) :
    mergeLoop before (n + 1) pq seq =
      mergeLoop before n (others ++ [mergeEntries a b seq]) (seq + 1) := by
  rw [mergeLoop, ha]
  simp only [hb]

/-- A sum of two weights that fits does not depend on the free value (R82). -/
theorem addWeights_of_fits {seq : Nat} {v w : Weight P} (h : v.toNat + w.toNat < 2 ^ P.weightW) :
    addWeights seq v w = v + w := if_pos h

/-- Settles O28: the clauses on the order and the loop are the builder's laws; BUILD's tree is one that the
start collection merges to, and a collection merges to one tree only. -/
theorem mergeTakesTheTwoLightest : Obligations.MergeTakesTheTwoLightest := by
  refine ⟨tieBreak_legal, fun a b => tieBreak_iff, fun pq rest m hseq hm => ?_,
    fun n seq pq rest others a b ha hb hfits => ?_, fun seq v w hfits => addWeights_exact hfits,
    fun before s hlegal hf hpos => ?_⟩
  · exact ⟨removeMin_perm hm, fun x hx => tieBreak_iff.mp (removeMin_least tieBreak_legal hseq hm x hx)⟩
  · rw [mergeLoop_turn ha hb, mergeEntries, addWeights_of_fits hfits]
  · obtain ⟨t, ht⟩ := exists_buildTree before hpos
    have hmerges := buildTree_merges hlegal ht
    refine ⟨t, exec_build_some hf ht, fun t' => ⟨fun h => ?_, ?_⟩⟩
    · exact h.unique hlegal (List.Perm.refl _) hmerges
    · rintro rfl
      exact hmerges

/-! ### The trees of the smallest alphabets -/

/-- Symbols of weight 0 make no element of the start collection (R76). -/
theorem leavesFrom_skip {f : Nat → Weight P} {sym n : Nat} (m seq : Nat)
    (h : ∀ i, sym ≤ i → i < sym + n → f i = 0) :
    leavesFrom sym seq ((List.range' sym (n + m)).map f) =
      leavesFrom (sym + n) seq ((List.range' (sym + n) m).map f) := by
  induction n generalizing sym with
  | zero => rw [Nat.zero_add, Nat.add_zero]
  | succ n ih =>
    have hzero : f sym = 0 := h sym le_rfl (by omega)
    rw [Nat.succ_add_eq_add_succ, Nat.add_succ, List.range'_succ, List.map_cons, leavesFrom, if_pos hzero,
      ih fun i hle hlt => h i (by omega) (by omega), Nat.add_right_comm, Nat.add_assoc]

/-- A symbol of positive weight makes one element (R76). -/
theorem leavesFrom_take {f : Nat → Weight P} {sym : Nat} (m seq : Nat) (h : f sym ≠ 0) :
    leavesFrom sym seq ((List.range' sym (m + 1)).map f) =
      ⟨.leaf (BitVec.ofNat 9 sym) (f sym), seq⟩ ::
        leavesFrom (sym + 1) (seq + 1) ((List.range' (sym + 1) m).map f) := by
  rw [List.range'_succ, List.map_cons, leavesFrom, if_neg h]

/-- The weight of a symbol in the table of `S`. -/
def symbolWeight (P : Params) (S : List Byte) (i : Nat) : Weight P := BitVec.ofNat P.weightW (countIn S i)

theorem weightsOf_toList_eq_map_range' (S : List Byte) :
    (weightsOf S P).toList = (List.range' 0 257).map (symbolWeight P S) := by
  rw [weightsOf_toList, List.range_eq_range']
  rfl

theorem symbolWeight_of_not_mem {S : List Byte} {i : Nat} (hi : i < 256) (h : i ∉ S.map BitVec.toNat) :
    symbolWeight P S i = 0 := by
  rw [symbolWeight, countIn_of_byte S hi, List.count_eq_zero.mpr h]
  rfl

theorem symbolWeight_term (S : List Byte) : symbolWeight P S 256 = 1 := rfl

/-- Behind the last byte value that occurs only the terminator makes an element. -/
theorem leavesFrom_term (hP : P.Legal) {S : List Byte} {sym n : Nat} (seq : Nat) (hn : sym + n = 256)
    (h : ∀ i, sym ≤ i → i ∉ S.map BitVec.toNat) :
    leavesFrom sym seq ((List.range' sym (n + 1)).map (symbolWeight P S)) =
      [(⟨.leaf 256 1, seq⟩ : PqEntry P)] := by
  have hterm : symbolWeight P S 256 ≠ 0 := by
    have hpos := weightsOf_term hP S
    rwa [weightsOf_get] at hpos
  rw [leavesFrom_skip 1 seq fun i hle hlt => symbolWeight_of_not_mem (by omega) (h i hle), hn,
    leavesFrom_take 0 seq hterm]
  rfl

/-- The tree of a table with one element in its start collection. -/
theorem buildTree_single {wt : WeightTable P} {a : PqEntry P} (h : leavesFrom 0 0 wt.toList = [a]) :
    buildTree before wt = some a.tree := by
  rw [buildTree, h]
  rfl

/-- The tree of a table with two elements in its start collection: one merge, the lesser element left. -/
theorem buildTree_pair {wt : WeightTable P} {a b : PqEntry P} (h : leavesFrom 0 0 wt.toList = [a, b]) :
    buildTree before wt =
      some (if before b a then (mergeEntries b a 2).tree else (mergeEntries a b 2).tree) := by
  rw [buildTree, h]
  cases hba : before b a <;> simp [mergeLoop, removeMin, extractMin, hba]

theorem treeOf_nil (hP : P.Legal) (before : PqEntry P → PqEntry P → Bool) :
    treeOf before [] = some (.leaf 256 1) := by
  refine buildTree_single (a := ⟨.leaf 256 1, 0⟩) ?_
  rw [weightsOf_toList_eq_map_range']
  exact leavesFrom_term hP 0 (n := 256) rfl fun i _ => List.not_mem_nil

/-- The start collection of one byte value repeated: its leaf, then the terminator's. -/
theorem leavesFrom_replicate (hP : P.Legal) (v : Byte) {k : Nat} (hk : 0 < k) (hmax : k ≤ P.maxInputBytes) :
    leavesFrom 0 0 (weightsOf (List.replicate k v) P).toList =
      [⟨.leaf (v.setWidth 9) (BitVec.ofNat P.weightW k), 0⟩, ⟨.leaf 256 1, 1⟩] := by
  have hv := v.isLt
  have hmem : ∀ i, i ≠ v.toNat → i ∉ (List.replicate k v).map BitVec.toNat := by
    intro i hne hi
    rw [List.map_replicate] at hi
    exact hne (List.eq_of_mem_replicate hi)
  have hcount : countIn (List.replicate k v) v.toNat = k := by
    rw [countIn_of_byte _ hv, List.map_replicate, List.count_replicate_self]
  have hpos : symbolWeight P (List.replicate k v) v.toNat ≠ 0 := by
    rw [symbolWeight, ofNat_countIn_ne_zero hP (by rwa [List.length_replicate]), hcount]
    exact hk.ne'
  have hsplit : 257 = v.toNat + ((255 - v.toNat + 1) + 1) := by omega
  rw [weightsOf_toList_eq_map_range', hsplit,
    leavesFrom_skip _ 0 fun i _ hlt => symbolWeight_of_not_mem (by omega) (hmem i (by omega)),
    Nat.zero_add, leavesFrom_take _ 0 hpos,
    leavesFrom_term hP (0 + 1) (by omega) fun i hle => hmem i (by omega),
    symbolWeight, hcount, BitVec.ofNat_toNat]

/-- One byte of input: the weights are equal, so the byte's leaf, inserted first, is on the left (R79). -/
theorem treeOf_singleton (v : Byte) :
    treeOf (P := hardware) tieBreak [v] = some (.node (.leaf (v.setWidth 9) 1) (.leaf 256 1) 2) :=
  buildTree_pair (leavesFrom_replicate hardware_legal v (k := 1) (by decide) (by decide))

/-- The terminator's weight of 1 is the lesser of the two, so its leaf is on the left (R79). -/
theorem treeOf_replicate (v : Byte) {k : Nat} (hk : 2 ≤ k) (hmax : k ≤ 2 ^ 32 - 2) :
    treeOf (P := hardware) tieBreak (List.replicate k v) =
      some (.node (.leaf 256 1) (.leaf (v.setWidth 9) (BitVec.ofNat 32 k)) (BitVec.ofNat 32 (k + 1))) := by
  have hlt : k < 2 ^ 32 := by omega
  have htoNat : (BitVec.ofNat 32 k).toNat = k := by rw [BitVec.toNat_ofNat, Nat.mod_eq_of_lt hlt]
  have hone : (1 : Weight).toNat = 1 := rfl
  have hbefore : tieBreak (⟨.leaf 256 1, 1⟩ : PqEntry)
      ⟨.leaf (v.setWidth 9) (BitVec.ofNat 32 k), 0⟩ = true :=
    tieBreak_iff.mpr (.inl (by simp only [weightOf, hone, htoNat]; omega))
  have hsum : addWeights 2 (1 : Weight) (BitVec.ofNat 32 k) = BitVec.ofNat 32 (k + 1) := by
    rw [addWeights_of_fits (by rw [hone, htoNat, hardware_weightW]; omega),
      Nat.add_comm k 1, BitVec.ofNat_add]
    rfl
  have htree := buildTree_pair (before := tieBreak)
    (leavesFrom_replicate hardware_legal v (k := k) (by omega) hmax)
  rw [if_pos hbefore] at htree
  rw [treeOf, htree, mergeEntries]
  simp only [weightOf]
  rw [hsum]

/-- Settles O29: the start collection has one element for the empty input and two for a repeated byte
value, and the file of the empty input has no code words. -/
theorem smallAlphabetTrees : Obligations.SmallAlphabetTrees := by
  have htree := treeOf_nil hardware_legal tieBreak
  have hlast : codeOf (codesOf (P := hardware) (.leaf 256 1)) Config.term = some [] := by
    rw [codeOf_codesOf _ (by decide), codeFor_leaf]
    exact if_pos rfl
  refine ⟨htree, ?_, treeOf_singleton, fun v k hk hmax => treeOf_replicate v hk hmax⟩
  rw [fileOf_some htree rfl hlast, List.append_nil, List.append_nil]
  rfl

end Sys2Proof.Machine
end

section
/-! The code table generator: GENCODES records the root-to-leaf paths of the tree at hand (R85, R87, R88),
and its codes are prefix-free, one for each symbol of positive weight after a BUILD (R86). -/

namespace Sys2Proof.Machine
open Sys2Proof

variable {P : Params} {before : PqEntry P → PqEntry P → Bool}

/-! ### GENCODES -/

theorem codesOf_getElem (t : PrefixTree P) {i : Nat} (hi : i < 257) : (codesOf t)[i] = t.codeFor i :=
  Vector.getElem_ofFn hi

/-- GENCODES with a tree at hand fills the code table afresh and changes nothing else (R85). -/
theorem exec_gencodes {s : State} {t : PrefixTree} (hf : s.fault = false) (ht : s.tree = some t) :
    exec .gencodes s = .next { s with busy := false, done := true, ct := codesOf t } :=
  (accept_run hf).trans (congrArg Ran.outcome (gencodesBody_eq (s := s.begin) ht))

/-- Settles O31: the walk of GENCODES fills the code table of the tree, whose entries are the paths to the
last leaves. -/
theorem gencodesRecordsThePaths : Obligations.GencodesRecordsThePaths :=
  fun _ t hf ht => ⟨codesOf t, exec_gencodes hf ht, fun _ hi => codesOf_getElem t hi⟩

/-- GENCODES that leaves no fault latched had a tree, and leaves that tree's codes (R85). -/
theorem exec_gencodes_ended {s t : State} (hf : s.fault = false) (h : exec .gencodes s = .next t)
    (hft : t.fault = false) : ∃ root, s.tree = some root ∧ t.ct = codesOf root := by
  obtain ⟨s', hbody, rfl⟩ := accept_ended h hf hft
  cases hroot : s.tree with
  | none =>
    rw [gencodesBody, requireTree_none (s := s.begin) hroot] at hbody
    cases hbody
  | some root =>
    rw [gencodesBody_eq (s := s.begin) hroot] at hbody
    cases hbody
    exact ⟨root, rfl, rfl⟩

/-! ### Prefix-freeness -/

/-- Paths to leaves, one of them the start of the other, are one path to one leaf (R86). -/
theorem leafAt_append_eq {t : PrefixTree P} {p q : Bits} {a b : Sym} (hp : t.leafAt p = some a)
    (hq : t.leafAt (p ++ q) = some b) : q = [] ∧ a = b := by
  obtain rfl := leafAt_append hp hq
  rw [List.append_nil, hp] at hq
  exact ⟨rfl, Option.some.inj hq⟩

/-- The symbols of a code table are told apart by their nine bits. -/
theorem ofNat_sym_injective {a b : Nat} (ha : a < 257) (hb : b < 257)
    (h : BitVec.ofNat 9 a = BitVec.ofNat 9 b) : a = b := by
  have hnat := congrArg BitVec.toNat h
  rw [BitVec.toNat_ofNat, BitVec.toNat_ofNat] at hnat
  omega

/-- No code of a tree is the start of another symbol's (R86). -/
theorem codesOf_prefixFree {t : PrefixTree P} {a b : Nat} {p q : Bits}
    (ha : codeOf (codesOf t) a = some p) (hb : codeOf (codesOf t) b = some (p ++ q)) : a = b ∧ q = [] := by
  obtain ⟨hq, hsym⟩ := leafAt_append_eq (codesArePaths_codesOf t a p ha) (codesArePaths_codesOf t b _ hb)
  exact ⟨ofNat_sym_injective (codeOf_lt ha) (codeOf_lt hb) hsym, hq⟩

/-! ### The codes behind a BUILD -/

/-- BUILD that leaves no fault latched leaves the tree of the weight table (R75, R80). -/
theorem exec_build_ended {s t : State} (hf : s.fault = false) (h : exec .build s = .next t)
    (hft : t.fault = false) : ∃ root, buildTree tieBreak s.wt = some root ∧ t.tree = some root := by
  obtain ⟨s', hbody, -⟩ := accept_ended h hf hft
  cases hroot : buildTree tieBreak s.wt with
  | none =>
    rw [buildBody_none (s := s.begin) hroot] at hbody
    cases hbody
  | some root => exact ⟨root, rfl, (exec_build_tree hf h).trans hroot⟩

/-- In a built tree the symbols with a code are those of positive weight (R76, R86). -/
theorem codeFor_ne_none_iff {wt : WeightTable P} {t : PrefixTree P} (h : buildTree before wt = some t)
    {i : Nat} (hi : i < 257) : t.codeFor i ≠ none ↔ wt[i] ≠ 0 := by
  constructor
  · intro hcode
    obtain ⟨a, hmem, rfl⟩ := codeFor_isSome.mp (Option.isSome_iff_ne_none.mpr hcode)
    obtain ⟨_, hpos⟩ := (buildTree_mem h).mp hmem
    exact hpos
  · intro hpos
    rw [← codeOf_codesOf t hi, Option.ne_none_iff_exists']
    exact codeOf_of_weight h hi hpos

/-- Settles O32: two codes are paths in one tree, in which no path to a leaf is a proper start of another; the
leaves of a built tree are the symbols of positive weight. -/
theorem codesArePrefixFree : Obligations.CodesArePrefixFree := by
  refine ⟨fun t p q a b => leafAt_append_eq, fun s t hf hgen hft a b p q ha hb => ?_,
    fun s t u hf hbuild hft hgen => ?_⟩
  · obtain ⟨root, -, hct⟩ := exec_gencodes_ended hf hgen hft
    rw [hct] at ha hb
    exact codesOf_prefixFree ha hb
  · obtain ⟨root, hroot, htree⟩ := exec_build_ended hf hbuild hft
    rw [exec_gencodes hft htree] at hgen
    cases hgen
    refine ⟨root, htree, fun i hi => ?_⟩
    rw [codesOf_getElem root hi]
    exact ⟨codeFor_ne_none_iff hroot hi, fun p => codeFor_leafAt⟩

end Sys2Proof.Machine
end

section
/-! The tree header codec (R57, R91 to R94): a serialization delimits itself, RDTREE reads back what WRTREE
writes, and the bad headers in which RDTREE, and DECOMPRESS behind a magic word (R120, R121), stop. -/

namespace Sys2Proof.Machine
open Sys2Proof

variable {P : Params}

/-! ### Good headers -/

/-- A serialization is self-delimiting and fixes the tree but for its weights (R94): RDTREE's recursion reads
either tree from the one bit string. -/
theorem ser_append_inj {t t' : PrefixTree P} {x x' : Bits} (h : ser t ++ x = ser t' ++ x') :
    t.strip = t'.strip ∧ x = x' := by
  have hread := des_ser (src := ⟨ser t ++ x, 0⟩) (cap := t.nodes + t'.nodes) (depth := t.nodes + t'.nodes)
    (count := 0) t rfl (by omega) (by omega)
  have hread' := des_ser (src := ⟨ser t ++ x, 0⟩) (cap := t.nodes + t'.nodes)
    (depth := t.nodes + t'.nodes) (count := 0) t' h (by omega) (by omega)
  obtain ⟨hstrip, -, hsrc⟩ : t.strip = t'.strip ∧ 0 + t.nodes = 0 + t'.nodes ∧
      Source.skip ⟨ser t ++ x, 0⟩ (ser t).length = Source.skip ⟨ser t ++ x, 0⟩ (ser t').length := by
    simpa using hread.symm.trans hread'
  have hser : ser t = ser t' := by rw [← ser_strip t, hstrip, ser_strip]
  exact ⟨hstrip, List.append_cancel_left (hser ▸ h)⟩

/-- RDTREE that reads a whole header keeps the tree, empties the codes and moves only the cursor (R91). -/
theorem exec_rdtree_ended {s : State} {t : PrefixTree} {n : Nat} (hf : s.fault = false)
    (hrun : rdtreeBody s.begin = .ended { s.begin with
      tree := some t, ct := noCodes, src := s.src.skip n }) :
    exec .rdtree s = .next { s with
      busy := false, done := true, tree := some t, ct := noCodes, src := s.src.skip n } :=
  (accept_run hf).trans (congrArg Ran.outcome hrun)

/-- Settles O35: RDTREE's body on a serialization, a code table that does not see the weights, and the
self-delimiting serialization. -/
theorem headerRoundTrip : Obligations.HeaderRoundTrip := by
  refine ⟨fun s t x hf hnodes hrest => ?_, fun s t hf => ⟨codesOf t, ?_, ?_⟩,
    fun t t' x x' => ser_append_inj⟩
  · exact exec_rdtree_ended hf (rdtreeBody_ser (s := s.begin) hrest hnodes)
  · exact exec_gencodes (s := { s with tree := some t }) hf rfl
  · rw [← codesOf_strip t]
    exact exec_gencodes (s := { s with tree := some t.strip }) hf rfl

/-! ### Everything RDTREE can end in -/

/-- RDTREE that raises leaves both tables empty and moves only the cursor (R91 to R93). -/
theorem exec_rdtree_raised {s : State} {n : Nat} {r : Raise} (hf : s.fault = false)
    (hrun : rdtreeBody s.begin = .raised { s.begin with
      tree := none, ct := noCodes, src := s.src.skip n } r) :
    exec .rdtree s = .next { s with
      busy := false, done := false, fault := true, tree := none, ct := noCodes
      cause := r.cause, info := BitVec.ofNat 32 r.info, src := s.src.skip n } :=
  accept_raised hf hrun hf

/-- Settles O36: the three ends of RDTREE's body, each with `STATUS` written around it. -/
theorem rdtreeOutcomes : Obligations.RdtreeOutcomes := by
  intro s hf
  rcases rdtreeBody_cases s.begin with
    ⟨t, -, hnodes, -, hrest, hrun⟩ | ⟨n, hn, hrun⟩ | ⟨sub, k, n, hsub, hk, hn, hrun⟩
  · exact .inl ⟨t, _, hrest, hnodes, exec_rdtree_ended hf hrun⟩
  · exact .inr (.inr ⟨n, hn, exec_rdtree_raised hf hrun⟩)
  · exact .inr (.inl ⟨n, sub, k, hn, hsub, hk, exec_rdtree_raised hf hrun⟩)

/-! ### Bad headers -/

/-- The bits that RDTREE finds and raises in, how many of them it reads first, and the raise: a header cut
before a tag or inside a leaf's symbol (R92), or one of more records than the block holds nodes (R93). -/
inductive BadHeader (P : Params) : Bits → Nat → Raise → Prop
  | noTag (t : PrefixTree P) {k : Nat} (hk : k < t.nodes) (hcap : k < P.nodeCap) :
    BadHeader P (t.records.take k).flatten (t.records.take k).flatten.length ⟨.truncatedHeader, 0, k⟩
  | shortSymbol (t : PrefixTree P) {k : Nat} {q : Bits} (hk : k < t.nodes) (hcap : k < P.nodeCap)
    (hq : q.length < 9) :
    BadHeader P ((t.records.take k).flatten ++ true :: q) ((t.records.take k).flatten.length + 1)
      ⟨.truncatedHeader, 1, k⟩
  | tooLarge (t : PrefixTree P) (x : Bits) (hnodes : P.nodeCap < t.nodes) :
    BadHeader P ((t.records.take P.nodeCap).flatten ++ x) (t.records.take P.nodeCap).flatten.length
      ⟨.treeOverflow, 0, P.nodeCap⟩

section Record
variable {cap depth count : Nat} {src : Source}

/-- A record asked for with no bit left (R92). -/
theorem des_noTag (hcount : count < cap) (hdepth : cap ≤ depth + count) (hrest : src.rest = []) :
    des (P := P) cap depth count src = .error (⟨.truncatedHeader, 0, count⟩, src) := by
  obtain ⟨d, rfl⟩ : ∃ d, depth = d + 1 := ⟨depth - 1, by omega⟩
  rw [des, if_neg hcount.ne, readBits_of_nil hrest Nat.one_pos]

/-- A leaf's record with fewer than nine bits behind its tag (R92). -/
theorem des_shortSymbol {q : Bits} (hcount : count < cap) (hdepth : cap ≤ depth + count)
    (hrest : src.rest = true :: q) (hq : q.length < 9) :
    des (P := P) cap depth count src = .error (⟨.truncatedHeader, 1, count⟩, src.skip 1) := by
  obtain ⟨d, rfl⟩ : ∃ d, depth = d + 1 := ⟨depth - 1, by omega⟩
  have hfield : (src.skip 1).readBits 9 = none := by
    rwa [readBits_eq_none, ← Source.rest_length, Source.rest_skip, hrest]
  rw [des, if_neg hcount.ne, readBits_one hrest]
  simp [hfield]

/-- A record asked for when the capacity is used up, whatever stands there (R93). -/
theorem des_full : des (P := P) cap depth cap src = .error (⟨.treeOverflow, 0, cap⟩, src) := by
  cases depth with
  | zero => rw [des]
  | succ d => rw [des, if_pos rfl]

end Record

/-- RDTREE's recursion reads the whole records of a bad header and raises at the next one. -/
theorem des_badHeader {src : Source} {z : Bits} {n : Nat} {r : Raise} (hrest : src.rest = z)
    (h : BadHeader P z n r) : des (P := P) P.nodeCap P.nodeCap 0 src = .error (r, src.skip n) := by
  cases h with
  | @noTag t k hk hcap =>
    rw [← List.append_nil (List.flatten _)] at hrest
    refine des_partial t hk hrest (by omega) (by omega) fun d hd => ?_
    rw [Nat.zero_add] at hd ⊢
    exact des_noTag hcap hd (Source.rest_skip_append hrest)
  | @shortSymbol t k q hk hcap hq =>
    refine des_partial t hk hrest (by omega) (by omega) fun d hd => ?_
    rw [Nat.zero_add] at hd ⊢
    rw [des_shortSymbol hcap hd (Source.rest_skip_append hrest) hq, Source.skip_skip]
  | tooLarge t x hnodes =>
    refine des_partial t hnodes hrest (by omega) (by omega) fun d _ => ?_
    rw [Nat.zero_add]
    exact des_full

/-- RDTREE's body in a bad header (R92, R93). -/
theorem rdtreeBody_badHeader {s : State P} {z : Bits} {n : Nat} {r : Raise} (hrest : s.src.rest = z)
    (h : BadHeader P z n r) :
    rdtreeBody s = .raised { s with tree := none, ct := noCodes, src := s.src.skip n } r := by
  rw [rdtreeBody]
  simp only
  rw [des_badHeader hrest h]

/-- RDTREE in a bad header. -/
theorem exec_rdtree_badHeader {s : State} {z : Bits} {n : Nat} {r : Raise} (hf : s.fault = false)
    (hrest : s.src.rest = z) (h : BadHeader hardware z n r) :
    exec .rdtree s = .next { s with
      busy := false, done := false, fault := true, tree := none, ct := noCodes
      cause := r.cause, info := BitVec.ofNat 32 r.info, src := s.src.skip n } :=
  exec_rdtree_raised hf (rdtreeBody_badHeader (s := s.begin) hrest h)

/-- Settles O37: each of the three sources is a bad header. -/
theorem badHeadersRaise : Obligations.BadHeadersRaise := by
  refine ⟨fun s t k hf hk hcap => ⟨fun hrest => ?_, fun q hq hrest => ?_⟩, fun s t x hf hnodes hrest => ?_⟩
  · exact exec_rdtree_badHeader hf hrest (.noTag t hk hcap)
  · exact exec_rdtree_badHeader hf hrest (.shortSymbol t hk hcap hq)
  · exact exec_rdtree_badHeader hf hrest (.tooLarge t x hnodes)

/-! ### DECOMPRESS in a bad header -/

/-- DECOMPRESS in a bad header behind the magic word: RDTREE's raise, and the sink closed (R120, R121). -/
theorem exec_decompress_badHeader {s : State} {z : Bits} {n : Nat} {r : Raise} (hf : s.fault = false)
    (ho : s.snk.closed = false) (hrest : s.src.rest = bitsOf Config.magicW Config.magic ++ z)
    (h : BadHeader hardware z n r) :
    exec .decompress s = .next { s with
      busy := false, done := false, fault := true, tree := none, ct := noCodes
      cause := r.cause, info := BitVec.ofNat 32 r.info, snk := s.snk.close, src := s.src.skip (32 + n) } := by
  have hheader : (s.src.skip 32).rest = z := by
    simpa only [bitsOf_length] using Source.rest_skip_append hrest
  have htree := rdtreeBody_badHeader (s := { s.begin with src := s.src.skip 32 }) hheader h
  have hrun := decompressBody_magic (s := s.begin) ho (rdmagicBody_field hrest)
  rw [begin_src, htree, andThen_raised, andThen_raised, closeOnRaise_raised, Source.skip_skip] at hrun
  exact accept_raised hf hrun hf

/-- Settles O60: the bits behind the magic word are the bad headers of RDTREE. -/
theorem decompressStopsInABadHeader : Obligations.DecompressStopsInABadHeader := by
  refine fun s t hf ho => ⟨fun k hk hcap => ⟨fun hrest => ?_, fun q hq hrest => ?_⟩, fun x hnodes hrest => ?_⟩
  · exact exec_decompress_badHeader hf ho hrest (.noTag t hk hcap)
  · exact exec_decompress_badHeader hf ho hrest (.shortSymbol t hk hcap hq)
  · exact exec_decompress_badHeader hf ho hrest (.tooLarge t x hnodes)

end Sys2Proof.Machine
end

section
/-! The stream encoder (R100 to R103, R154): REWIND moves only the cursor, and ENCODE writes the code words of
the bytes it reads and then the terminator's, up to the first symbol without a code. -/

namespace Sys2Proof.Machine
open Sys2Proof

/-! ### REWIND -/

/-- Settles O17: with no fault latched REWIND's body is the cursor's move alone, and it makes no check. -/
theorem rewindSetsTheCursorToZero : Obligations.RewindSetsTheCursorToZero :=
  fun _ => ⟨fun hf => accept_run (body := rewindBody) hf, fun hf => accept_fault (body := rewindBody) hf⟩

/-! ### ENCODE -/

/-- ENCODE when every byte from the cursor on and the terminator have codes (R101, R103). -/
theorem exec_encode_ended {s : State} {body last : Bits} (hf : s.fault = false) (ho : s.snk.closed = false)
    (hbody : codeWords s.ct (bytesOf s.src.rest) = some body) (hlast : codeOf s.ct Config.term = some last) :
    exec .encode s = .next { s with
      busy := false, done := true
      src := s.src.skip (8 * (s.src.left / 8)), snk := s.snk.writeString (body ++ last) } :=
  (accept_run hf).trans (congrArg Ran.outcome (encodeBody_all (s := s.begin) ho hbody hlast))

/-- ENCODE that misses the code of `sym` keeps what it read and wrote before (R102, R134, R137). -/
theorem exec_encode_raised {s : State} {n sym : Nat} {body : Bits} (hf : s.fault = false)
    (hrun : encodeBody s.begin = .raised { s.begin with
      src := s.src.skip n, snk := s.snk.writeString body } ⟨.missingCode, 0, sym⟩) :
    exec .encode s = .next { s with
      busy := false, done := false, fault := true, cause := 0x05, info := BitVec.ofNat 32 sym
      src := s.src.skip n, snk := s.snk.writeString body } :=
  accept_raised hf hrun hf

/-- Settles O38: ENCODE's loop writes the code words of all bytes, and the terminator's follows. -/
theorem encodeWritesThePayload : Obligations.EncodeWritesThePayload := by
  intro s body last hf ho hbody hlast
  rw [List.append_assoc]
  exact exec_encode_ended hf ho hbody hlast

/-- Settles O39: ENCODE's loop stops at the first byte without a code, or runs to its end and then finds the
terminator's code missing. -/
theorem encodeRaisesAtAMissingCode : Obligations.EncodeRaisesAtAMissingCode := by
  refine fun s hf ho => ⟨fun A b B body hS hA hb => ?_, fun body hbody hterm => ?_⟩
  · exact exec_encode_raised hf (encodeBody_missing (s := s.begin) ho hS hA hb)
  · exact exec_encode_raised hf (encodeBody_noTerm (s := s.begin) ho hbody hterm)

/-! ### ENCODE behind COUNT -/

/-- With less than a byte left ENCODE reads nothing and writes only the terminator's code (R38, R101). -/
theorem exec_encode_of_left_lt {s : State} {last : Bits} (hf : s.fault = false) (ho : s.snk.closed = false)
    (hleft : s.src.left < 8) (hlast : codeOf s.ct Config.term = some last) :
    exec .encode s = .next { s with busy := false, done := true, snk := s.snk.writeString last } := by
  have hnone : bytesOf s.src.rest = [] := bytesOf_short (by rwa [Source.rest_length])
  have hrun := exec_encode_ended (body := []) hf ho (by rw [hnone]; rfl) hlast
  rwa [Nat.div_eq_of_lt hleft, Nat.mul_zero, Source.skip_zero, List.nil_append] at hrun

/-- COUNT that completes leaves less than a byte behind its cursor, and the fault flag, the codes and the sink
as they were (R70, R71). -/
theorem exec_count_next {s t : State} (hf : s.fault = false) (h : exec .count s = .next t) :
    t.src.left < 8 ∧ t.fault = false ∧ t.ct = s.ct ∧ t.snk = s.snk := by
  have hlen : s.src.left / 8 ≤ hardware.maxInputBytes := by
    by_contra hlong
    rw [(tooLongInputIsRefused s hf (not_le.mp hlong)).1] at h
    cases h
  obtain rfl := Host.Outcome.next.inj ((exec_count hf hlen).symm.trans h)
  have hleft : (s.src.skip (8 * (s.src.left / 8))).left < 8 := by
    rw [Source.left_skip]
    omega
  exact ⟨hleft, hf, rfl, rfl⟩

/-- Settles O40: the cursor stands where COUNT left it, with no whole byte behind it. -/
theorem forgottenRewindIsSilent : Obligations.ForgottenRewindIsSilent := by
  intro s t last hf ho hlast hcount
  obtain ⟨hleft, hft, hct, hsnk⟩ := exec_count_next hf hcount
  have hterm : codeOf t.ct Config.term = some last := by
    rw [hct]
    exact hlast
  exact exec_encode_of_left_lt hft (by rw [hsnk, ho]) hleft hterm

end Sys2Proof.Machine
end

section
/-! The stream decoder (R105 to R107, R109, R112): DECODE takes one code word at a time from an internal root,
reads nothing from a root that is a leaf, and so gives back the bytes whose code words stand at the cursor. -/

namespace Sys2Proof.Machine
open Sys2Proof

variable {P : Params}

/-- DECODE with its checks passed answers what its work on the tree comes to (R105, R113). -/
theorem exec_decode {s : State} {root : PrefixTree} (hf : s.fault = false) (ho : s.snk.closed = false)
    (ht : s.tree = some root) : exec .decode s = (decodeTree root s.begin).outcome :=
  (accept_run hf).trans (congrArg Ran.outcome (decodeBody_eq (s := s.begin) ho ht))

/-- A symbol is the terminator's exactly when its number is. -/
theorem toNat_eq_term_iff {sym : Sym} : sym.toNat = Config.term ↔ sym = 256#9 :=
  BitVec.toNat_inj (y := 256#9)

/-! ### A root that is a leaf -/

/-- Settles O43: the work on a leaf is a comparison of its symbol with the terminator. -/
theorem decodeOfALeafRoot : Obligations.DecodeOfALeafRoot := by
  refine fun s sym w hf ho ht => ⟨fun hsym => ?_, fun hsym => ?_⟩
  · have hrun : decodeTree (.leaf sym w) s.begin = .ended s.begin := if_pos (toNat_eq_term_iff.mpr hsym)
    exact exec_decode_ended (s' := s.begin) hf ho ht hrun
  · have hrun : decodeTree (.leaf sym w) s.begin = .raised s.begin ⟨.truncatedStream, 1, sym.toNat⟩ :=
      if_neg (mt toNat_eq_term_iff.mp hsym)
    exact exec_decode_raised hf ho ht hrun hf

/-! ### One code word -/

section CodeWord
variable {l r : PrefixTree P} {w : Weight P} {p x : Bits} {sym : Sym} {s : State P}

/-- The code word at the cursor lies within the source. -/
theorem length_le_left_of_rest {src : Source} (hrest : src.rest = p ++ x) : p.length ≤ src.left := by
  rw [← Source.rest_length, hrest, List.length_append]
  exact Nat.le_add_right _ _

/-- At the terminator's code word the work of DECODE ends behind that code word (R106). -/
theorem decodeTree_term (hleaf : (PrefixTree.node l r w).leafAt p = some sym) (hrest : s.src.rest = p ++ x)
    (hsym : sym = 256#9) :
    decodeTree (.node l r w) s = .ended { s with src := s.src.skip p.length } := by
  rw [decodeTree, decodeLoop_code s.snk hleaf (code_ne_nil hleaf) hrest (length_le_left_of_rest hrest),
    if_pos (toNat_eq_term_iff.mpr hsym)]

/-- At any other leaf's code word DECODE writes one unit and goes on as from the root (R106, R109). -/
theorem decodeTree_unit (hleaf : (PrefixTree.node l r w).leafAt p = some sym) (hrest : s.src.rest = p ++ x)
    (hsym : sym ≠ 256#9) :
    decodeTree (.node l r w) s = decodeTree (.node l r w) { s with
      src := s.src.skip p.length, snk := s.snk.writeBits 8 sym.toNat } := by
  rw [decodeTree, decodeLoop_code s.snk hleaf (code_ne_nil hleaf) hrest (length_le_left_of_rest hrest),
    if_neg (mt toNat_eq_term_iff.mp hsym), ← Source.left_skip]
  rfl

end CodeWord

/-- Settles O41: the walk from the root ends at the code word's leaf, and the unit is the field of eight bits
written there. -/
theorem decodeTakesOneCodeAtATime : Obligations.DecodeTakesOneCodeAtATime := by
  refine fun s l r w p x sym hf ho ht hleaf hrest => ⟨fun hsym => ?_, fun hsym => ?_⟩
  · exact exec_decode_ended hf ho ht (decodeTree_term (s := s.begin) hleaf hrest hsym)
  · refine ⟨bitsOf 8 sym.toNat, bitsOf_length 8 _, fun i hi => bitsOf_getElem? hi, ?_⟩
    rw [exec_decode hf ho ht, decodeTree_unit (s := s.begin) hleaf hrest hsym]
    exact (exec_decode (s := { s with src := s.src.skip p.length, snk := s.snk.writeBits 8 sym.toNat })
      hf ho ht).symm

/-! ### A whole payload -/

/-- Settles O42: the codes of a tree are paths of the tree and of its copy without weights, so the payload
walks either to its bytes. -/
theorem decodeInvertsEncode : Obligations.DecodeInvertsEncode := by
  intro s t S body last x hf ho ht hbody hlast hrest
  obtain ⟨root, htree, hpaths⟩ : ∃ root, s.tree = some root ∧ CodesArePaths (codesOf t) root := by
    rcases ht with ht | ht
    · exact ⟨t, ht, codesArePaths_codesOf t⟩
    · exact ⟨t.strip, ht, codesArePaths_strip t⟩
  exact exec_decode_ended hf ho htree (decodeTree_payload (s := s.begin) hpaths hbody hlast hrest)

end Sys2Proof.Machine
end

section
/-! The sequencer and the system commands: NOP, CLOSE, CLEAR and the two commands of the magic word (R114 to
R118), `DONE` after a command (R125), a composite that raises (R121, R137), the round trip (R122) and the files
that are no compressed file (R124). -/

namespace Sys2Proof.Machine
open Sys2Proof

variable {P : Params}

/-! ### NOP, CLOSE and CLEAR -/

/-- Settles O14: NOP's body does nothing, and acceptance ignores it while a fault is latched. -/
theorem nopOnlySetsDone : Obligations.NopOnlySetsDone :=
  fun _ => ⟨fun hf => accept_run (body := nopBody) hf, fun hf => accept_fault (body := nopBody) hf⟩

/-- CLOSE with no fault latched runs its body under acceptance. -/
theorem exec_close {s : State} (hf : s.fault = false) : exec .close s = .next (closeSink s.begin).finish :=
  (exec_of_commandBody (i := .close) rfl (.inr hf)).trans (accept_run hf)

/-- CLOSE with a fault latched only closes the sink. -/
theorem exec_close_faulted {s : State} (hf : s.fault = true) : exec .close s = .next (closeSink s) :=
  if_pos hf

/-- Settles O15: the two sides of CLOSE's own acceptance. -/
theorem closeClosesTheSink : Obligations.CloseClosesTheSink :=
  fun _ => ⟨exec_close, exec_close_faulted⟩

/-- Settles O8: CLEAR makes no check, and with a fault latched any other command is ignored or is CLOSE. -/
theorem clearResetsTheBlock : Obligations.ClearResetsTheBlock := by
  refine ⟨fun s => rfl, fun i s t hi hf h => ?_⟩
  rcases exec_cases h with ⟨hclear, -⟩ | ⟨-, -, rfl | ⟨-, rfl⟩⟩ | ⟨hf', -⟩
  · exact absurd hclear hi
  · exact hf
  · exact hf
  · exact nomatch hf.symm.trans hf'

/-! ### The magic word -/

/-- The magic word's bits, first bit most significant (R56). -/
theorem bitsOf_magic : bitsOf Config.magicW Config.magic =
    [true, true, true, true, true, false, true, false, true, true, false, false, true, true, true, false,
      true, false, false, false, false, false, true, false, false, false, false, false, false, false,
      false, true] := by
  decide

/-- Settles O18: on an open sink WRMAGIC's body appends the field of the magic word, and on a closed sink it
raises. -/
theorem wrmagicAppendsTheMagicWord : Obligations.WrmagicAppendsTheMagicWord := by
  refine fun s hf => ⟨fun ho => ?_, fun hc => ?_⟩
  · rw [← bitsOf_magic]
    exact (accept_run hf).trans (congrArg Ran.outcome (wrmagicBody_eq (s := s.begin) ho))
  · have hrun : wrmagicBody s.begin = .raised s.begin ⟨.illegalCommand, 1, 0x4⟩ := by
      rw [wrmagicBody, requireOpen_closed (s := s.begin) hc, andThen_raised]
    exact accept_raised hf hrun hf

/-- RDMAGIC with fewer than 32 bits left. -/
theorem rdmagicBody_short {s : State P} (h : s.src.left < 32) :
    rdmagicBody s = .raised s ⟨.illegalHeader, 1, 0⟩ := by
  rw [rdmagicBody, readBits_eq_none.mpr h]

/-- RDMAGIC on 32 bits that are not the magic word. -/
theorem rdmagicBody_wrong {s : State P} {v : Nat} {src : Source} (h : s.src.readBits 32 = some (v, src))
    (hv : v ≠ Config.magic) :
    rdmagicBody s = .raised { s with src := src } ⟨.illegalHeader, 0, v⟩ := by
  rw [rdmagicBody, h]
  exact if_neg hv

/-- Settles O19: a read of 32 bits is exhausted, or finds the magic word, or finds another number. -/
theorem rdmagicChecksTheMagicWord : Obligations.RdmagicChecksTheMagicWord := by
  refine fun s hf => ⟨fun hshort => ?_, fun v src hread => ?_⟩
  · exact accept_raised hf (rdmagicBody_short (s := s.begin) hshort) hf
  · obtain ⟨-, -, rfl⟩ := readBits_eq_some.mp hread
    refine ⟨rfl, fun hv => ?_, fun hv => ?_⟩
    · subst hv
      exact (accept_run hf).trans (congrArg Ran.outcome (rdmagicBody_good (s := s.begin) hread))
    · exact accept_raised hf (rdmagicBody_wrong (s := s.begin) hread hv) hf

/-! ### `DONE` -/

/-- Settles O22: a body leaves `DONE` and `FAULT` as acceptance left them, both 0, and then its end sets the
one or its raise the other. -/
theorem doneFlagAfterACommand : Obligations.DoneFlagAfterACommand := by
  intro i s t h
  rcases exec_cases h with ⟨rfl, rfl⟩ | ⟨hf, hi, hwas⟩ | ⟨hf, hi, s', hkeeps, hend⟩
  · exact ⟨fun _ => rfl, fun hi => absurd rfl hi, fun hi => absurd rfl hi⟩
  · refine ⟨fun hc => absurd hc hi, fun _ hf' => (nomatch hf.symm.trans hf'), fun _ _ => ?_⟩
    rcases hwas with rfl | ⟨-, rfl⟩ <;> rfl
  · refine ⟨fun hc => absurd hc hi, fun _ _ => ?_, fun _ hf' => (nomatch hf.symm.trans hf')⟩
    rcases hend with rfl | ⟨r, rfl⟩
    · rw [finish_done, finish_fault, hkeeps.fault, begin_fault, hf, Bool.not_false]
    · rw [takeFault_done, takeFault_fault, hkeeps.done, begin_done, Bool.not_true]

/-! ### A composite that raises -/

/-- Steps issued one after another that leave a fault latched: the step that raised was the first to do so,
the steps behind it were ignored, and the last CLOSE closed the sink (R113, R117, R121). -/
theorem runAll_first_fault {steps : List Instr} {bodies : List (State → Ran)}
    (h : List.Forall₂ IsStep steps bodies) {s t : State} (hf : s.fault = false)
    (hrun : runAll (steps ++ [.close]) s = .next t) (ht : t.fault = true) :
    ∃ (ran rest : List Instr) (j : Instr) (m u : State), steps ++ [.close] = ran ++ j :: rest ∧
      runAll ran s = .next m ∧ m.fault = false ∧ exec j m = .next u ∧ u.fault = true ∧
      t = closeSink u := by
  induction h generalizing s with
  | nil =>
    cases (runAll_next (exec_close hf)).symm.trans hrun
    rw [finish_fault, closeSink_fault, begin_fault, hf] at ht
    cases ht
  | @cons i body steps bodies hstep hrest ih =>
    cases hexec : exec i s with
    | fault f => rw [List.cons_append, runAll, hexec] at hrun; cases hrun
    | refused w => rw [List.cons_append, runAll_refused hexec] at hrun; cases hrun
    | next u =>
      rw [List.cons_append, runAll_next hexec] at hrun
      cases hu : u.fault with
      | true =>
        cases (runAll_faulted hrest hu).symm.trans hrun
        exact ⟨[], steps ++ [.close], i, s, u, rfl, rfl, hf, hexec, hu, rfl⟩
      | false =>
        obtain ⟨ran, rest, j, m, v, hsteps, hran, hlast⟩ := ih hu hrun
        exact ⟨i :: ran, rest, j, m, v, congrArg (i :: ·) hsteps, (runAll_next hexec).trans hran, hlast⟩

/-- Settles O47: on an open sink a composite is its steps issued one after another; a closed sink no command
changes. -/
theorem failedCompositeClosesTheSink : Obligations.FailedCompositeClosesTheSink := by
  intro i steps s t hi hf hexec ht
  obtain ⟨-, hclosed, -⟩ := theSinkOnlyGrows i s t hexec
  obtain ⟨-, hdone, -⟩ := doneFlagAfterACommand i s t hexec
  have hclear : i ≠ .clear := by rcases hi with ⟨rfl, -⟩ | ⟨rfl, -⟩ <;> exact nofun
  have hopen : s.snk.closed = false → ∃ (ran rest : List Instr) (j : Instr) (m u : State),
      steps = ran ++ j :: rest ∧ runAll ran s = .next m ∧ m.fault = false ∧ exec j m = .next u ∧
        u.fault = true ∧ t = closeSink u := by
    intro ho
    obtain ⟨hcompress, hdecompress⟩ := compositesAreTheirSteps s hf ho
    rcases hi with ⟨rfl, rfl⟩ | ⟨rfl, rfl⟩
    · exact runAll_first_fault compress_isStep hf (hcompress.symm.trans hexec) ht
    · exact runAll_first_fault decompress_isStep hf (hdecompress.symm.trans hexec) ht
  refine ⟨?_, by rw [hdone hclear hf, ht]; rfl, hclosed, hopen⟩
  cases hs : s.snk.closed with
  | true => rw [hclosed hs, hs]
  | false =>
    obtain ⟨ran, rest, j, m, u, -, -, -, -, -, rfl⟩ := hopen hs
    rfl

/-! ### The round trip -/

/-- Every admitted byte sequence has a compressed file (R55). -/
theorem fileOf_isSome (hP : P.Legal) (before : PqEntry P → PqEntry P → Bool) {S : List Byte}
    (hS : S.length ≤ P.maxInputBytes) : ∃ t f, treeOf before S = some t ∧ fileOf before S = some f := by
  obtain ⟨t, ht⟩ := treeOf_isSome hP before S
  obtain ⟨body, hbody⟩ := codeWords_isSome hP hS ht
  obtain ⟨last, hlast⟩ := codeOf_term hP ht
  exact ⟨t, _, ht, fileOf_some ht hbody hlast⟩

/-- COMPRESS with the bytes `S` as its source and a fresh sink, on any legal build (R122 (a)). -/
theorem accept_compressBody_file (hP : P.Legal) {before : PqEntry P → PqEntry P → Bool} {S : List Byte}
    {f : Bits} (hS : S.length ≤ P.maxInputBytes) (hfile : fileOf before S = some f) {s : State P}
    (hf : s.fault = false) (hsrc : s.src = { bits := bitsOfBytes S, pos := 0 })
    (hsnk : s.snk = { bits := [], closed := false }) :
    ∃ t, accept (compressBody before) s = .next t ∧ EndedWell t ∧ t.snk.bits = f := by
  have hbytes : bytesOf s.src.bits = S := by
    simpa [hsrc] using bytesOf_bitsOfBytes S (x := []) (by decide)
  have hlen : s.src.bits.length / 8 ≤ P.maxInputBytes := by rwa [← bytesOf_length, hbytes]
  obtain ⟨t, f', -, hfile', hrun⟩ := compressBody_file hP (before := before) (s := s.begin)
    (by rw [begin_snk, hsnk]) (by rw [begin_src, hsrc]) hlen
  rw [begin_src, hbytes, hfile] at hfile'
  cases hfile'
  have hnext := (accept_run hf).trans (congrArg Ran.outcome hrun)
  refine ⟨_, hnext, ⟨rfl, ?_, rfl⟩, ?_⟩
  · rw [finish_fault, begin_fault, hf]
  · rw [finish_snk, begin_snk, hsnk, List.nil_append]

/-- DECOMPRESS with the file of `S` and pad bits as its source and a fresh sink, on any legal build
(R122 (b)). -/
theorem accept_decompressBody_file (hP : P.Legal) {before : PqEntry P → PqEntry P → Bool} {S : List Byte}
    {root : PrefixTree P} {f pad : Bits} (hroot : treeOf before S = some root)
    (hfile : fileOf before S = some f) {s : State P} (hf : s.fault = false)
    (hsrc : s.src = { bits := f ++ pad, pos := 0 }) (hsnk : s.snk = { bits := [], closed := false }) :
    ∃ t, accept decompressBody s = .next t ∧ EndedWell t ∧ t.snk.bits = bitsOfBytes S ∧
      t.src.pos = f.length := by
  have hrun := decompressBody_file hP (s := s.begin) (x := pad) hroot hfile (by rw [begin_snk, hsnk])
    (by rw [begin_src, hsrc]; rfl)
  refine ⟨_, (accept_run hf).trans (congrArg Ran.outcome hrun), ⟨rfl, hf, rfl⟩, ?_, ?_⟩
  · rw [finish_snk, close_bits, writeString_bits, begin_snk, hsnk, List.nil_append]
  · rw [finish_src, Source.skip_pos, begin_src, hsrc, Nat.zero_add]

/-- Settles O50: every admitted byte sequence has a file, which COMPRESS writes and DECOMPRESS reads back. -/
theorem compressThenDecompressIsTheInput : Obligations.CompressThenDecompressIsTheInput := by
  refine ⟨fun P hP before S hS => ?_, hardware_legal, hardware_maxInputBytes, fun s => ⟨rfl, rfl⟩⟩
  obtain ⟨root, f, hroot, hfile⟩ := fileOf_isSome hP before hS
  exact ⟨f, hfile, fun s hf hsrc hsnk => accept_compressBody_file hP hS hfile hf hsrc hsnk,
    fun s pad hf hsrc hsnk => accept_decompressBody_file hP hroot hfile hf hsrc hsnk⟩

/-! ### Files that are rejected -/

/-- DECOMPRESS that raises latches the fault's code and closes the sink (R121, R134). -/
theorem exec_decompress_raised {s s' : State} {r : Raise} (hf : s.fault = false)
    (hrun : decompressBody s.begin = .raised s' r) :
    ∃ t, exec .decompress s = .next t ∧ t.fault = true ∧ t.done = false ∧ t.snk.closed = true ∧
      causeCode t = faultCode r.name := by
  have hexec : exec .decompress s = .next (takeFault r s') :=
    (accept_run hf).trans (congrArg Ran.outcome hrun)
  obtain ⟨hclosed, hdone, -⟩ := failedCompositeClosesTheSink .decompress decompressSteps s _
    (.inr ⟨rfl, rfl⟩) hf hexec rfl
  have hkeeps : Keeps s.begin s' := by simpa [RanKeeps, hrun] using decompressBody_keeps s.begin
  refine ⟨_, hexec, rfl, hdone, hclosed, ?_⟩
  rw [causeCode, takeFault_cause_first r s' (hkeeps.fault.trans hf), cause_code]

section CutFile
variable {s : State P} {t : PrefixTree P} {x y z : Bits}

/-- What stands behind the magic word. -/
theorem rest_behind_magic (h : s.src.rest = bitsOf Config.magicW Config.magic ++ x) :
    (s.src.skip 32).rest = x := by
  simpa only [bitsOf_length] using Source.rest_skip_append h

/-- DECOMPRESS where the magic word is cut or another word stands (R116). -/
theorem decompressBody_noMagic (ho : s.snk.closed = false)
    (h : s.src.rest.take 32 ≠ bitsOf 32 Config.magic) :
    ∃ s' r, decompressBody s = .raised s' r ∧ r.name = .illegalHeader := by
  obtain ⟨m, r, hm, hname⟩ : ∃ m r, rdmagicBody s = .raised m r ∧ r.name = .illegalHeader := by
    rcases rdmagicBody_cases s with ⟨-, hm⟩ | ⟨-, hgood, -⟩ | ⟨-, -, -, -, hm⟩
    · exact ⟨_, _, hm, rfl⟩
    · exact absurd hgood h
    · exact ⟨_, _, hm, rfl⟩
  refine ⟨closeSink m, r, ?_, hname⟩
  rw [decompressBody_eq_runBodies ho, runBodies_cons, hm, runBodies_raised]

/-- DECOMPRESS where the source ends inside the tree header (R92). -/
theorem decompressBody_cutHeader (ho : s.snk.closed = false) (hnodes : t.nodes ≤ P.nodeCap)
    (hrest : s.src.rest = bitsOf Config.magicW Config.magic ++ z) (hz : z ++ y = ser t) (hy : y ≠ []) :
    ∃ s' r, decompressBody s = .raised s' r ∧ r.name = .truncatedHeader := by
  have hheader : (s.src.skip 32).rest ++ y = ser t := by rw [rest_behind_magic hrest, hz]
  obtain ⟨sub, k, src, hdes⟩ := des_truncated t hheader hy (count := 0) (depth := P.nodeCap)
    (cap := P.nodeCap) (by omega) (by omega)
  have htree : rdtreeBody { s with src := s.src.skip 32 } =
      .raised { s with tree := none, ct := noCodes, src := src } ⟨.truncatedHeader, sub, k⟩ := by
    rw [rdtreeBody]
    simp only [hdes]
  have hrun := decompressBody_magic ho (rdmagicBody_field hrest)
  rw [htree, andThen_raised, andThen_raised, closeOnRaise_raised] at hrun
  exact ⟨_, _, hrun, rfl⟩

/-- DECOMPRESS where the source ends inside the payload (R108). -/
theorem decompressBody_cutPayload {S : List Byte} {body last : Bits} (ho : s.snk.closed = false)
    (hnodes : t.nodes ≤ P.nodeCap) (hbody : codeWords (codesOf t) S = some body)
    (hlast : codeOf (codesOf t) Config.term = some last)
    (hrest : s.src.rest = bitsOf Config.magicW Config.magic ++ (ser t ++ z)) (hz : z ++ y = body ++ last)
    (hy : y ≠ []) :
    ∃ s' r, decompressBody s = .raised s' r ∧ r.name = .truncatedStream := by
  have hheader := rest_behind_magic hrest
  have htree := rdtreeBody_ser (s := { s with src := s.src.skip 32 }) hheader hnodes
  have hpayload : ((s.src.skip 32).skip (ser t).length).rest ++ y = body ++ last := by
    rw [Source.rest_skip_append hheader, hz]
  rw [Source.skip_skip] at htree hpayload
  obtain ⟨_, _, _, _, _, -, -, -, -, -, hdecode⟩ := decodeTree_cut (s := { s with
    tree := some t.strip, ct := noCodes, src := s.src.skip (32 + (ser t).length) })
    (codesArePaths_strip t) hbody hlast hpayload hy
  have hrun := decompressBody_tree ho (rdmagicBody_field hrest) htree
  rw [hdecode, andThen_raised, closeOnRaise_raised] at hrun
  exact ⟨_, _, hrun, rfl⟩

/-- The fault of a compressed file cut after `n` bits: that of the part the cut is in (R124). -/
def cutFault (t : PrefixTree P) (n : Nat) : FaultName :=
  if n < 32 then .illegalHeader else if n < 32 + (ser t).length then .truncatedHeader else .truncatedStream

/-- Of two starts of one bit string the longer begins with the shorter. -/
theorem exists_append_of_length_le {p q : Bits} (h : x ++ y = p ++ q) (hlen : p.length ≤ x.length) :
    ∃ z, x = p ++ z ∧ z ++ y = q := by
  have htake : x.take p.length = p := by rw [← List.take_append_of_le_length hlen, h, List.take_left]
  have hx : x = p ++ x.drop p.length := by
    conv_lhs => rw [← List.take_append_drop p.length x, htake]
  refine ⟨x.drop p.length, hx, ?_⟩
  rw [hx, List.append_assoc] at h
  exact List.append_cancel_left h

/-- DECOMPRESS on a proper start of a compressed file raises the fault of the part that is cut (R124). -/
theorem decompressBody_cutFile (hP : P.Legal) {before : PqEntry P → PqEntry P → Bool} {S : List Byte}
    {f : Bits} (ht : treeOf before S = some t) (hfile : fileOf before S = some f) (hf : f = x ++ y)
    (hy : y ≠ []) (ho : s.snk.closed = false) (hrest : s.src.rest = x) :
    ∃ s' r, decompressBody s = .raised s' r ∧ r.name = cutFault t x.length := by
  obtain ⟨body, last, hbody, hlast, hparts⟩ := fileOf_parts hP ht hfile
  have hnodes : t.nodes ≤ P.nodeCap := (buildTree_nodes ht).trans hP.cap
  have hcut : x ++ y = bitsOf Config.magicW Config.magic ++ (ser t ++ (body ++ last)) := by
    rw [← hf, hparts]
    simp only [List.append_assoc]
  by_cases hmagic : x.length < 32
  · rw [cutFault, if_pos hmagic]
    refine decompressBody_noMagic ho fun heq => ?_
    have hlen := congrArg List.length heq
    rw [bitsOf_length, hrest, List.length_take] at hlen
    omega
  · obtain ⟨z, rfl, hz⟩ :=
      exists_append_of_length_le hcut ((bitsOf_length _ _).trans_le (not_lt.mp hmagic))
    rw [cutFault, if_neg hmagic]
    have hlen : (bitsOf Config.magicW Config.magic ++ z).length = 32 + z.length := by
      rw [List.length_append, bitsOf_length]
    by_cases hheader : z.length < (ser t).length
    · rw [if_pos (by omega)]
      obtain ⟨y', hser, -⟩ := exists_append_of_length_le hz.symm hheader.le
      refine decompressBody_cutHeader ho hnodes hrest hser.symm fun hnil => ?_
      rw [hser, hnil, List.append_nil] at hheader
      exact lt_irrefl _ hheader
    · rw [if_neg (by omega)]
      obtain ⟨z', rfl, hz'⟩ := exists_append_of_length_le hz (by omega)
      exact decompressBody_cutPayload ho hnodes hbody hlast hrest hz' hy

end CutFile

/-- Settles O51: a cut or wrong magic word stops RDMAGIC, and a proper start of a file stops the step whose
part is cut. -/
theorem corruptFilesAreRejected : Obligations.CorruptFilesAreRejected := by
  constructor
  · intro s hf ho hpos hmagic
    have hrest : s.src.rest = s.src.bits := by rw [Source.rest, hpos, List.drop_zero]
    obtain ⟨s', r, hrun, hname⟩ := decompressBody_noMagic (s := s.begin) ho (by rwa [begin_src, hrest])
    obtain ⟨t, hexec, hfault, -, hclosed, hcode⟩ := exec_decompress_raised hf hrun
    exact ⟨t, hexec, hfault, by rw [hcode, hname]; rfl, hclosed⟩
  · intro before S root f x y s hroot hfile hxy hy hf ho hsrc
    have hrest : s.src.rest = x := by
      rw [hsrc]
      rfl
    obtain ⟨s', r, hrun, hname⟩ :=
      decompressBody_cutFile hardware_legal (s := s.begin) hroot hfile hxy hy ho hrest
    obtain ⟨t, hexec, hfault, hdone, hclosed, hcode⟩ := exec_decompress_raised hf hrun
    rw [hname] at hcode
    refine ⟨t, hexec, hfault, hdone, hclosed, fun h => ?_, fun h h' => ?_, fun h => ?_⟩
    · rw [hcode, cutFault, if_pos h]; rfl
    · rw [hcode, cutFault, if_neg (by omega), if_pos h']; rfl
    · rw [hcode, cutFault, if_neg (by omega), if_neg (by omega)]; rfl

end Sys2Proof.Machine
end

section
/-! Faults (R131, R132, R134, R135): which raises each command can stop with, what a raise latches, the misuses
that raise, and that a latched fault stays; and the step of a block that is idle or busy (R146, R152). -/

namespace Sys2Proof.Machine
open Sys2Proof

variable {P : Params}

/-! ### What a raise latches -/

theorem causeCode_of_raise {t : State P} {r : Raise} (h : t.cause = r.cause) :
    causeCode t = faultCode r.name := by
  rw [causeCode, h, cause_code]

theorem causeSub_of_raise {t : State P} {r : Raise} (h : t.cause = r.cause) (hsub : r.sub < 16) :
    causeSub t = r.sub := by
  have hcode := faultCode_lt r.name
  rw [causeSub, h, cause_toNat hsub]
  omega

/-- Settles O23: a raise with no fault latched writes `CAUSE` and `INFO`, and the two fields of `CAUSE` read
back. -/
theorem raiseLatchesTheFault : Obligations.RaiseLatchesTheFault := fun _ _ _ _ hf hrun hf' =>
  ⟨_, accept_raised hf hrun hf', rfl, fun hsub => ⟨causeCode_of_raise rfl, causeSub_of_raise rfl hsub⟩⟩

/-! ### Which raises a command can stop with -/

/-- The raise `r` is one that R131 lists for the command `i`. -/
def RaiseOf (i : Instr) (r : Raise) : Prop := (faultCode r.name, r.sub) ∈ mayRaise i

theorem RaiseOf.mono {i j : Instr} (hij : mayRaise i ⊆ mayRaise j) {r : Raise} (h : RaiseOf i r) :
    RaiseOf j r :=
  hij h

theorem primitiveBody_raiseOf {i : Instr} {body : State → Ran} (hb : primitiveBody i = some body)
    (s : State) : RanRaises (RaiseOf i) (body s) := by
  cases i <;> cases hb
  case nop => exact nopBody_raises _ s
  case rewind => exact rewindBody_raises _ s
  case close => exact closeBody_raises _ s
  case count => exact (countBody_raises s).mono fun _ => False.elim
  case reservedF =>
    exact (reservedBody_raises s).mono <| by rintro _ rfl; simp [RaiseOf, mayRaise, faultCode]
  case build =>
    exact (buildBody_raises tieBreak s).mono <| by rintro _ rfl; simp [RaiseOf, mayRaise, faultCode]
  case gencodes =>
    exact (gencodesBody_raises s).mono <| by rintro _ rfl; simp [RaiseOf, mayRaise, faultCode]
  case wrmagic =>
    exact (wrmagicBody_raises s).mono <| by rintro _ rfl; simp [RaiseOf, mayRaise, faultCode]
  case wrtree =>
    refine (wrtreeBody_raises s).mono ?_
    rintro _ (rfl | rfl) <;> simp [RaiseOf, mayRaise, faultCode]
  case encode =>
    refine (encodeBody_raises s).mono ?_
    rintro _ (rfl | ⟨sym, -, rfl⟩) <;> simp [RaiseOf, mayRaise, faultCode]
  case rdmagic =>
    refine (rdmagicBody_raises s).mono ?_
    rintro _ (rfl | ⟨v, -, -, rfl⟩) <;> simp [RaiseOf, mayRaise, faultCode]
  case rdtree =>
    refine (rdtreeBody_raises s).mono ?_
    rintro _ (rfl | ⟨sub, k, hsub, -, rfl⟩)
    · simp [RaiseOf, mayRaise, faultCode]
    · interval_cases sub <;> simp [RaiseOf, mayRaise, faultCode]
  case decode =>
    refine (decodeBody_raises s).mono ?_
    rintro _ (rfl | rfl | rfl | ⟨sym, -, -, rfl⟩) <;> simp [RaiseOf, mayRaise, faultCode]

/-- COMPRESS from a source at its start raises only at its own check: behind it the input has a compressed
file (R119), or is too long for a meaning (R71). -/
theorem compressBody_raiseOf {s : State} (hpos : s.src.pos = 0) :
    RanRaises (RaiseOf .compress) (compressBody tieBreak s) := by
  cases ho : s.snk.closed with
  | true =>
    rw [compressBody, requireOpen_closed ho]
    exact List.mem_singleton_self _
  | false =>
    by_cases hlen : s.src.bits.length / 8 ≤ hardware.maxInputBytes
    · obtain ⟨_, _, -, -, hrun⟩ := compressBody_file hardware_legal (before := tieBreak) ho hpos hlen
      rw [hrun]
      trivial
    · have hlong : hardware.maxInputBytes < s.src.left / 8 := by
        rw [Source.left, hpos, Nat.sub_zero]
        exact not_le.mp hlen
      rw [compressBody, requireOpen_open ho, andThen_ended, countBody_tooLong hlong]
      trivial

/-- DECODE with a tree does not miss one. -/
theorem decodeBody_raiseOf_decompress {s : State} {t : PrefixTree} (ht : s.tree = some t) :
    RanRaises (RaiseOf .decompress) (decodeBody s) := by
  cases ho : s.snk.closed with
  | true =>
    rw [decodeBody, requireOpen_closed ho]
    simp [RanRaises, RaiseOf, mayRaise, faultCode]
  | false =>
    rw [decodeBody_eq ho ht]
    refine (decodeTree_raises t s).mono ?_
    rintro _ (rfl | ⟨sym, -, -, rfl⟩) <;> simp [RaiseOf, mayRaise, faultCode]

/-- RDTREE either raises or leaves the tree that DECODE asks for (R91, R105). -/
theorem rdtreeBody_decodeBody_raiseOf (s : State) :
    RanRaises (RaiseOf .decompress) ((rdtreeBody s).andThen decodeBody) := by
  have hrdtree : RanRaises (RaiseOf .decompress) (rdtreeBody s) :=
    (primitiveBody_raiseOf (i := .rdtree) rfl s).mono fun _ => RaiseOf.mono (by decide)
  rcases rdtreeBody_cases s with ⟨t, -, -, -, -, hrun⟩ | ⟨_, -, hrun⟩ | ⟨_, _, _, -, -, -, hrun⟩ <;>
    rw [hrun] at hrdtree ⊢
  · exact decodeBody_raiseOf_decompress rfl
  · exact hrdtree
  · exact hrdtree

theorem decompressBody_raiseOf (s : State) : RanRaises (RaiseOf .decompress) (decompressBody s) := by
  have hopen : RanRaises (RaiseOf .decompress) (requireOpen 0xD s) := by
    refine (requireOpen_raises 0xD s).mono ?_
    rintro _ rfl
    simp [RaiseOf, mayRaise, faultCode]
  have hrdmagic : ∀ s : State, RanRaises (RaiseOf .decompress) (rdmagicBody s) := fun s =>
    (primitiveBody_raiseOf (i := .rdmagic) rfl s).mono fun _ => RaiseOf.mono (by decide)
  rw [decompressBody, andThen_assoc _ rdtreeBody decodeBody]
  exact (((hopen.andThen hrdmagic).andThen rdtreeBody_decodeBody_raiseOf).andThen
    (closeBody_raises _)).closeOnRaise

theorem commandBody_raiseOf {i : Instr} {body : State → Ran} (hb : commandBody i = some body) {s : State}
    (hpos : i = .compress → s.src.pos = 0) : RanRaises (RaiseOf i) (body s) := by
  rcases commandBody_cases hb with hprim | ⟨rfl, rfl⟩ | ⟨rfl, rfl⟩
  · exact primitiveBody_raiseOf hprim s
  · exact compressBody_raiseOf (hpos rfl)
  · exact decompressBody_raiseOf s

/-- A fault that is latched after a command issued without one is a raise of the command's body. -/
theorem exec_fault_raised {i : Instr} {s t : State} (hf : s.fault = false) (h : exec i s = .next t)
    (ht : t.fault = true) :
    ∃ body s' r, commandBody i = some body ∧ body s.begin = .raised s' r ∧ t.cause = r.cause := by
  rcases exec_run h with ⟨-, rfl⟩ | ⟨hf', -⟩ | ⟨-, body, hb, ⟨s', hrun, rfl⟩ | ⟨s', r, hrun, rfl⟩⟩
  · exact nomatch ht
  · exact nomatch hf.symm.trans hf'
  · have hkeeps : Keeps s.begin s' := by simpa [RanKeeps, hrun] using commandBody_keeps hb s.begin
    exact nomatch (hkeeps.fault.trans hf).symm.trans ht
  · have hkeeps : Keeps s.begin s' := by simpa [RanKeeps, hrun] using commandBody_keeps hb s.begin
    exact ⟨body, s', r, hb, hrun, takeFault_cause_first r s' (hkeeps.fault.trans hf)⟩

/-- Settles O52: the fault shown is a raise of the command's body, and every such raise is one R131 lists. -/
theorem commandsRaiseOnlyTheirFaults : Obligations.CommandsRaiseOnlyTheirFaults := by
  intro i s t hf h ht hpos
  obtain ⟨body, s', r, hb, hrun, hcause⟩ := exec_fault_raised hf h ht
  have hraise : RaiseOf i r := by
    simpa [RanRaises, hrun] using commandBody_raiseOf hb (s := s.begin) hpos
  obtain ⟨hsub, -, -⟩ : LegalRaise r := by
    simpa [RanRaises, hrun] using commandBody_legalRaise hb s.begin
  rw [causeCode_of_raise hcause, causeSub_of_raise hcause hsub]
  exact hraise

/-! ### Misuses -/

section Misuse
variable {s : State P} {op : Nat}

theorem requireOpen_andThen_closed {work : State P → Ran P} (h : s.snk.closed = true) :
    (requireOpen op s).andThen work = .raised s ⟨.illegalCommand, 1, op⟩ := by
  rw [requireOpen_closed h, andThen_raised]

theorem requireOpen_requireTree_none {work : PrefixTree P → State P → Ran P} (ho : s.snk.closed = false)
    (ht : s.tree = none) :
    (requireOpen op s).andThen (requireTree op work) = .raised s ⟨.illegalCommand, 2, op⟩ := by
  rw [requireOpen_open ho, andThen_ended, requireTree_none ht]

theorem closeSink_of_closed (h : s.snk.closed = true) : closeSink s = s := by
  have hsnk : s.snk.close = s.snk := closedStays_closeSink s h
  rw [closeSink, hsnk]

theorem compressBody_closed {before : PqEntry P → PqEntry P → Bool} (h : s.snk.closed = true) :
    compressBody before s = .raised s ⟨.illegalCommand, 1, 0xC⟩ := by
  conv_rhs => rw [← closeSink_of_closed h]
  rw [compressBody, requireOpen_closed h]
  rfl

theorem decompressBody_closed (h : s.snk.closed = true) :
    decompressBody s = .raised s ⟨.illegalCommand, 1, 0xD⟩ := by
  conv_rhs => rw [← closeSink_of_closed h]
  rw [decompressBody, requireOpen_closed h]
  rfl
end Misuse

/-- Settles O20: each check stands first in the command's body, and its raise leaves the accepted state as
it is. -/
theorem misusedCommandsRaise : Obligations.MisusedCommandsRaise := by
  intro s hf
  have hraised : ∀ (body : State → Ran) (r : Raise), body s.begin = .raised s.begin r →
      accept body s = .next { s with
        busy := false, done := false, fault := true, cause := r.cause, info := BitVec.ofNat 32 r.info } :=
    fun body r hrun => accept_raised hf hrun hf
  refine ⟨(reservedOpcodeRaises.1 s).1 hf, fun hc => ?_, fun ht => ⟨?_, fun ho => ?_⟩⟩
  · simp only [List.forall_mem_cons, List.not_mem_nil, false_imp_iff, implies_true, and_true]
    exact ⟨hraised wrmagicBody _ (requireOpen_andThen_closed hc),
      hraised wrtreeBody _ (requireOpen_andThen_closed hc),
      hraised encodeBody _ (requireOpen_andThen_closed hc),
      hraised decodeBody _ (requireOpen_andThen_closed hc),
      hraised (compressBody tieBreak) _ (compressBody_closed hc),
      hraised decompressBody _ (decompressBody_closed hc)⟩
  · exact hraised gencodesBody _ (requireTree_none ht)
  · simp only [List.forall_mem_cons, List.not_mem_nil, false_imp_iff, implies_true, and_true]
    exact ⟨hraised wrtreeBody _ (requireOpen_requireTree_none ho ht),
      hraised decodeBody _ (requireOpen_requireTree_none ho ht)⟩

/-! ### A latched fault -/

/-- `FAULT`, `CAUSE` and `INFO` are as they were. -/
def SameFault (s t : State P) : Prop := t.fault = s.fault ∧ t.cause = s.cause ∧ t.info = s.info

theorem exec_sameFault {i : Instr} {s t : State} (hf : s.fault = true) (hi : i ≠ .clear)
    (h : exec i s = .next t) : SameFault s t := by
  rcases exec_cases h with ⟨hclear, -⟩ | ⟨-, -, rfl | ⟨-, rfl⟩⟩ | ⟨hf', -⟩
  · exact absurd hclear hi
  · exact ⟨rfl, rfl, rfl⟩
  · exact ⟨rfl, rfl, rfl⟩
  · exact nomatch hf.symm.trans hf'

theorem exec_ignored {i : Instr} {body : State → Ran} (hb : commandBody i = some body) (hi : i ≠ .close)
    {s : State} (hf : s.fault = true) : exec i s = .next s :=
  (exec_of_commandBody hb (.inl hi)).trans (accept_fault hf)

theorem decodeCommand_ne_clear {op : Opcode} (h : op ≠ 0xE#4) : decodeCommand op ≠ .clear := fun hop =>
  h (decodeCommand_injective (hop.trans (rfl : Instr.clear = decodeCommand 0xE#4)))

theorem not_busy_of_step {s t : State} (h : step s = .next t) : s.busy = false := by
  unfold step at h
  split at h
  · cases h
  · next hb => simpa using hb

/-- No step of the host but CLEAR and reset changes a latched fault (R135). -/
theorem step_sameFault {s t : State} {h : HostStep} {rest : List HostStep} (hf : s.fault = true)
    (hhost : s.host = h :: rest) (hreset : h ≠ .reset) (hclear : h ≠ .issue 0xE#4)
    (hoffer : ∀ nbits w, h ≠ .offer nbits w) (hstep : step s = .next t) : SameFault s t := by
  have hb := not_busy_of_step hstep
  cases h with
  | issue op =>
    rw [step_issue hb hhost] at hstep
    have hi : decodeCommand op ≠ .clear := decodeCommand_ne_clear fun hop => hclear (by rw [hop])
    exact exec_sameFault (s := { s with host := rest }) hf hi hstep
  | offer nbits w => exact absurd rfl (hoffer nbits w)
  | inspect space index => rw [step_inspect hb hhost] at hstep; cases hstep; exact ⟨rfl, rfl, rfl⟩
  | readOut => rw [step_readOut hb hhost] at hstep; cases hstep; exact ⟨rfl, rfl, rfl⟩
  | attachSource b => rw [step_attachSource hb hhost] at hstep; cases hstep; exact ⟨rfl, rfl, rfl⟩
  | attachSink => rw [step_attachSink hb hhost] at hstep; cases hstep; exact ⟨rfl, rfl, rfl⟩
  | reset => exact absurd rfl hreset

/-- Settles O21: acceptance ignores every command with a body but CLOSE, and only CLEAR and the reset write
the fault's registers. -/
theorem latchedFaultIsSticky : Obligations.LatchedFaultIsSticky := by
  refine ⟨fun s hf i hi => ?_, fun s t h rest hf hhost hreset hclear hoffer hstep => ?_⟩
  · obtain ⟨hsome, hclose⟩ : (commandBody i).isSome ∧ i ≠ .close := by
      revert i
      decide
    obtain ⟨body, hb⟩ := Option.isSome_iff_exists.mp hsome
    exact exec_ignored hb hclose hf
  · obtain ⟨hfault, hcause, hinfo⟩ := step_sameFault hf hhost hreset hclear hoffer hstep
    exact ⟨hfault.trans hf, hcause, hinfo⟩

/-! ### An idle and a busy block -/

theorem step_idle {s : State} (hb : s.busy = false) (h : s.host = []) : step s = .next s := by
  simp [step, hb, h]

theorem step_busy {s : State} (hb : s.busy = true) : step s = .refused .commandRunning :=
  if_pos hb

/-- Settles O10: a step looks at `BUSY` first and then at the host's next step. -/
theorem idleKeepsStateAndBusyIsRefused : Obligations.IdleKeepsStateAndBusyIsRefused :=
  ⟨fun _ => step_idle, fun _ => step_busy⟩

end Sys2Proof.Machine
end
